-- ==== Sys2Proof/Word.lean ====
section
/-! DEFINITION. The four widths of rule R5 by name, the word types they give, and the one test on a word that the operand
ranges of rule R61 need. Every integer of the spec is unsigned (00_scope.md section 5.1). -/

namespace Sys2Proof

/-! ### Widths (rule R5)

Each is a parameter with one home. The types take its value in place (`delta%`), so that a width in a type is a numeral
and arithmetic on its values needs no cast. -/

/-- `ADDR_W`: width of a register address. -/
abbrev Config.addrW : Nat := 8
/-- `REG_W`: width of one remote register. -/
abbrev Config.regW : Nat := 8
/-- `RAW_CONTAINER`: width of the container of `RAW` and of the composite. -/
abbrev Config.rawContainer : Nat := 32
/-- `ACC_W`: width of the multi-byte read accumulator (decision D11). -/
abbrev Config.accW : Nat := 32

/-- One remote register, and so one data byte of a frame. A bus byte and a packet byte are eight bits too (rules R50,
R59). -/
abbrev Byte := BitVec (delta% Config.regW)

/-- An address of the remote chip's register file (rule R30). -/
abbrev Address := BitVec (delta% Config.addrW)

/-- `RAW` and the composite (rules R12, R101). -/
abbrev Word := BitVec (delta% Config.rawContainer)

/-- The accumulator of a multi-byte read (rule R73). -/
abbrev Acc := BitVec (delta% Config.accW)

/-- A distance: its binary32 bit pattern (rule R110, decision D24). -/
abbrev Distance := BitVec 32

/-- The biased exponent field of a binary32 pattern. -/
def expField (w : Distance) : Nat := (w.toNat / 2 ^ 23) % 2 ^ 8

/-- A binary32 pattern of a finite number: neither an infinity nor a NaN (rules R61, R120). -/
def finite32 (w : Distance) : Bool := expField w != 255

end Sys2Proof
end

