-- ==== Sys2Proof/Config.lean ====
section
/-! DEFINITION. The implementation parameters of rule R5 (00_scope.md section 4) and the free values.

Every literal of the spec is a named constant here. The parameters for which the spec keeps an alternative, and the one
it leaves OPEN, are fields of `Params`: a `Params` is held in the state (it is part of the launch, rule R164) and no step
changes it, so a statement about every state is a statement about every alternative. The opaque constants are the
spec's `draw`s: nothing can evaluate them. -/

namespace Sys2Proof

/-- The four values of `STATUS` (rule R13). -/
inductive Status where
  | noErrors
  | invalidCrc
  | encoderWarning
  | encoderAlarm
deriving DecidableEq, Repr, Inhabited

/-- A register file of the remote chip: (address, byte) pairs. Its canonical form and its operations are in
Machine/Memory.lean. -/
abbrev Memory := List Host.Cell

/-- `LOCK_WRITE_FORM` (rule R80, decision D5): the frame that lock and unlock write the instruction byte with. -/
inductive LockWriteForm where
  | instr
  | data
deriving DecidableEq, Repr

/-- `ALARM_RECOVERY` (rule R91, decision D15): whether a valid warning releases a latched alarm. -/
inductive AlarmRecovery where
  | rule4
  | never
deriving DecidableEq, Repr

/-- `NOMATCH_POLICY` (rule R93, decision D16): the classification when no rule matches. `hold` is the decided value;
`anyStatus` is the cautious alternative, a draw over the four values. -/
inductive NoMatchPolicy where
  | hold
  | anyStatus
deriving DecidableEq, Repr

/-- Bit order of the transport (rule R70). -/
inductive BitOrder where
  | msbFirst
  | lsbFirst
deriving DecidableEq, Repr

/-- Clock mode of the transport (rule R70); mode 0 is clock idle low, sample on the leading edge. -/
inductive ClockMode where
  | mode0
  | mode1
  | mode2
  | mode3
deriving DecidableEq, Repr

/-- The parameters of rule R5 that have alternatives or are OPEN; fixed for the life of a machine. -/
structure Params where
  /-- `LOCK_WRITE_FORM`, decided `instr`. -/
  lockWriteForm : LockWriteForm
  /-- `ALARM_RECOVERY`, decided `rule4`. -/
  alarmRecovery : AlarmRecovery
  /-- `NOMATCH_POLICY`, decided `hold`. -/
  noMatch : NoMatchPolicy
  /-- `FROZEN_SET`: the registers a refresh step replaces and the lock freezes (rules R38, R39). -/
  frozenSet : List Address
  /-- `VOLATILE_SET`, decided empty: registers whose read returns a draw (rule R41). -/
  volatileSet : List Address
  /-- `CONV_FAC` (rule R117), a binary32 pattern; OPEN, finite and positive. -/
  convFac : Distance
deriving DecidableEq, Repr

/-- What rule R117 requires of `CONV_FAC`: finite and positive. -/
def Params.wf (p : Params) : Bool := decide (0 < p.convFac.toNat) && decide (p.convFac.toNat < 0x7F800000)

namespace Config

/-! ### The bus opcodes (rule R52) -/

def opcWdata : Byte := 0x02#8
def opcRdata : Byte := 0x03#8
def opcRstatus : Byte := 0x05#8
def opcWinstr : Byte := 0x07#8
def opcRdataf : Byte := 0x09#8
def opcWdataf : Byte := 0x0B#8

/-! ### The host command codes (rule R60) -/

def codeConstruct : Byte := 0x80#8
def codeReadReg : Byte := 0x81#8
def codeWriteReg : Byte := 0x82#8
def codeWriteInstr : Byte := 0x83#8
def codeLock : Byte := 0x84#8
def codeUnlock : Byte := 0x85#8
def codeClassify : Byte := 0x86#8
def codeGetRaw : Byte := 0x87#8
def codeToPhys : Byte := 0x88#8
def codeGetPos : Byte := 0x89#8
def codeGetStatus : Byte := 0x8A#8
def codeGetVersion : Byte := 0x8B#8
def codeGetRevision : Byte := 0x8C#8

/-! ### Registers of the remote chip that the controller names (rules R5, R19) -/

/-- `DATA_BASE`, the first register of the data bank. -/
def dataBase : Address := 0x00#8
/-- `ADDR_INSTR`, the instruction register (rule R21). -/
def addrInstr : Address := 0xF4#8
/-- `ADDR_VALIDITY` (rule R22, decision D13). -/
def addrValidity : Address := 0xF1#8
/-- `ENC_STATUS_ADDR` (rule R23, decision D12). -/
def encStatusAddr : Address := 0xF0#8
/-- `ADDR_VERSION` (rule R24). -/
def addrVersion : Address := 0xEB#8
/-- `ADDR_REVISION` (rule R24). -/
def addrRevision : Address := 0xEA#8

/-! ### The other literals of rule R5 -/

/-- `LOCK_BIT`, bit 0 being the least significant (decision D4). -/
def lockBit : Nat := 6
/-- The lock mask `1 << LOCK_BIT` = 0x40 (rule R58). -/
def lockMask : Byte := 1#(delta% regW) <<< lockBit
/-- `VALID_SENTINEL` (rule R96). -/
def validSentinel : Byte := 2#8
/-- `BANK_LEN`: registers in the data bank. -/
def bankLen : Nat := 8
/-- `SAMPLE_BYTES`: single-byte reads per position sample (rule R101). -/
def sampleBytes : Nat := 4
/-- `STATUS_BITS`: low bits of the composite that the shift discards (rule R102). -/
def statusBits : Nat := 2
/-- `RAW_BITS`: width of a raw sample. -/
def rawBits : Nat := 26
/-- The mask `2 ^ RAW_BITS - 1` = 0x03FFFFFF (rule R102). -/
def rawMask : Word := BitVec.ofNat _ (2 ^ rawBits - 1)
/-- `READ_MAX` (rule R35, decision D11). -/
def readMax : Nat := 4
/-- `WRITE_MAX` (rule R35, decision D11). -/
def writeMax : Nat := 255
/-- `READ_FILL`: the byte shifted out while a read data byte is shifted in (decision D8). -/
def readFill : Byte := 0x00#8
/-- `BUS_CLOCK_HZ` (rule R163). -/
def busClockHz : Nat := 1000000
/-- `BUS_BIT_ORDER`. -/
def busBitOrder : BitOrder := .msbFirst
/-- `BUS_MODE`. -/
def busMode : ClockMode := .mode0
/-- `STATUS_RESET`: `STATUS` after construct (rule R28, decision D20). -/
def statusReset : Status := .noErrors

/-! ### The corrector's constants as binary32 patterns (rule R111) -/

/-- `T_LO` = 10.0. -/
def tLo : Distance := 0x41200000#32
/-- `T_HI` = 100. -/
def tHi : Distance := 0x42C80000#32
/-- `T_WRAP` = 190. -/
def tWrap : Distance := 0x433E0000#32
/-- `STRIP_LEN` = 85.60 rounded once to binary32. -/
def stripLen : Distance := 0x42AB3333#32
/-- `WRAP_CONST` = 200. -/
def wrapConst : Distance := 0x43480000#32

/-- The data bank: `BANK_LEN` registers from `DATA_BASE` (rule R20). -/
def dataBank : List Address := (List.range bankLen).map (fun i => dataBase + BitVec.ofNat _ i)

/-- The decided `FROZEN_SET`: the data bank, the status byte and the validity byte (decision D17). -/
def frozenSet : List Address := dataBank ++ [encStatusAddr, addrValidity]

/-- What a byte of the register file that nothing lists reads as. DESIGN CHOICE (log entry 1): the spec makes the launch
contents of the remote chip an argument of the launch. -/
def unlistedByte : Byte := 0x00#8

/-! ### Free values: the spec's draws. No body, so no proof can see a value. -/

/-- The number behind the OPEN `CONV_FAC` (rule R117, decision D25). -/
opaque convFacDraw : Distance

/-- A move of the remote refresh agent at the n-th draw: `none`, or one new snapshot (rule R38). -/
opaque freeMove : Nat → Option Memory

/-- A byte drawn by a read of a register of `VOLATILE_SET` (rule R41), or the unspecified `SEL` after a controller
reset (rule R28). -/
opaque freeByte : Nat → Byte

/-- A 32-bit draw: `RAW_RESET` (rules R28, R120), or the unspecified `RAW` and `OFFSET` after a controller reset. -/
opaque freeWord : Nat → Word

/-- A draw over the four status values: the no-match case under `anyStatus` (rule R93), or the unspecified `STATUS`
after a controller reset. -/
opaque freeStatus : Nat → Status

/-- The OPEN `CONV_FAC`: any finite positive binary32 value, and nothing is known of which. -/
def convFac : Distance :=
  if 0 < convFacDraw.toNat ∧ convFacDraw.toNat < 0x7F800000 then convFacDraw else 1#32

/-- The decided values of the parameters (rule R5). -/
def params : Params where
  lockWriteForm := .instr
  alarmRecovery := .rule4
  noMatch := .hold
  frozenSet := frozenSet
  volatileSet := []
  convFac := convFac

end Config

end Sys2Proof
end

