-- ==== Sys2Proof/Syntax.lean ====
section
/-! DEFINITION. What the two ports take, as syntax: the six bus frames of rule R52 and the thirteen host operations of
rule R60, one constructor each, and the names of the reasons for which a packet or a frame is turned away. -/

namespace Sys2Proof

/-- One bus frame or one host operation. Operands of host operations are the packet's own bytes: a value outside the
range of rule R61 is still an operand, which the operation refuses (rule R136). -/
inductive Instr where
  /-- WDATA, 0x02, format BA (rule R72). -/
  | wdata (address : Address) (data : List Byte)
  /-- RDATA, 0x03, format BA (rule R71); `count` data bytes are shifted in. -/
  | rdata (address : Address) (count : Nat)
  /-- RSTATUS, 0x05 (rule R78); the bytes after the opcode have no format in the source. -/
  | rstatus (rest : List Byte)
  /-- WINSTR, 0x07, format BI (rule R77). -/
  | winstr (code : Byte)
  /-- RDATAF, 0x09 (rule R78); the bytes after the opcode have no format in the source. -/
  | rdataf (rest : List Byte)
  /-- WDATAF, 0x0B (rule R78); the bytes after the opcode have no format in the source. -/
  | wdataf (rest : List Byte)
  /-- `construct(selectLine, offset)` (rule R120). -/
  | construct (sel : Byte) (offset : Distance)
  /-- `readRegister(address, count)` (rule R74). -/
  | readReg (address : Address) (count : Byte)
  /-- `writeRegister(address, data)` (rule R75). -/
  | writeReg (address : Address) (data : List Byte)
  /-- `writeInstruction(code)` (rule R76). -/
  | writeInstr (code : Byte)
  /-- `lock()` (rule R81). -/
  | lock
  /-- `unlock()` (rule R82). -/
  | unlock
  /-- `classify(encoderStatusCode, isValid, previousStatus)` (rule R90). -/
  | classify (code : Byte) (isValid : Byte) (prev : Byte)
  /-- `getRawPosition()` (rule R100). -/
  | getRaw
  /-- `toPhysical(rawSample, offset)` (rule R112). -/
  | toPhys (raw : Word) (offset : Distance)
  /-- `getPosition()` (rule R114). -/
  | getPos
  /-- `getStatus()` (rule R108). -/
  | getStatus
  /-- `getVersion()` (rule R122). -/
  | getVersion
  /-- `getRevision()` (rule R123). -/
  | getRevision
deriving DecidableEq, Repr

/-- Whether an instruction is a bus frame (rule R52) or a host operation (rule R60). -/
def Instr.isFrame : Instr → Bool
  | .wdata _ _ => true
  | .rdata _ _ => true
  | .rstatus _ => true
  | .winstr _ => true
  | .rdataf _ => true
  | .wdataf _ => true
  | .construct _ _ => false
  | .readReg _ _ => false
  | .writeReg _ _ => false
  | .writeInstr _ => false
  | .lock => false
  | .unlock => false
  | .classify _ _ _ => false
  | .getRaw => false
  | .toPhys _ _ => false
  | .getPos => false
  | .getStatus => false
  | .getVersion => false
  | .getRevision => false

/-- The reasons for which the controller refuses a host packet (rule R136). -/
inductive PacketRefusal where
  | unknownCommand
  | badPacketLength
  | notConstructed
  | alreadyConstructed
  | badCount
  | badLength
  | badOffset
  | badOperand
deriving DecidableEq, Repr

/-- The reasons for which bytes on the bus are no frame the controller can emit (rules R51, R54, R56). -/
inductive FrameError where
  /-- No byte between select-assert and select-deassert. -/
  | emptyFrame
  /-- An opcode byte outside the six of rule R52. -/
  | unknownOpcode
  /-- A number of bytes that the opcode's format does not have (rule R51). -/
  | frameLength
  /-- A byte other than `READ_FILL` shifted out in a read data phase (rule R54). -/
  | fillByte
deriving DecidableEq, Repr

end Sys2Proof
end

