-- ==== Sys2Proof/WellFormed.lean ====
section
/-! DEFINITION. The operand ranges of rules R51 and R61. An ill-formed host operation still decodes and is refused by
its meaning (rule R136); an ill-formed frame does not decode. -/

namespace Sys2Proof

/-- 1 to `READ_MAX` bytes (rules R35, R51). -/
def readLengthOk (n : Nat) : Bool := decide (1 ≤ n) && decide (n ≤ Config.readMax)

/-- 1 to `WRITE_MAX` bytes (rules R35, R51). -/
def writeLengthOk (n : Nat) : Bool := decide (1 ≤ n) && decide (n ≤ Config.writeMax)

/-- The ranges of rule R61 (host operations) and rule R51 (frames). -/
def wellFormed : Instr → Bool
  | .wdata _ data => writeLengthOk data.length
  | .rdata _ count => readLengthOk count
  | .rstatus _ => true
  | .winstr _ => true
  | .rdataf _ => true
  | .wdataf _ => true
  | .construct _ offset => finite32 offset
  | .readReg _ count => readLengthOk count.toNat
  | .writeReg _ data => writeLengthOk data.length
  | .writeInstr _ => true
  | .lock => true
  | .unlock => true
  | .classify _ isValid prev => decide (isValid.toNat ≤ 1) && decide (prev.toNat ≤ 3)
  | .getRaw => true
  | .toPhys raw offset => decide (raw.toNat < 2 ^ Config.rawBits) && finite32 offset
  | .getPos => true
  | .getStatus => true
  | .getVersion => true
  | .getRevision => true

end Sys2Proof
end

