-- ==== Sys2Proof/Decode.lean ====
section
/-! DEFINITION. The two decoders of rule R66, the byte order of multi-byte fields (rules R31, R59), the encoder, and the
decoder as the opcode table numbers its words. Both decoders are total and reject by name. -/

namespace Sys2Proof

/-! ### Byte order of a 32-bit field: most significant byte first (rule R59) -/

/-- Four bytes, the first the most significant. -/
def wordOfBytes (b0 b1 b2 b3 : Byte) : Word := b0 ++ b1 ++ b2 ++ b3

/-- The four bytes of a word, the most significant first. -/
def bytesOfWord (w : Word) : List Byte :=
  [w.extractLsb' 24 8, w.extractLsb' 16 8, w.extractLsb' 8 8, w.extractLsb' 0 8]

/-! ### The bus-side decoder (rules R51 to R56) -/

/-- One frame from the bytes the controller shifts out between select-assert and select-deassert. The number of data
bytes is the number of bytes there are (rule R51); a read data phase shifts out `READ_FILL` (rule R54). -/
def decodeFrame : List Byte → Except FrameError Instr
  | [] => .error .emptyFrame
  | op :: rest =>
    if op = Config.opcWdata then
      match rest with
      | address :: data => if writeLengthOk data.length then .ok (.wdata address data) else .error .frameLength
      | [] => .error .frameLength
    else if op = Config.opcRdata then
      match rest with
      | address :: fills =>
        if readLengthOk fills.length then
          if fills.all (fun b => b == Config.readFill) then .ok (.rdata address fills.length) else .error .fillByte
        else .error .frameLength
      | [] => .error .frameLength
    else if op = Config.opcRstatus then .ok (.rstatus rest)
    else if op = Config.opcWinstr then
      match rest with
      | [code] => .ok (.winstr code)
      | _ => .error .frameLength
    else if op = Config.opcRdataf then .ok (.rdataf rest)
    else if op = Config.opcWdataf then .ok (.wdataf rest)
    else .error .unknownOpcode

/-! ### The host-side decoder (rules R59 to R63) -/

/-- A command that takes no operand byte. -/
def decodeBare (i : Instr) (rest : List Byte) : Except PacketRefusal Instr :=
  match rest with
  | [] => .ok i
  | _ => .error .badPacketLength

/-- One host packet: a command byte and the operand bytes it defines (rule R60). A packet shorter or longer than its
command defines is refused (rule R61), and so is every command byte outside 0x80 to 0x8C (rule R63). A packet of no byte
at all has no command byte: DESIGN CHOICE (log entry 9), it is refused as too short. -/
def decodePacket : List Byte → Except PacketRefusal Instr
  | [] => .error .badPacketLength
  | op :: rest =>
    if op = Config.codeConstruct then
      match rest with
      | [sel, a, b, c, d] => .ok (.construct sel (wordOfBytes a b c d))
      | _ => .error .badPacketLength
    else if op = Config.codeReadReg then
      match rest with
      | [address, count] => .ok (.readReg address count)
      | _ => .error .badPacketLength
    else if op = Config.codeWriteReg then
      match rest with
      | address :: len :: data =>
        if data.length = len.toNat then .ok (.writeReg address data) else .error .badPacketLength
      | _ => .error .badPacketLength
    else if op = Config.codeWriteInstr then
      match rest with
      | [code] => .ok (.writeInstr code)
      | _ => .error .badPacketLength
    else if op = Config.codeLock then decodeBare .lock rest
    else if op = Config.codeUnlock then decodeBare .unlock rest
    else if op = Config.codeClassify then
      match rest with
      | [code, isValid, prev] => .ok (.classify code isValid prev)
      | _ => .error .badPacketLength
    else if op = Config.codeGetRaw then decodeBare .getRaw rest
    else if op = Config.codeToPhys then
      match rest with
      | [a, b, c, d, e, f, g, h] => .ok (.toPhys (wordOfBytes a b c d) (wordOfBytes e f g h))
      | _ => .error .badPacketLength
    else if op = Config.codeGetPos then decodeBare .getPos rest
    else if op = Config.codeGetStatus then decodeBare .getStatus rest
    else if op = Config.codeGetVersion then decodeBare .getVersion rest
    else if op = Config.codeGetRevision then decodeBare .getRevision rest
    else .error .unknownCommand

/-! ### The encoder -/

/-- The bytes of an instruction, from the tables of rules R51, R52 and R60. For a frame these are the bytes the
controller shifts out; for a read frame the data phase is `READ_FILL`. -/
def encode : Instr → List Byte
  | .wdata address data => 0x02#8 :: address :: data
  | .rdata address count => 0x03#8 :: address :: List.replicate count 0x00#8
  | .rstatus rest => 0x05#8 :: rest
  | .winstr code => [0x07#8, code]
  | .rdataf rest => 0x09#8 :: rest
  | .wdataf rest => 0x0B#8 :: rest
  | .construct sel offset => 0x80#8 :: sel :: bytesOfWord offset
  | .readReg address count => [0x81#8, address, count]
  | .writeReg address data => 0x82#8 :: address :: BitVec.ofNat 8 data.length :: data
  | .writeInstr code => [0x83#8, code]
  | .lock => [0x84#8]
  | .unlock => [0x85#8]
  | .classify code isValid prev => [0x86#8, code, isValid, prev]
  | .getRaw => [0x87#8]
  | .toPhys raw offset => 0x88#8 :: (bytesOfWord raw ++ bytesOfWord offset)
  | .getPos => [0x89#8]
  | .getStatus => [0x8A#8]
  | .getVersion => [0x8B#8]
  | .getRevision => [0x8C#8]

/-! ### Words as the opcode table numbers them -/

/-- Whether a first byte is one of the six bus opcodes (rule R52); no host code is one (rule R60). -/
def isBusOpcode (b : Byte) : Bool :=
  b == Config.opcWdata || b == Config.opcRdata || b == Config.opcRstatus || b == Config.opcWinstr
    || b == Config.opcRdataf || b == Config.opcWdataf

/-- The least number of bytes that the format of a first byte has, its third byte being `len` (rules R51, R60). -/
def shortestLength (op third : Byte) : Nat :=
  if op = Config.opcWdata then 3
  else if op = Config.opcRdata then 3
  else if op = Config.opcWinstr then 2
  else if op = Config.codeConstruct then 6
  else if op = Config.codeReadReg then 3
  else if op = Config.codeWriteReg then 3 + third.toNat
  else if op = Config.codeWriteInstr then 2
  else if op = Config.codeClassify then 4
  else if op = Config.codeToPhys then 9
  else 1

/-- The `n` lowest bytes of a number, the least significant first: the first byte of the packet or frame is bits 7..0. -/
def lowBytes : Nat → Nat → List Byte
  | 0, _ => []
  | n + 1, w => BitVec.ofNat 8 w :: lowBytes n (w / 256)

/-- The packet or frame whose first `nbits` bits are `w` and whose other bits are zero, as long as its format's
shortest form. -/
def tableBytes (nbits w : Nat) : List Byte :=
  let given := lowBytes ((nbits + 7) / 8) w
  given ++ List.replicate (shortestLength (given.getD 0 0#8) (given.getD 2 0#8) - given.length) 0#8

/-- Decoding by the port that the first byte belongs to: the two code spaces are disjoint (rule R60). -/
def decodeBytes (bs : List Byte) : Option Instr :=
  if isBusOpcode (bs.getD 0 0#8) then (decodeFrame bs).toOption else (decodePacket bs).toOption

/-- The instruction the decoder reads from a word of spec/opcode_table.json, zeros above. -/
def decodeTableWord (nbits w : Nat) : Option Instr := decodeBytes (tableBytes nbits w)

end Sys2Proof
end

