-- ==== Sys2Proof/Machine/State.lean ====
section
/-! DEFINITION. The state of the machine: the device handle, the select line, the remote chip's register file, what the
two ports have taken in and given out, the moves of the remote refresh agent, and the parameters of the launch. Plain
data throughout. The reasons a step can stop. -/

namespace Sys2Proof.Machine

/-- No step ends in a fault: "the controller has no fault outcome" (rule R130, 93_implementation_defined.md). -/
inductive Fault where
deriving DecidableEq, Repr

/-- The reasons for which a step has no meaning. A malformed host packet is none of them: the controller answers it with
a `Response.refused` and goes on (rule R136). -/
inductive Refusal where
  /-- Raised by `exec` for an instruction without a meaning yet. Safe. -/
  | notModelled (mnemonic : String)
  /-- Raised by the meanings of RSTATUS, RDATAF and WDATAF: the source names these frames and gives neither format nor
  effect (rules R55, R78, U7). Safe: the machine stops where a chip may go on. -/
  | frameNotInSource (opcode : Byte)
  /-- Raised by the meanings of WDATA and RDATA for a number of data bytes that rule R51 excludes; the bus-side decoder
  gives no such frame. Safe. -/
  | frameLength
  /-- Raised by `step` for bytes on the bus port that are no frame the controller can emit (rules R51, R54, R56, U7).
  Safe. -/
  | notAFrame (why : FrameError)
deriving DecidableEq, Repr

/-- One call on the transport (rule R70), as the bus trace records it. -/
inductive TransportCall where
  /-- begin-transaction(clock-rate, bit-order, clock-mode). -/
  | beginTransaction (clockHz : Nat) (order : BitOrder) (mode : ClockMode)
  /-- select-line-set(asserted) for one line. -/
  | selectLineSet (line : Byte) (asserted : Bool)
  /-- transfer-byte(out)->in; `none` is a shifted-in byte the controller ignores (rule R54). -/
  | transferByte (out : Byte) (shiftedIn : Option Byte)
  /-- end-transaction. -/
  | endTransaction
deriving DecidableEq, Repr

/-- What the outside puts in front of the machine, one at a time. -/
inductive PortInput where
  /-- A host packet (rule R59), any bytes (rule R165). -/
  | packet (bytes : List Byte)
  /-- A bare frame at the bus port: the bytes between select-assert and select-deassert (rule R50). -/
  | frame (bytes : List Byte)
  /-- A reset of the controller between two operations (rule R150). -/
  | controllerReset
deriving DecidableEq, Repr

/-- What the machine gave back for one input. -/
inductive Response where
  /-- The result bytes of a host operation, possibly none (rule R62). -/
  | result (bytes : List Byte)
  /-- A refused host packet (rule R136), or a bare frame before there is a handle (rule R28). -/
  | refused (why : PacketRefusal)
  /-- The bytes a bare frame shifted in (rule R70: `return ins`). -/
  | frameBytes (bytes : List Byte)
deriving DecidableEq, Repr

/-- The whole state. Rules R10 to R15 name the handle, R18 the register file, R25 the select line, R164 the packets, the
results and the bus trace, R38 the refresh agent, R5 the parameters. -/
structure State where
  /-- `SEL` (rule R11). -/
  sel : Byte
  /-- `RAW` (rule R12). -/
  raw : Word
  /-- `STATUS` (rule R13). -/
  status : Status
  /-- `OFFSET` (rule R14), a binary32 pattern. -/
  offset : Distance
  /-- `INIT` (rule R15). -/
  init : Bool
  /-- The select line, true when asserted (rule R25). -/
  select : Bool
  /-- `RR`, the register file of the remote chip (rules R18, R30). -/
  rr : Memory
  /-- The inputs still to come, the next one first (rule R164). -/
  pending : List PortInput
  /-- The results and refusals given so far, the oldest first (rule R164). -/
  responses : List Response
  /-- The bus trace so far, the oldest call first (rule R164). -/
  bus : List TransportCall
  /-- The coming moves of the remote refresh agent that the launch supplies, one for each point at which it may step:
  `none`, or a register file whose bytes at `FROZEN_SET` are the new snapshot (rule R38). -/
  moves : List (Option Memory)
  /-- The number of free values drawn so far; the model's own field. -/
  draws : Nat
  /-- The parameters (rule R5). -/
  params : Params
deriving DecidableEq, Repr

/-- A launch (rule R164): the controller at reset, with the launch's register file, parameters, inputs and moves of the
refresh agent. `INIT` is 0 and the select line deasserted (rules R28, R150). The other handle registers are unspecified
there: DESIGN CHOICE (log entry 2), zero and `no_errors`. -/
def State.launch (rr : Memory) (params : Params) (inputs : List PortInput) (moves : List (Option Memory)) : State where
  sel := 0#8
  raw := 0#32
  status := .noErrors
  offset := 0#32
  init := false
  select := false
  rr := rr
  pending := inputs
  responses := []
  bus := []
  moves := moves
  draws := 0
  params := params

/-- The machine right after reset: the launch with nothing listed in the register file (log entry 1), the decided
parameters, no input, and no move of the refresh agent fixed beforehand. -/
def State.reset : State := State.launch [] Config.params [] []

end Sys2Proof.Machine
end

