-- ==== Sys2Proof/Machine/Memory.lean ====
section
/-! DEFINITION. The operations over a register file: a list of (address, byte) pairs in one canonical form, so that
equal register files are equal lists (rules R18, R30). -/

namespace Sys2Proof.Machine

/-- The canonical form: addresses strictly rising and below `2 ^ ADDR_W` = 256 (rule R30), and no entry equal to what an unlisted
address reads as. -/
def Memory.wf (m : Memory) : Bool :=
  decide (m.Pairwise (fun c d => c.1 < d.1)) &&
    m.all (fun c => decide (c.1 < 2 ^ Config.addrW) && (c.2 != Config.unlistedByte))

/-- One register. -/
def Memory.read : Memory → Nat → Byte
  | [], _ => Config.unlistedByte
  | (k, v) :: m, a => if a = k then v else Memory.read m a

/-- The file without an entry for one address. -/
def Memory.erase (m : Memory) (a : Nat) : Memory := m.filter (fun c => c.1 != a)

/-- A new entry, before the first one with a higher address. -/
def Memory.insert : Memory → Nat → Byte → Memory
  | [], a, v => [(a, v)]
  | (k, w) :: m, a, v => if a < k then (a, v) :: (k, w) :: m else (k, w) :: Memory.insert m a v

/-- Writing one register. Writing what an unlisted address reads as removes the entry. -/
def Memory.write (m : Memory) (a : Nat) (v : Byte) : Memory :=
  if v = Config.unlistedByte then Memory.erase m a else Memory.insert (Memory.erase m a) a v

/-- A register file with the registers of a set replaced by those of a snapshot, all at once (rule R38). -/
def Memory.refreshed (m : Memory) (frozen : List Address) (snapshot : Memory) : Memory :=
  frozen.foldl (fun acc a => Memory.write acc a.toNat (Memory.read snapshot a.toNat)) m

end Sys2Proof.Machine
end

