-- ==== Sys2Proof/Machine/Ops.lean ====
section
/-! DEFINITION. The named operations that the meanings share: answering the host, the refresh agent, byte transfers,
the three frames, and the read-modify-write of the instruction register.

Taking an exception and returning from one have no counterpart here: "No operation raises a synchronous exception"
(rule R130) and "There is no return-from-trap operation and no nesting" (rule R137). The one thing that is taken in
place of an operation is the refusal of a packet (rule R136): `State.refuse`. -/

namespace Sys2Proof.Machine

/-! ### Answering -/

/-- The end of an operation with a result (rule R62). -/
def State.reply (s : State) (bytes : List Byte) : State := { s with responses := s.responses ++ [.result bytes] }

/-- The refusal of a packet, or of a bare frame before there is a handle: nothing but the answer (rules R28, R136). -/
def State.refuse (s : State) (why : PacketRefusal) : State := { s with responses := s.responses ++ [.refused why] }

/-- The end of a bare frame. -/
def State.replyFrame (s : State) (bytes : List Byte) : State :=
  { s with responses := s.responses ++ [.frameBytes bytes] }

/-- An operation that is refused for the first reason its checks give, and otherwise runs to its end (rules R130, R134,
R136). Both are next states: after a refusal the controller accepts the next packet. -/
def answer (why : Option PacketRefusal) (s : State) (body : State) : Host.Outcome State Fault Refusal :=
  .next (match why with | some r => s.refuse r | none => body)

/-! ### Small updates -/

/-- The bus trace with one more transport call. -/
def State.call (s : State) (c : TransportCall) : State := { s with bus := s.bus ++ [c] }

/-- The select line set for line x[SEL] (rule R70). -/
def State.setSelect (s : State) (asserted : Bool) : State :=
  { s with select := asserted, bus := s.bus ++ [.selectLineSet s.sel asserted] }

/-- The register file replaced. -/
def State.setRr (s : State) (m : Memory) : State := { s with rr := m }

/-- `x[STATUS] <- v`. -/
def State.setStatus (s : State) (v : Status) : State := { s with status := v }

/-- `x[RAW] <- v`. -/
def State.setRaw (s : State) (v : Word) : State := { s with raw := v }

/-- A number of free values used up. -/
def State.drawn (s : State) (n : Nat) : State := { s with draws := s.draws + n }

/-! ### The remote refresh agent (rules R38, R39) -/

/-- `LOCKED`: bit 6 of the instruction register is 1 (rule R21). -/
def State.locked (s : State) : Bool := (Memory.read s.rr Config.addrInstr.toNat).getLsbD Config.lockBit

/-- The agent's move at this point: the launch's next one, and a free value when the launch supplies no more. -/
def State.nextMove (s : State) : Option Memory :=
  match s.moves with
  | m :: _ => m
  | [] => Config.freeMove s.draws

/-- The moves after one was taken. -/
def State.dropMove (s : State) : State := { s with moves := s.moves.tail, draws := s.draws + 1 }

/-- The register file after a move: a refresh step is enabled only while the bank is unlocked (rule R38). -/
def moved (s : State) (move : Option Memory) : Memory :=
  match move with
  | some snapshot => if s.locked then s.rr else Memory.refreshed s.rr s.params.frozenSet snapshot
  | none => s.rr

/-- A point at which the refresh agent may step. One move stands for any number of refresh steps in a row: each replaces
the whole snapshot, so only the last one shows (DEDUCED, log entry 4). -/
def State.refreshPoint (s : State) : State := (s.setRr (moved s s.nextMove)).dropMove

/-! ### Byte transfers (rules R36, R37, R54) -/

/-- What the chip gives for a register: its current value, or a draw for a register of `VOLATILE_SET` (rules R37,
R41). -/
def State.chipByte (s : State) (a : Address) : Byte :=
  if a ∈ s.params.volatileSet then Config.freeByte s.draws else Memory.read s.rr a.toNat

/-- The opcode byte or the address byte: the byte shifted in is ignored. -/
def sendByte (out : Byte) (s : State) : State := s.refreshPoint.call (.transferByte out none)

/-- One byte of a read data phase: the register's value at the moment of the transfer. -/
def readByte (a : Address) (s : State) : Byte × State :=
  (s.refreshPoint.chipByte a,
    (s.refreshPoint.call (.transferByte Config.readFill (some (s.refreshPoint.chipByte a)))).drawn 1)

/-- One byte of a write data phase: it is stored at its own transfer. -/
def writeByte (a : Address) (v : Byte) (s : State) : State :=
  (s.refreshPoint.setRr (Memory.write s.refreshPoint.rr a.toNat v)).call (.transferByte v none)

/-- A read data phase of `n` bytes from address `a`, the address stepping modulo `2 ^ ADDR_W` = 256 (rule R36). -/
def readBytes (a : Address) : Nat → State → List Byte × State
  | 0, s => ([], s)
  | n + 1, s =>
    ((readByte a s).1 :: (readBytes (a + 1#(delta% Config.addrW)) n (readByte a s).2).1, (readBytes (a + 1#(delta% Config.addrW)) n (readByte a s).2).2)

/-- A write data phase from address `a`. -/
def writeBytes (a : Address) : List Byte → State → State
  | [], s => s
  | v :: vs, s => writeBytes (a + 1#(delta% Config.addrW)) vs (writeByte a v s)

/-! ### Frames (rule R70) -/

/-- begin-transaction and select-assert. -/
def frameOpen (s : State) : State :=
  (s.call (.beginTransaction Config.busClockHz Config.busBitOrder Config.busMode)).setSelect true

/-- select-deassert and end-transaction. -/
def frameClose (s : State) : State := (s.setSelect false).call .endTransaction

/-- The frame up to its data phase: the opcode byte, and the address byte of format BA (rule R51). -/
def frameHead (opcode : Byte) (address : Option Address) (s : State) : State :=
  match address with
  | some a => sendByte a (sendByte opcode (frameOpen s))
  | none => sendByte opcode (frameOpen s)

/-- `MemRead(addr, n)`: one RDATA frame (rule R71). -/
def memRead (a : Address) (n : Nat) (s : State) : List Byte × State :=
  ((readBytes a n (frameHead Config.opcRdata (some a) s)).1,
    frameClose (readBytes a n (frameHead Config.opcRdata (some a) s)).2)

/-- `MemRead(addr, 1)[0]`. -/
def memReadByte (a : Address) (s : State) : Byte × State := ((memRead a 1 s).1.headD 0#8, (memRead a 1 s).2)

/-- `MemWrite(addr, n, v)`: one WDATA frame (rule R72). -/
def memWrite (a : Address) (data : List Byte) (s : State) : State :=
  frameClose (writeBytes a data (frameHead Config.opcWdata (some a) s))

/-- `InstrWrite(c)`: one WINSTR frame, no address byte; its byte is stored in the instruction register (rules R37, R77,
decision D6). -/
def instrWrite (c : Byte) (s : State) : State :=
  frameClose (writeByte Config.addrInstr c (frameHead Config.opcWinstr none s))

/-! ### The read-modify-write of the instruction register (rule R80) -/

/-- Whether a mask is set or cleared. -/
inductive MaskIntent where
  | set
  | clear
deriving DecidableEq, Repr

/-- The byte written back: the mask's bits forced, every other bit as read. -/
def maskedByte (mask : Byte) (intent : MaskIntent) (iv : Byte) : Byte :=
  match intent with
  | .set => iv ||| mask
  | .clear => iv &&& ~~~mask

/-- The write-back, with the frame that `LOCK_WRITE_FORM` names (decision D5). -/
def instrWriteBack (c : Byte) (s : State) : State :=
  match s.params.lockWriteForm with
  | .instr => instrWrite c s
  | .data => memWrite Config.addrInstr [c] s

/-- `ApplyInstrMask(mask, intent)`: the write-back always happens. -/
def applyInstrMask (mask : Byte) (intent : MaskIntent) (s : State) : State :=
  instrWriteBack (maskedByte mask intent (memReadByte Config.addrInstr s).1) (memReadByte Config.addrInstr s).2

/-! ### Reset of the controller (rule R150) -/

/-- `INIT` is 0, the select line deasserted, no frame is sent and the remote chip keeps what it holds. The other handle
registers are unspecified (rule R28): free values. Rule R150 puts a reset between a `lock` and its `unlock` outside the
model; that such a reset is taken all the same, and that the chip keeps the set lock bit then too, is a DESIGN CHOICE (log
entry 27). -/
def State.controllerReset (s : State) : State :=
  { s with
    init := false
    select := false
    sel := Config.freeByte s.draws
    status := Config.freeStatus s.draws
    raw := Config.freeWord s.draws
    offset := Config.freeWord (s.draws + 1)
    draws := s.draws + 2 }

end Sys2Proof.Machine
end

