-- ==== Sys2Proof/Machine/Operands.lean ====
section
/-! DEFINITION. Operands: how bytes are assembled into a word (rule R58) and the checks an operation makes before it runs,
in the order its rule lists them (rules R134, R136). -/

namespace Sys2Proof.Machine

/-! ### Assembly of bytes (rule R58) -/

/-- The multi-byte read fold: each byte enters at the low end, the first is the most significant (rule R73). -/
def foldBytes (bs : List Byte) : Acc :=
  bs.foldl (fun acc b => (acc <<< Config.regW) ||| b.zeroExtend _) (0 : Acc)

/-- The composite: the first byte read is the least significant (rules R32, R101). -/
def packSample (bs : List Byte) : Word :=
  bs.foldr (fun b acc => b.zeroExtend _ ||| (acc <<< Config.regW)) (0 : Word)

/-- The candidate: a logical shift discards the two status bits and the mask keeps 26 bits (rule R102). -/
def candidate (reading : Word) : Word := (reading >>> Config.statusBits) &&& Config.rawMask

/-! ### Checks -/

/-- Any operation that needs the handle (rule R15). -/
def checkInit (s : State) : Option PacketRefusal := if s.init then none else some .notConstructed

/-- `readRegister` (rule R74). -/
def checkReadReg (s : State) (count : Byte) : Option PacketRefusal :=
  if s.init then (if readLengthOk count.toNat then none else some .badCount) else some .notConstructed

/-- `writeRegister` (rule R75). -/
def checkWriteReg (s : State) (data : List Byte) : Option PacketRefusal :=
  if s.init then (if writeLengthOk data.length then none else some .badLength) else some .notConstructed

/-- `construct` (rule R120). -/
def checkConstruct (s : State) (offset : Distance) : Option PacketRefusal :=
  if s.init then some .alreadyConstructed else (if finite32 offset then none else some .badOffset)

/-- `classify` as a host packet (rule R61); it needs no handle. -/
def checkClassify (isValid prev : Byte) : Option PacketRefusal :=
  if isValid.toNat ≤ 1 ∧ prev.toNat ≤ 3 then none else some .badOperand

/-- `toPhysical` as a host packet (rules R61, R112); it needs no handle. When both operands are out of range the sample
is named first, the order in which rule R112 has them (DEDUCED, log entry 10). -/
def checkToPhys (raw : Word) (offset : Distance) : Option PacketRefusal :=
  if raw.toNat < 2 ^ Config.rawBits then (if finite32 offset then none else some .badOffset) else some .badOperand

end Sys2Proof.Machine
end

