-- ==== Sys2Proof/Machine/BankLock.lean ====
section
/-! DEFINITION. The bank lock protocol as host operations (rules R81, R82). -/

namespace Sys2Proof.Machine

/-- `lock()` (rule R81). -/
def execLock (s : State) : Host.Outcome State Fault Refusal :=
  answer (checkInit s) s ((applyInstrMask Config.lockMask .set s).reply [])

/-- `unlock()` (rule R82). -/
def execUnlock (s : State) : Host.Outcome State Fault Refusal :=
  answer (checkInit s) s ((applyInstrMask Config.lockMask .clear s).reply [])

end Sys2Proof.Machine
end

