-- ==== Sys2Proof/Machine/Numerics.lean ====
section
/-! DEFINITION. The arithmetic of distances (rules R110 to R118): the numerics record, its decided instantiation IEEE
754 binary32 with round to nearest, ties to even, one rounding per operation (decision D24), its exact instantiation,
and the conversion and the wraparound corrector over any record. -/

namespace Sys2Proof.Machine

/-- The numerics record `NUM` (rule R110). -/
structure Numerics (F : Type) where
  ofU32 : Word → F
  mul : F → F → F
  sub : F → F → F
  lt : F → F → Bool
  convFac : F
  tLo : F
  tHi : F
  tWrap : F
  stripLen : F
  wrapConst : F

/-- `toPhysical(r, o)` (rule R112). -/
def toPhysical {F : Type} (N : Numerics F) (r : Word) (o : F) : F := N.sub (N.mul (N.ofU32 r) N.convFac) o

/-- The wraparound corrector: first match wins, at most one subtraction (rule R115). -/
def correct {F : Type} (N : Numerics F) (d : F) : F :=
  if N.lt N.tLo d && N.lt d N.tHi then N.sub d N.stripLen
  else if N.lt N.tWrap d then N.sub d N.wrapConst
  else d

/-! ### binary32 -/

/-- The sign bit. -/
def f32Neg (w : Distance) : Bool := w.getLsbD 31

/-- Exponent and fraction together: patterns of one sign are ordered as this number is. -/
def f32Mag (w : Distance) : Nat := w.toNat % 2 ^ 31

/-- A NaN pattern. -/
def f32IsNaN (w : Distance) : Bool := decide (0x7F800000 < f32Mag w)

/-- An infinity pattern. -/
def f32IsInf (w : Distance) : Bool := f32Mag w == 0x7F800000

/-- The integer significand of a finite pattern. -/
def f32Sig (w : Distance) : Nat := if expField w = 0 then f32Mag w else f32Mag w % 2 ^ 23 + 2 ^ 23

/-- The exponent of the significand's unit, plus 149: the value is `± f32Sig * 2 ^ (f32Exp - 149)`. -/
def f32Exp (w : Distance) : Nat := expField w - 1

/-- The NaN that an operation gives. IEEE 754 leaves the payload open, and no operation of the controller gives one
(rule R110: "Non-finite values never arise"); DESIGN CHOICE (log entry 11). -/
def f32NaN : Distance := 0x7FC00000#32

/-- A pattern from a sign and a magnitude. -/
def f32Pack (neg : Bool) (mag : Nat) : Distance := BitVec.ofNat 32 ((if neg then 2 ^ 31 else 0) + mag)

/-- `m / 2 ^ k` rounded to the nearest integer, ties to even. -/
def roundShift (m k : Nat) : Nat :=
  let q := m / 2 ^ k
  let r := m % 2 ^ k
  if 2 ^ k < 2 * r ∨ (2 * r = 2 ^ k ∧ q % 2 = 1) then q + 1 else q

/-- The magnitude pattern nearest to `m * 2 ^ (e - 149 - g)`, ties to even, where `g` counts extra low bits. The unit of
the result is `2 ^ (u - 149)`, `u` being the least that leaves at most 24 significant bits; a magnitude beyond the
largest finite one is infinity. -/
def roundMag (m e g : Nat) : Nat :=
  let u := e + (Nat.log2 m + 1) - (g + 24)
  let sig := if e ≤ u + g then roundShift m (u + g - e) else m * 2 ^ (e - (u + g))
  Nat.min (u * 2 ^ 23 + sig) 0x7F800000

/-- Rounding of `± m * 2 ^ (e - 149 - g)` to binary32. -/
def roundF32 (neg : Bool) (m e g : Nat) : Distance := f32Pack neg (if m = 0 then 0 else roundMag m e g)

/-- `of_u32` (rule R113). -/
def f32OfU32 (r : Word) : Distance := roundF32 false r.toNat 149 0

/-- Multiplication. -/
def f32Mul (a b : Distance) : Distance :=
  let neg := f32Neg a != f32Neg b
  if f32IsNaN a || f32IsNaN b then f32NaN
  else if f32IsInf a || f32IsInf b then
    if f32Mag a = 0 ∨ f32Mag b = 0 then f32NaN else f32Pack neg 0x7F800000
  else roundF32 neg (f32Sig a * f32Sig b) (f32Exp a + f32Exp b) 149

/-- A finite pattern's value in units of `2 ^ -149`. -/
def f32Int (w : Distance) : Int :=
  if f32Neg w then - (Int.ofNat (f32Sig w * 2 ^ f32Exp w)) else Int.ofNat (f32Sig w * 2 ^ f32Exp w)

/-- Subtraction. An exact zero difference is +0, except that (-0) - (+0) is -0, as IEEE 754 has it for this rounding. -/
def f32Sub (a b : Distance) : Distance :=
  if f32IsNaN a || f32IsNaN b then f32NaN
  else if f32IsInf a then
    if f32IsInf b && f32Neg a == f32Neg b then f32NaN else a
  else if f32IsInf b then f32Pack (!f32Neg b) 0x7F800000
  else
    let d := f32Int a - f32Int b
    if d = 0 then f32Pack (f32Neg a && !f32Neg b && f32Mag a == 0) 0
    else roundF32 (decide (d < 0)) d.natAbs 0 0

/-- The order of patterns: -0 and +0 alike. -/
def f32Key (w : Distance) : Int := if f32Neg w then - (Int.ofNat (f32Mag w)) else Int.ofNat (f32Mag w)

/-- Strict less-than; false when either side is a NaN. -/
def f32Lt (a b : Distance) : Bool := !f32IsNaN a && !f32IsNaN b && decide (f32Key a < f32Key b)

/-- The decided instantiation (decision D24), with the OPEN `CONV_FAC` as an argument (rule R117). -/
def binary32 (convFac : Distance) : Numerics Distance where
  ofU32 := f32OfU32
  mul := f32Mul
  sub := f32Sub
  lt := f32Lt
  convFac := convFac
  tLo := Config.tLo
  tHi := Config.tHi
  tWrap := Config.tWrap
  stripLen := Config.stripLen
  wrapConst := Config.wrapConst

/-- The exact instantiation, admitted for checking the source's own examples (rule R110); no meaning uses it. -/
def exactNumerics (convFac : Rat) : Numerics Rat where
  ofU32 := fun r => (r.toNat : Rat)
  mul := fun a b => a * b
  sub := fun a b => a - b
  lt := fun a b => decide (a < b)
  convFac := convFac
  tLo := 10
  tHi := 100
  tWrap := 190
  stripLen := 856 / 10
  wrapConst := 200

/-- The arithmetic of this machine. -/
def State.numerics (s : State) : Numerics Distance := binary32 s.params.convFac

/-- The real value of a finite binary32 pattern; statements about the arithmetic are made in terms of it. -/
def f32Value (w : Distance) : Rat := (f32Int w : Rat) / 2 ^ 149

end Sys2Proof.Machine
end

