-- ==== Sys2Proof/Machine/Flags.lean ====
section
/-! DEFINITION. What plays the part of flags (rule R27): the status precedence classifier, the validity predicate and
the numeric codes of `STATUS`. -/

namespace Sys2Proof.Machine

/-- The numeric code of a status (rule R13, decision D3). -/
def statusCode : Status → Byte
  | .noErrors => 0#8
  | .invalidCrc => 1#8
  | .encoderWarning => 2#8
  | .encoderAlarm => 3#8

/-- The status of a code 0 to 3; every other code is refused as an operand before this is asked (rule R61). -/
def statusOfCode (c : Byte) : Status :=
  if c = 0#8 then .noErrors
  else if c = 1#8 then .invalidCrc
  else if c = 2#8 then .encoderWarning
  else .encoderAlarm

/-- `isValid`: the validity byte equals the sentinel, the whole byte compared (rule R96). -/
def validByte (val : Byte) : Bool := val == Config.validSentinel

/-- "The latest evidence satisfies rule 4" as rule R91 reads it. -/
def evidence4 (c : Byte) (v : Bool) : Bool := v && c == 1#8

/-- The classifier, first match wins (rule R90). `noMatch` is the answer when no rule matches (rule R93). -/
def classify (recovery : AlarmRecovery) (noMatch : Status) (c : Byte) (v : Bool) (p : Status) : Status :=
  if p = .encoderAlarm ∧ ¬ (recovery = .rule4 ∧ evidence4 c v = true) then .encoderAlarm
  else if c = 0#8 ∧ v = true then .noErrors
  else if v = false then .invalidCrc
  else if c = 1#8 then .encoderWarning
  else if c = 2#8 then .encoderAlarm
  else noMatch

/-- The answer when no rule matches, with previous status `p`: `p` itself under `hold`, a draw under `anyStatus`
(rule R93). -/
def State.noMatchAnswer (s : State) (p : Status) : Status :=
  match s.params.noMatch with
  | .hold => p
  | .anyStatus => Config.freeStatus s.draws

/-- The classifier with the parameters of this machine. -/
def State.classified (s : State) (c : Byte) (v : Bool) (p : Status) : Status :=
  classify s.params.alarmRecovery (s.noMatchAnswer p) c v p

end Sys2Proof.Machine
end

