-- ==== Sys2Proof/Machine/Pipeline.lean ====
section
/-! DEFINITION. The position pipeline and the operations about `STATUS`: getRawPosition, getStatus, classify
(rules R90, R100 to R108). -/

namespace Sys2Proof.Machine

/-- `n` single-byte reads, one frame each, in ascending order from address `a` (rule R101). -/
def readSingles (a : Address) : Nat → State → List Byte × State
  | 0, s => ([], s)
  | n + 1, s =>
    ((memReadByte a s).1 :: (readSingles (a + 1#(delta% Config.addrW)) n (memReadByte a s).2).1,
      (readSingles (a + 1#(delta% Config.addrW)) n (memReadByte a s).2).2)

/-- Step 2: `SAMPLE_BYTES` single-byte reads from `DATA_BASE`, that is 0x00 to 0x03, and the composite (rule R101). -/
def readComposite (s : State) : Word × State :=
  (packSample (readSingles Config.dataBase Config.sampleBytes s).1, (readSingles Config.dataBase Config.sampleBytes s).2)

/-- Step 4: the status byte, then the validity byte, and `x[STATUS]` overwritten with the classification of the two and
its own old value (rules R95, R96, R103). -/
def classifyBank (s : State) : State :=
  let esc := memReadByte Config.encStatusAddr s
  let val := memReadByte Config.addrValidity esc.2
  (val.2.setStatus (val.2.classified esc.1 (validByte val.1) val.2.status)).drawn 1

/-- Step 5: the candidate is committed exactly when the new status is `no_errors` (rule R104). -/
def commit (cand : Word) (s : State) : State := if s.status = .noErrors then s.setRaw cand else s

/-- Steps 1 to 6: lock, sample, classify, commit or keep, and unlock always (rules R100, R105). -/
def poll (s : State) : State :=
  let sample := readComposite (applyInstrMask Config.lockMask .set s)
  applyInstrMask Config.lockMask .clear (commit (candidate sample.1) (classifyBank sample.2))

/-- `getRawPosition()` (rule R100): the possibly unchanged last-known raw position (rule R106). -/
def execGetRaw (s : State) : Host.Outcome State Fault Refusal :=
  answer (checkInit s) s ((poll s).reply (bytesOfWord (poll s).raw))

/-- `getStatus()`: the status of the latest poll, no bus activity (rule R108). -/
def execGetStatus (s : State) : Host.Outcome State Fault Refusal :=
  answer (checkInit s) s (s.reply [statusCode s.status])

/-- `classify(code, isValid, prev)` as a host operation: it needs no handle and touches none (rule R90). One free value
is counted as used, whether or not the no-match case asks for it. -/
def execClassify (code isValid prev : Byte) (s : State) : Host.Outcome State Fault Refusal :=
  answer (checkClassify isValid prev) s
    ((s.drawn 1).reply [statusCode (s.classified code (isValid == 1#8) (statusOfCode prev))])

end Sys2Proof.Machine
end

