-- ==== Sys2Proof/Machine/Conversion.lean ====
section
/-! DEFINITION. The unit conversion and the wraparound corrector as host operations (rules R112, R114). -/

namespace Sys2Proof.Machine

/-- `toPhysical(rawSample, offset)` as a host operation: pure, no handle, no bus activity (rule R112). -/
def execToPhys (raw : Word) (offset : Distance) (s : State) : Host.Outcome State Fault Refusal :=
  answer (checkToPhys raw offset) s (s.reply (bytesOfWord (toPhysical s.numerics raw offset)))

/-- The corrected distance of a raw sample with the handle's offset (rule R114). -/
def State.position (s : State) (raw : Word) : Distance := correct s.numerics (toPhysical s.numerics raw s.offset)

/-- `getPosition()`: the whole of a poll, then the conversion of its result, stale or not (rule R114). -/
def execGetPos (s : State) : Host.Outcome State Fault Refusal :=
  answer (checkInit s) s ((poll s).reply (bytesOfWord ((poll s).position (poll s).raw)))

end Sys2Proof.Machine
end

