-- ==== Sys2Proof/Machine/Frames.lean ====
section
/-! DEFINITION. The meanings of the six bus frames as frames of their own at the bus port (rules R71, R72, R77, R78).
No frame can run while `INIT` is 0 (rule R28), so that the unspecified `SEL` never reaches the bus: a frame with a meaning
is then refused `NotConstructed`, as every bus operation is (rule R15, decision D22). -/

namespace Sys2Proof.Machine

/-- WDATA (rule R72). -/
def execWdata (address : Address) (data : List Byte) (s : State) : Host.Outcome State Fault Refusal :=
  if writeLengthOk data.length then answer (checkInit s) s ((memWrite address data s).replyFrame [])
  else .refused .frameLength

/-- RDATA (rule R71). -/
def execRdata (address : Address) (count : Nat) (s : State) : Host.Outcome State Fault Refusal :=
  if readLengthOk count then
    answer (checkInit s) s ((memRead address count s).2.replyFrame (memRead address count s).1)
  else .refused .frameLength

/-- RSTATUS: no format and no effect in the source (rule R78). -/
def execRstatus (_rest : List Byte) (_s : State) : Host.Outcome State Fault Refusal :=
  .refused (.frameNotInSource Config.opcRstatus)

/-- WINSTR (rule R77). -/
def execWinstr (code : Byte) (s : State) : Host.Outcome State Fault Refusal :=
  answer (checkInit s) s ((instrWrite code s).replyFrame [])

/-- RDATAF: no format and no effect in the source (rule R78). -/
def execRdataf (_rest : List Byte) (_s : State) : Host.Outcome State Fault Refusal :=
  .refused (.frameNotInSource Config.opcRdataf)

/-- WDATAF: no format and no effect in the source (rule R78). -/
def execWdataf (_rest : List Byte) (_s : State) : Host.Outcome State Fault Refusal :=
  .refused (.frameNotInSource Config.opcWdataf)

end Sys2Proof.Machine
end

