-- ==== Sys2Proof/Machine/Handle.lean ====
section
/-! DEFINITION. The creation of the device handle (rule R120). -/

namespace Sys2Proof.Machine

/-- The handle as `construct` leaves it: `RAW` is a draw (rule R28), and no bus frame is issued. -/
def State.constructed (s : State) (sel : Byte) (offset : Distance) : State :=
  { s with
    sel := sel
    offset := offset
    status := Config.statusReset
    raw := Config.freeWord s.draws
    init := true
    draws := s.draws + 1 }

/-- `construct(selectLine, offset)` (rule R120). -/
def execConstruct (sel : Byte) (offset : Distance) (s : State) : Host.Outcome State Fault Refusal :=
  answer (checkConstruct s offset) s ((s.constructed sel offset).reply [])

end Sys2Proof.Machine
end

