-- ==== Sys2Proof/Machine/Registers.lean ====
section
/-! DEFINITION. The meanings of the host operations that are one frame each: readRegister, writeRegister,
writeInstruction, getVersion, getRevision (rules R74 to R76, R122, R123). -/

namespace Sys2Proof.Machine

/-- `readRegister(address, count)`: one RDATA frame, folded and zero-extended to 32 bits (rules R73, R74). -/
def execReadReg (address : Address) (count : Byte) (s : State) : Host.Outcome State Fault Refusal :=
  answer (checkReadReg s count) s
    ((memRead address count.toNat s).2.reply (bytesOfWord (foldBytes (memRead address count.toNat s).1)))

/-- `writeRegister(address, data)`: one WDATA frame (rule R75). -/
def execWriteReg (address : Address) (data : List Byte) (s : State) : Host.Outcome State Fault Refusal :=
  answer (checkWriteReg s data) s ((memWrite address data s).reply [])

/-- `writeInstruction(code)`: one WINSTR frame (rule R76). -/
def execWriteInstr (code : Byte) (s : State) : Host.Outcome State Fault Refusal :=
  answer (checkInit s) s ((instrWrite code s).reply [])

/-- `getVersion()`: one byte from 0xEB (rule R122). -/
def execGetVersion (s : State) : Host.Outcome State Fault Refusal :=
  answer (checkInit s) s ((memReadByte Config.addrVersion s).2.reply [(memReadByte Config.addrVersion s).1])

/-- `getRevision()`: one byte from 0xEA (rule R123). -/
def execGetRevision (s : State) : Host.Outcome State Fault Refusal :=
  answer (checkInit s) s ((memReadByte Config.addrRevision s).2.reply [(memReadByte Config.addrRevision s).1])

end Sys2Proof.Machine
end

