-- ==== Sys2Proof/Machine/Dispatch.lean ====
section
/-! DEFINITION. One arm per constructor of Instr: the bus frames of rule R52 and the host operations of rule R60. -/

namespace Sys2Proof.Machine

def exec (i : Instr) (s : State) : Host.Outcome State Fault Refusal :=
  match i with
  | .wdata address data => Sys2Proof.Machine.execWdata address data s
  | .rdata address count => Sys2Proof.Machine.execRdata address count s
  | .rstatus rest => Sys2Proof.Machine.execRstatus rest s
  | .winstr code => Sys2Proof.Machine.execWinstr code s
  | .rdataf rest => Sys2Proof.Machine.execRdataf rest s
  | .wdataf rest => Sys2Proof.Machine.execWdataf rest s
  | .construct sel offset => Sys2Proof.Machine.execConstruct sel offset s
  | .readReg address count => Sys2Proof.Machine.execReadReg address count s
  | .writeReg address data => Sys2Proof.Machine.execWriteReg address data s
  | .writeInstr code => Sys2Proof.Machine.execWriteInstr code s
  | .lock => Sys2Proof.Machine.execLock s
  | .unlock => Sys2Proof.Machine.execUnlock s
  | .classify code isValid prev => Sys2Proof.Machine.execClassify code isValid prev s
  | .getRaw => Sys2Proof.Machine.execGetRaw s
  | .toPhys raw offset => Sys2Proof.Machine.execToPhys raw offset s
  | .getPos => Sys2Proof.Machine.execGetPos s
  | .getStatus => Sys2Proof.Machine.execGetStatus s
  | .getVersion => Sys2Proof.Machine.execGetVersion s
  | .getRevision => Sys2Proof.Machine.execGetRevision s

end Sys2Proof.Machine
end

