-- ==== Sys2Proof/Machine/Run.lean ====
section
/-! DEFINITION. Taking the next input and running it to its end (rule R164): the place of a fetch in a machine that has
no program counter and fetches from no memory (rules R16, R45). -/

namespace Sys2Proof.Machine

/-- The state after the head of the inputs was taken. -/
def State.dropInput (s : State) : State := { s with pending := s.pending.tail }

/-- A host packet: decoded and run, or refused with nothing else changed (rules R63, R136). `INIT` is looked at only once
the packet has decoded: that a packet of the wrong length is refused `BadPacketLength` also where `NotConstructed` or
`AlreadyConstructed` holds is a DESIGN CHOICE (log entry 26), since rule R134 does not order the length check. -/
def runPacket (bytes : List Byte) (s : State) : Host.Outcome State Fault Refusal :=
  match decodePacket bytes with
  | .ok i => exec i s
  | .error why => .next (s.refuse why)

/-- A bare frame at the bus port: decoded and run; bytes that are no frame of the controller's are refused (U7),
whatever `INIT` is (DESIGN CHOICE, log entry 26). -/
def runFrame (bytes : List Byte) (s : State) : Host.Outcome State Fault Refusal :=
  match decodeFrame bytes with
  | .ok i => exec i s
  | .error why => .refused (.notAFrame why)

/-- One input, to its end. -/
def runInput (input : PortInput) (s : State) : Host.Outcome State Fault Refusal :=
  match input with
  | .packet bytes => runPacket bytes s
  | .frame bytes => runFrame bytes s
  | .controllerReset => .next s.controllerReset

/-- No input: the controller does nothing (rule R6) and the refresh agent may step (rules R38, R164). -/
def State.idle (s : State) : State := s.refreshPoint

/-- The port input that carries these bytes: the first byte tells the port (rule R60). -/
def inputOfBytes (bs : List Byte) : PortInput := if isBusOpcode (bs.getD 0 0#8) then .frame bs else .packet bs

end Sys2Proof.Machine
end

