-- ==== Sys2Proof/Machine/Step.lean ====
section
/-! DEFINITION. One step of a run: the next input is taken to its end before the one after it is looked at (rules R43,
R164). -/

namespace Sys2Proof.Machine

/-- One step. -/
def step (s : State) : Host.Outcome State Fault Refusal :=
  match s.pending with
  | [] => .next s.idle
  | input :: _ => runInput input s.dropInput

/-- The state with the instruction of an opcode-table word as the next input. -/
def State.withFetchWord (s : State) (nbits w : Nat) : State :=
  { s with pending := inputOfBytes (tableBytes nbits w) :: s.pending }

end Sys2Proof.Machine
end

