-- ==== Sys2Proof/Safety.lean ====
section
/-! DEFINITION. The terms in which statements speak of a run: the invariant of a state between two operations, and what
each frame looks like on the transport, written from the wire's own bytes (rules R50 to R54, R70) and not from the
model's constants. -/

namespace Sys2Proof.Machine

/-- What holds of the machine between operations: the register file is in its canonical form, the select line is
deasserted (rules R25, R79), `CONV_FAC` is finite and positive (rule R117), and a handle that exists has a finite offset
(rules R61, R120). -/
def Inv (s : State) : Prop :=
  Memory.wf s.rr = true ∧ s.select = false ∧ s.params.wf = true ∧ (s.init = true → finite32 s.offset = true)

/-- begin-transaction at 1 MHz, most-significant-bit first, mode 0, then select-assert (rule R70). -/
def openCalls (line : Byte) : List TransportCall := [.beginTransaction 1000000 .msbFirst .mode0, .selectLineSet line true]

/-- select-deassert, then end-transaction (rule R70). -/
def closeCalls (line : Byte) : List TransportCall := [.selectLineSet line false, .endTransaction]

/-- A byte the controller shifts out; the byte shifted in is ignored. -/
def sent (b : Byte) : TransportCall := .transferByte b none

/-- A byte the controller shifts in while it shifts out 0x00. -/
def received (b : Byte) : TransportCall := .transferByte 0x00#8 (some b)

/-- RDATA(a) with the bytes `bs` shifted in (00_scope.md section 5.6). -/
def rdataCalls (line : Byte) (a : Address) (bs : List Byte) : List TransportCall :=
  openCalls line ++ [sent 0x03#8, sent a] ++ bs.map received ++ closeCalls line

/-- WDATA(a) with the bytes `vs` shifted out. -/
def wdataCalls (line : Byte) (a : Address) (vs : List Byte) : List TransportCall :=
  openCalls line ++ [sent 0x02#8, sent a] ++ vs.map sent ++ closeCalls line

/-- WINSTR with the byte `c` shifted out. -/
def winstrCalls (line c : Byte) : List TransportCall := openCalls line ++ [sent 0x07#8, sent c] ++ closeCalls line

/-- The write-back of lock and unlock, by `LOCK_WRITE_FORM` (rule R80). -/
def writeBackCalls (form : LockWriteForm) (line c : Byte) : List TransportCall :=
  match form with
  | .instr => winstrCalls line c
  | .data => wdataCalls line 0xF4#8 [c]

/-- The bytes sent first after each select-assert: the opcode bytes of the frames of a trace (rule R52). -/
def opcodesOf : List TransportCall → List Byte
  | .selectLineSet _ true :: .transferByte out ins :: rest => out :: opcodesOf (.transferByte out ins :: rest)
  | _ :: rest => opcodesOf rest
  | [] => []

/-- The number of frames of a trace: its select-asserts. -/
def frameCount (calls : List TransportCall) : Nat :=
  calls.countP (fun c => match c with | .selectLineSet _ asserted => asserted | _ => false)

/-- The number of bytes on the wire. -/
def byteCount (calls : List TransportCall) : Nat :=
  calls.countP (fun c => match c with | .transferByte _ _ => true | _ => false)

/-- Where a reader of a trace stands: between frames, or in one of the parts of a frame. -/
inductive FramePhase where
  | idle
  | opened
  | selected
  | deselected
deriving DecidableEq, Repr

/-- Whether a trace, read on from a phase, ends between frames and is made of whole frames on one select line, one after
the other: begin, select-assert, transfers, select-deassert, end (rules R43, R70, R79). -/
def scanFrames (line : Byte) : FramePhase → List TransportCall → Bool
  | .idle, [] => true
  | .idle, .beginTransaction hz order mode :: rest =>
    hz == 1000000 && order == .msbFirst && mode == .mode0 && scanFrames line .opened rest
  | .opened, .selectLineSet l true :: rest => l == line && scanFrames line .selected rest
  | .selected, .transferByte _ _ :: rest => scanFrames line .selected rest
  | .selected, .selectLineSet l false :: rest => l == line && scanFrames line .deselected rest
  | .deselected, .endTransaction :: rest => scanFrames line .idle rest
  | _, _ => false

/-- A trace of whole frames. -/
def wholeFrames (line : Byte) (calls : List TransportCall) : Bool := scanFrames line .idle calls

/-! ### What an operation keeps -/

/-- The addresses of `n` data bytes of a frame from address `a` (rule R36). -/
def frameAddresses (a : Address) (n : Nat) : List Address := (List.range n).map (fun i => a + BitVec.ofNat 8 i)

/-- No refresh step of an operation that does not unlock the bank can touch this register: the bank is locked, or the
register is outside `FROZEN_SET` (rules R38, R39, R41). -/
def Safe (s : State) (a : Address) : Prop := s.locked = true ∨ a ∉ s.params.frozenSet

/-- Reading this register gives what the register file holds when the operation starts: it is safe from refresh steps
and its reads are no draws (rule R41). -/
def Steady (s : State) (a : Address) : Prop := Safe s a ∧ a ∉ s.params.volatileSet

/-- The refresh agent makes no step at the next `n` points at which it may step. -/
def Quiet (s : State) (n : Nat) : Prop := ∃ rest, s.moves = List.replicate n none ++ rest

/-- Everything the controller and its launch hold, but for the handle's two poll registers, the select line, the
register file, the answers, the bus trace and the refresh agent's side. -/
def SameSetup (s t : State) : Prop :=
  t.sel = s.sel ∧ t.offset = s.offset ∧ t.init = s.init ∧ t.params = s.params ∧ t.pending = s.pending

/-- `SameSetup`, and the two poll registers unchanged too (rule R27). -/
def SameHandle (s t : State) : Prop := SameSetup s t ∧ t.raw = s.raw ∧ t.status = s.status

/-- Nothing has happened on the bus side: no call on the transport, no register changed, the select line and the refresh
agent's moves as before. -/
def SameBus (s t : State) : Prop := t.bus = s.bus ∧ t.rr = s.rr ∧ t.select = s.select ∧ t.moves = s.moves

/-- No register changed but by a refresh step. -/
def RegistersKept (s t : State) : Prop :=
  (s.locked = true → t.rr = s.rr) ∧ ∀ x : Address, Safe s x → Memory.read t.rr x.toNat = Memory.read s.rr x.toNat

/-- The bytes of a read-modify-write of the instruction register, each with the point before it at which the refresh
agent may step: three of the read frame, and two of a WINSTR or three of a WDATA write-back (rule R80). -/
def maskPoints (form : LockWriteForm) : Nat :=
  match form with
  | .instr => 5
  | .data => 6

/-! ### What the frames do, from one state to another -/

/-- One RDATA frame that shifted in `bs` (rules R36, R37, R71): its bytes on the wire, where each byte comes from (what the
register held when the operation started, where no refresh step can come in between or none does), and no register
changed but by a refresh step. -/
def ReadEffect (s t : State) (a : Address) (bs : List Byte) : Prop :=
  t.bus = s.bus ++ rdataCalls s.sel a bs ∧
  (∀ i < bs.length, Safe s (a + BitVec.ofNat 8 i) ∨ Quiet s (2 + bs.length) →
    a + BitVec.ofNat 8 i ∉ s.params.volatileSet →
    bs.getD i 0#8 = Memory.read s.rr (a + BitVec.ofNat 8 i).toNat) ∧
  RegistersKept s t ∧ (Quiet s (2 + bs.length) → t.rr = s.rr)

/-- Whether a register keeps what it has during a WDATA frame of `n` bytes from address `a`, once its own byte has been
transferred or if it has none: no refresh step touches it, since it is outside `FROZEN_SET`, or the bank is locked and
the frame does not address the instruction register. -/
def SafeInWrite (s : State) (a : Address) (n : Nat) (x : Address) : Prop :=
  x ∉ s.params.frozenSet ∨ (s.locked = true ∧ 0xF4#8 ∉ frameAddresses a n)

/-- One WDATA frame that shifted out `data` (rules R36, R37, R72): its bytes on the wire; the byte of the last transfer
stands and so does every byte that no refresh step overwrites; every register outside the frame's addresses is as
before, but for a refresh step. -/
def WriteEffect (s t : State) (a : Address) (data : List Byte) : Prop :=
  t.bus = s.bus ++ wdataCalls s.sel a data ∧
  (∀ i < data.length,
    i + 1 = data.length ∨ SafeInWrite s a data.length (a + BitVec.ofNat 8 i) ∨ Quiet s (2 + data.length) →
    Memory.read t.rr (a + BitVec.ofNat 8 i).toNat = data.getD i 0#8) ∧
  (∀ x : Address, x ∉ frameAddresses a data.length → SafeInWrite s a data.length x ∨ Quiet s (2 + data.length) →
    Memory.read t.rr x.toNat = Memory.read s.rr x.toNat)

/-- One WINSTR frame that shifted out `c` (rules R37, R77): the instruction register holds the whole byte, and every other
register is as before. -/
def InstrEffect (s t : State) (c : Byte) : Prop :=
  t.bus = s.bus ++ winstrCalls s.sel c ∧
  Memory.read t.rr 0xF4 = c ∧
  ∀ x : Address, x ≠ 0xF4#8 → Safe s x ∨ Quiet s 2 → Memory.read t.rr x.toNat = Memory.read s.rr x.toNat

/-- One read-modify-write of the instruction register that read `iv` and wrote back `new` (rule R80). -/
def MaskEffect (s t : State) (iv new : Byte) : Prop :=
  t.bus = s.bus ++ rdataCalls s.sel 0xF4#8 [iv] ++ writeBackCalls s.params.lockWriteForm s.sel new ∧
  (Safe s 0xF4#8 ∨ Quiet s 3 → 0xF4#8 ∉ s.params.volatileSet → iv = Memory.read s.rr 0xF4) ∧
  Memory.read t.rr 0xF4 = new ∧
  ∀ x : Address, x ≠ 0xF4#8 → Safe s x ∨ Quiet s (maskPoints s.params.lockWriteForm) →
    Memory.read t.rr x.toNat = Memory.read s.rr x.toNat

/-- The ten frames of a poll (rule R100), with the bytes they shifted in. -/
def pollCalls (form : LockWriteForm) (line iv b0 b1 b2 b3 esc val uv : Byte) : List TransportCall :=
  rdataCalls line 0xF4#8 [iv] ++ writeBackCalls form line (iv ||| 0x40#8) ++
    rdataCalls line 0x00#8 [b0] ++ rdataCalls line 0x01#8 [b1] ++ rdataCalls line 0x02#8 [b2] ++
    rdataCalls line 0x03#8 [b3] ++ rdataCalls line 0xF0#8 [esc] ++ rdataCalls line 0xF1#8 [val] ++
    rdataCalls line 0xF4#8 [uv] ++ writeBackCalls form line (uv &&& 0xBF#8)

/-- One poll (rules R100 to R106). `m` is the register file that the lock froze. The ten frames are on the bus; each of
the six sample, status and validity bytes is that of `m`, and the instruction byte read by the unlock is what the lock
wrote, unless the register is one of `VOLATILE_SET`; the status is the classification of the two bytes and the old
status; the candidate is committed exactly when the new status is `no_errors`; the instruction register ends unlocked
and every other register is that of `m`, which is as before the poll where no refresh step can come before the lock or
none does. -/
def PollEffect (s t : State) : Prop :=
  ∃ (m : Memory) (iv b0 b1 b2 b3 esc val uv : Byte) (noMatch : Status),
    t.bus = s.bus ++ pollCalls s.params.lockWriteForm s.sel iv b0 b1 b2 b3 esc val uv ∧
    (0x00#8 ∉ s.params.volatileSet → b0 = Memory.read m 0x00) ∧
    (0x01#8 ∉ s.params.volatileSet → b1 = Memory.read m 0x01) ∧
    (0x02#8 ∉ s.params.volatileSet → b2 = Memory.read m 0x02) ∧
    (0x03#8 ∉ s.params.volatileSet → b3 = Memory.read m 0x03) ∧
    (0xF0#8 ∉ s.params.volatileSet → esc = Memory.read m 0xF0) ∧
    (0xF1#8 ∉ s.params.volatileSet → val = Memory.read m 0xF1) ∧
    (0xF4#8 ∉ s.params.volatileSet → uv = iv ||| 0x40#8) ∧
    (Safe s 0xF4#8 ∨ Quiet s 3 → 0xF4#8 ∉ s.params.volatileSet → iv = Memory.read s.rr 0xF4) ∧
    (s.params.noMatch = .hold → noMatch = s.status) ∧
    t.status = classify s.params.alarmRecovery noMatch esc (val == 2#8) s.status ∧
    t.raw = (if t.status = .noErrors then ((b3 ++ b2 ++ b1 ++ b0) >>> 2) &&& 0x03FFFFFF#32 else s.raw) ∧
    Memory.read t.rr 0xF4 = uv &&& 0xBF#8 ∧
    (∀ x : Address, x ≠ 0xF4#8 → Memory.read t.rr x.toNat = Memory.read m x.toNat) ∧
    (∀ x : Address, x ≠ 0xF4#8 → Safe s x ∨ Quiet s (maskPoints s.params.lockWriteForm) →
      Memory.read m x.toNat = Memory.read s.rr x.toNat)

end Sys2Proof.Machine
end

