-- ==== Sys2Proof/Certificates/Slice0/Obligations.lean ====
section
/-! DEFINITION. The statements for the provers, in the order of OBLIGATIONS.json. Where a statement rests on one of the
spec's own decisions (D<n> of 92_eei_decisions.md) or on one of its inferences, its docstring says so. The predicates
they are written with (`ReadEffect`, `WriteEffect`, `PollEffect`, ...) are in Safety.lean, spelled out from the wire's
own bytes. -/

open Sys2Proof Sys2Proof.Machine

/-! ### Encodings -/

/-- Words that the spec gives decode to the operations it gives them for. Packets: 95_test_vectors.md V1, V10, V23, V42,
V70, P1 and P6 write them out, and `writeInstruction(0x40)` of V13 has the code of the table of 30_encoding.md section 2
before its operand. Frames: V2, V9 and P1. -/
def Obligations.SpecWordsDecode : Prop :=
  decodePacket [0x81#8, 0xC2#8, 0x02#8] = .ok (.readReg 0xC2#8 2#8) ∧
  decodePacket [0x82#8, 0xC2#8, 0x02#8, 0x12#8, 0x34#8] = .ok (.writeReg 0xC2#8 [0x12#8, 0x34#8]) ∧
  decodePacket [0x83#8, 0x40#8] = .ok (.writeInstr 0x40#8) ∧
  decodePacket [0x84#8] = .ok .lock ∧
  decodePacket [0x87#8] = .ok .getRaw ∧
  decodePacket [0x86#8, 0x02#8, 0x01#8, 0x00#8] = .ok (.classify 2#8 1#8 0#8) ∧
  decodePacket [0x88#8, 0x00#8, 0xC8#8, 0x00#8, 0x00#8, 0x3F#8, 0xC0#8, 0x00#8, 0x00#8]
    = .ok (.toPhys 13107200#32 0x3FC00000#32) ∧
  decodePacket [0x80#8, 0x0A#8, 0x00#8, 0x00#8, 0x00#8, 0x00#8] = .ok (.construct 10#8 0#32) ∧
  decodeFrame [0x03#8, 0xF4#8, 0x00#8] = .ok (.rdata 0xF4#8 1) ∧
  decodeFrame [0x02#8, 0xC0#8, 0x01#8] = .ok (.wdata 0xC0#8 [0x01#8]) ∧
  decodeFrame [0x07#8, 0x61#8] = .ok (.winstr 0x61#8)

/-- Decoding an encoded well-formed instruction gives it back, at its own port. -/
def Obligations.DecodeOfEncode : Prop :=
  ∀ i : Instr, wellFormed i = true →
    if i.isFrame = true then decodeFrame (encode i) = .ok i else decodePacket (encode i) = .ok i

/-- The other direction: what decodes is the encoding of what it decodes to, byte for byte, so no two packets and no two
frames mean the same instruction; a decoded frame is well formed. -/
def Obligations.EncodeOfDecode : Prop :=
  (∀ (p : List Byte) (i : Instr), decodePacket p = .ok i → encode i = p ∧ i.isFrame = false) ∧
  (∀ (f : List Byte) (i : Instr), decodeFrame f = .ok i → encode i = f ∧ i.isFrame = true ∧ wellFormed i = true)

/-- Which host packets decode (decision D2): the command byte is one of 0x80 to 0x8C, and the number of operand bytes is
the one its command defines, for WRITEREG the one its `len` byte defines. Every other packet is refused, by
`UnknownCommand` exactly when it has a command byte outside 0x80 to 0x8C, and otherwise by `BadPacketLength`. That a
packet of no byte is refused as too short is the model's own choice (log entry 9). -/
def Obligations.PacketsThatDecode : Prop :=
  decodePacket [] = .error .badPacketLength ∧
  ∀ (c : Byte) (rest : List Byte),
    if c.toNat < 0x80 ∨ 0x8C < c.toNat then decodePacket (c :: rest) = .error .unknownCommand
    else if (c.toNat = 0x80 ∧ rest.length = 5) ∨ (c.toNat = 0x81 ∧ rest.length = 2) ∨
        (c.toNat = 0x82 ∧ 2 ≤ rest.length ∧ rest.length = 2 + (rest.getD 1 0#8).toNat) ∨
        (c.toNat = 0x83 ∧ rest.length = 1) ∨ (c.toNat = 0x84 ∧ rest = []) ∨ (c.toNat = 0x85 ∧ rest = []) ∨
        (c.toNat = 0x86 ∧ rest.length = 3) ∨ (c.toNat = 0x87 ∧ rest = []) ∨ (c.toNat = 0x88 ∧ rest.length = 8) ∨
        (0x89 ≤ c.toNat ∧ rest = []) then
      ∃ i : Instr, decodePacket (c :: rest) = .ok i
    else decodePacket (c :: rest) = .error .badPacketLength

/-- Which bytes on the bus are a frame (rules R50 to R56; the bounds on the number of data bytes are decision D11, the
fill byte decision D8): 0x02 with an address and 1 to 255 bytes, 0x03 with an address and 1 to 4 fill bytes, 0x07 with
one byte and no address, and the three opcodes without a format in the source. -/
def Obligations.FramesThatDecode : Prop :=
  ∀ (o : Byte) (rest : List Byte), (∃ i : Instr, decodeFrame (o :: rest) = .ok i) ↔
    (o = 0x02#8 ∧ 2 ≤ rest.length ∧ rest.length ≤ 256) ∨
    (o = 0x03#8 ∧ 2 ≤ rest.length ∧ rest.length ≤ 5 ∧ ∀ b ∈ rest.tail, b = 0x00#8) ∨
    (o = 0x07#8 ∧ rest.length = 1) ∨ o = 0x05#8 ∨ o = 0x09#8 ∨ o = 0x0B#8

/-! ### Steps and reset -/

/-- A step takes the next input and runs the instruction its bytes decode to, at its own port, with nothing added but
that the input is no longer pending. The list of packets is the launch's (decision D40; log entry 13); that a bare frame
can be an input is the model's own choice of a bus port (log entry 12). -/
def Obligations.StepRunsTheDecodedInstruction : Prop :=
  ∀ (s : State) (bytes : List Byte) (rest : List PortInput) (i : Instr),
    (s.pending = .packet bytes :: rest → decodePacket bytes = .ok i → step s = exec i { s with pending := rest }) ∧
    (s.pending = .frame bytes :: rest → decodeFrame bytes = .ok i → step s = exec i { s with pending := rest })

/-- A step on a packet that does not decode refuses it: the answer names the reason and nothing else changes, so the next
packet is accepted as if the refused one had never been sent (decisions D2, D29). That a refusal is a next state with an
answer is the model's own reading (log entry 3), and that a wrong length is named before a missing or second handle is
its own choice (log entry 26). -/
def Obligations.UndecodedPacketIsRefused : Prop :=
  ∀ (s : State) (bytes : List Byte) (rest : List PortInput) (why : PacketRefusal),
    s.pending = .packet bytes :: rest → decodePacket bytes = .error why →
      step s = .next { s with pending := rest, responses := s.responses ++ [.refused why] }

/-- A step on bytes at the bus port that are no frame of the controller's stops and names why (decisions D11, D30; U7 of
93_implementation_defined.md). The bus port is the model's own (log entry 12), and so are the names (log entry 23)
and that they are given whatever `INIT` is (log entry 26). -/
def Obligations.UndecodedFrameStops : Prop :=
  ∀ (s : State) (bytes : List Byte) (rest : List PortInput) (why : FrameError),
    s.pending = .frame bytes :: rest → decodeFrame bytes = .error why → step s = .refused (.notAFrame why)

/-- A point at which the refresh agent may step (decisions D17, D18). It takes exactly one move. Where that is a snapshot
and the bank is unlocked, every register of `FROZEN_SET` is replaced by the snapshot's, all at once, and no other
register changes; while the bank is locked, or where the move is none, the register file is as before. Where the launch
supplies no more moves the agent's move is free, so no more is said than that no register changes but by a refresh step.
The controller's side is as before. The list of moves is the model's own (log entries 4 and 5). -/
def Obligations.RefreshReplacesTheSnapshot : Prop :=
  ∀ s : State,
    (∀ (move : Option Memory) (rest : List (Option Memory)), s.moves = move :: rest →
      s.refreshPoint.moves = rest ∧
      (∀ x : Address, Memory.read s.refreshPoint.rr x.toNat =
        match move with
        | some snapshot =>
          if s.locked = false ∧ x ∈ s.params.frozenSet then Memory.read snapshot x.toNat else Memory.read s.rr x.toNat
        | none => Memory.read s.rr x.toNat) ∧
      (move = none ∨ s.locked = true → s.refreshPoint.rr = s.rr)) ∧
    (s.moves = [] → s.refreshPoint.moves = [] ∧ RegistersKept s s.refreshPoint) ∧
    SameHandle s s.refreshPoint ∧ s.refreshPoint.bus = s.bus ∧ s.refreshPoint.select = s.select ∧
    s.refreshPoint.responses = s.responses

/-- A step with no input (the agent goes on after the controller has stopped, decision D40): the controller does nothing,
and the step is one point at which the refresh agent may step, which takes exactly one move. So only registers of
`FROZEN_SET` can change, and none of them while the bank is locked. That such a step exists is the model's own choice (log
entry 15). -/
def Obligations.IdleStepLeavesTheController : Prop :=
  ∀ s : State, s.pending = [] → ∃ t : State, step s = .next t ∧ t.rr = s.refreshPoint.rr ∧ t.moves = s.moves.tail ∧
    SameHandle s t ∧ RegistersKept s t ∧ t.bus = s.bus ∧ t.select = s.select ∧ t.responses = s.responses

/-- A reset of the controller between two operations (decision D20): `INIT` is 0, the select line deasserted, no frame is
sent, and the remote chip keeps every register, the lock bit among them. That a reset is one of the inputs is the model's
own (log entry 16), and so is what it does between a host's `lock` and its `unlock` (log entry 27). -/
def Obligations.ControllerResetKeepsTheChip : Prop :=
  ∀ (s : State) (rest : List PortInput), s.pending = .controllerReset :: rest →
    ∃ t : State, step s = .next t ∧ t.init = false ∧ t.select = false ∧ t.rr = s.rr ∧ t.bus = s.bus ∧
      t.responses = s.responses ∧ t.params = s.params ∧ t.pending = rest ∧ t.moves = s.moves

/-- Reset (decision D20): `INIT` is 0, the select line deasserted, no frame sent; and the parameters have their decided
values. The rest is the model's own: the register file that lists nothing is its choice of a launch (log entry 1), and so
are the list of inputs and the lists of answers and calls, all three empty there (log entries 13 and 25). -/
def Obligations.ResetState : Prop :=
  State.reset.init = false ∧ State.reset.select = false ∧ State.reset.bus = [] ∧ State.reset.responses = [] ∧
  State.reset.pending = [] ∧ State.reset.rr = [] ∧
  State.reset.params.lockWriteForm = .instr ∧ State.reset.params.alarmRecovery = .rule4 ∧
  State.reset.params.noMatch = .hold ∧ State.reset.params.volatileSet = [] ∧
  State.reset.params.frozenSet = [0#8, 1#8, 2#8, 3#8, 4#8, 5#8, 6#8, 7#8, 0xF0#8, 0xF1#8]

/-- The invariant holds at reset. -/
def Obligations.InvariantAtReset : Prop := Inv State.reset

/-- Every step keeps the invariant: the register file stays in its canonical form with every address below 256, the
select line is deasserted between operations, `CONV_FAC` stays finite and positive, and the offset of a handle that
exists stays finite. -/
def Obligations.InvariantKeptByEveryStep : Prop :=
  ∀ s t : State, Inv s → step s = .next t → Inv t

/-- A step takes at most one input, gives at most one answer, never takes an answer or a call on the transport back, and
never changes a parameter; and on a host packet it always goes on to a next state with exactly one answer. The lists of
inputs, answers and calls are the model's record of a run (log entry 25), a refusal is an answer (log entry 3). -/
def Obligations.StepTakesOneInput : Prop :=
  (∀ s t : State, step s = .next t → t.pending = s.pending.tail ∧ t.params = s.params ∧ s.bus <+: t.bus ∧
    (t.responses = s.responses ∨ ∃ r : Response, t.responses = s.responses ++ [r])) ∧
  (∀ (s : State) (bytes : List Byte) (rest : List PortInput), s.pending = .packet bytes :: rest →
    ∃ (t : State) (r : Response), step s = .next t ∧ t.responses = s.responses ++ [r])

/-! ### Bus frames -/

/-- WDATA as a bare frame at the bus port (the model's own port, log entry 12) completes with a handle: the frame is on the bus, its bytes
are in the registers it addresses, one after the other modulo 256 (decision D7), and neither the handle nor, but for
refresh steps, any other register changes. -/
def Obligations.WdataResult : Prop :=
  ∀ (a : Address) (data : List Byte) (s : State), s.init = true → 1 ≤ data.length → data.length ≤ 255 →
    ∃ t : State, exec (.wdata a data) s = .next t ∧ WriteEffect s t a data ∧ SameHandle s t ∧ t.select = false ∧
      t.responses = s.responses ++ [.frameBytes []]

/-- RDATA as a bare frame (log entry 12) completes with a handle: the frame is on the bus with the bytes it shifted in, each from the
register of its address modulo 256 (decision D7), the fill byte 0x00 shifted out (decision D8), and neither the handle
nor, but for refresh steps, any register changes. -/
def Obligations.RdataResult : Prop :=
  ∀ (a : Address) (count : Nat) (s : State), s.init = true → 1 ≤ count → count ≤ 4 →
    ∃ (t : State) (bs : List Byte), exec (.rdata a count) s = .next t ∧ bs.length = count ∧ ReadEffect s t a bs ∧
      SameHandle s t ∧ t.select = false ∧ t.responses = s.responses ++ [.frameBytes bs]

/-- WINSTR as a bare frame (log entry 12) completes with a handle: no address byte on the wire, the whole byte in the instruction
register (decision D6), and neither the handle nor, but for refresh steps, any other register changes. -/
def Obligations.WinstrResult : Prop :=
  ∀ (c : Byte) (s : State), s.init = true → ∃ t : State, exec (.winstr c) s = .next t ∧ InstrEffect s t c ∧ SameHandle s t ∧
    t.select = false ∧ t.responses = s.responses ++ [.frameBytes []]

/-- The three opcodes to which the source gives neither format nor effect stop by name (decision D30, U7), and so do WDATA
and RDATA with a number of data bytes outside the bounds of decision D11 (the model's own names, log entry 23),
whatever `INIT` is (log entry 26). -/
def Obligations.FramesWithoutMeaningStop : Prop :=
  ∀ (rest : List Byte) (a : Address) (data : List Byte) (n : Nat) (s : State),
    exec (.rstatus rest) s = .refused (.frameNotInSource 0x05#8) ∧
    exec (.rdataf rest) s = .refused (.frameNotInSource 0x09#8) ∧
    exec (.wdataf rest) s = .refused (.frameNotInSource 0x0B#8) ∧
    ((data.length = 0 ∨ 255 < data.length) → exec (.wdata a data) s = .refused .frameLength) ∧
    ((n = 0 ∨ 4 < n) → exec (.rdata a n) s = .refused .frameLength)

/-! ### Register access by the host -/

/-- `readRegister` completes with a handle and a count of 1 to 4 (decision D11): one RDATA frame, and the result is the
bytes shifted in, the first the most significant, widened with zeros to 32 bits and sent most significant byte first
(decision D2). -/
def Obligations.ReadRegisterResult : Prop :=
  ∀ (a : Address) (count : Byte) (s : State), s.init = true → 1 ≤ count.toNat → count.toNat ≤ 4 →
    ∃ (t : State) (bs : List Byte), exec (.readReg a count) s = .next t ∧ bs.length = count.toNat ∧
      ReadEffect s t a bs ∧ SameHandle s t ∧ t.select = false ∧
      t.responses = s.responses ++ [.result (List.replicate (4 - bs.length) 0x00#8 ++ bs)]

/-- The read fold: the first byte received is the most significant, and for up to four bytes nothing is lost. -/
def Obligations.FoldIsMostSignificantFirst : Prop :=
  ∀ (bs : List Byte), bs.length ≤ 4 →
    (foldBytes bs).toNat = bs.foldl (fun acc b => acc * 256 + b.toNat) 0 ∧ (foldBytes bs).toNat < 256 ^ bs.length

/-- `writeRegister` completes with a handle and 1 to 255 bytes (decision D11): one WDATA frame, the bytes in list order,
an empty result. -/
def Obligations.WriteRegisterResult : Prop :=
  ∀ (a : Address) (data : List Byte) (s : State), s.init = true → 1 ≤ data.length → data.length ≤ 255 →
    ∃ t : State, exec (.writeReg a data) s = .next t ∧ WriteEffect s t a data ∧ SameHandle s t ∧ t.select = false ∧
      t.responses = s.responses ++ [.result []]

/-- `writeInstruction` completes with a handle: one WINSTR frame, an empty result. -/
def Obligations.WriteInstructionResult : Prop :=
  ∀ (c : Byte) (s : State), s.init = true → ∃ t : State, exec (.writeInstr c) s = .next t ∧ InstrEffect s t c ∧
    SameHandle s t ∧ t.select = false ∧ t.responses = s.responses ++ [.result []]

/-- `getVersion` and `getRevision` complete with a handle: one single-byte RDATA frame at 0xEB or 0xEA, and the raw byte
is the result (decision D28). -/
def Obligations.VersionAndRevisionResult : Prop :=
  ∀ s : State, s.init = true →
    (∃ (t : State) (b : Byte), exec .getVersion s = .next t ∧ ReadEffect s t 0xEB#8 [b] ∧ SameHandle s t ∧
      t.select = false ∧ t.responses = s.responses ++ [.result [b]]) ∧
    (∃ (t : State) (b : Byte), exec .getRevision s = .next t ∧ ReadEffect s t 0xEA#8 [b] ∧ SameHandle s t ∧
      t.select = false ∧ t.responses = s.responses ++ [.result [b]])

/-! ### The bank lock -/

/-- `lock` completes with a handle: the instruction register is read and written back with bit 6 set and the seven other
bits as read, by the frame that `LOCK_WRITE_FORM` names (decision D5); the bank is locked, and neither the handle nor, but
for refresh steps, any other register changes. -/
def Obligations.LockResult : Prop :=
  ∀ s : State, s.init = true → ∃ (t : State) (iv : Byte), exec .lock s = .next t ∧ MaskEffect s t iv (iv ||| 0x40#8) ∧
    t.locked = true ∧ SameHandle s t ∧ t.select = false ∧ t.responses = s.responses ++ [.result []]

/-- `unlock` completes with a handle: the same with bit 6 cleared, and the bank is unlocked. -/
def Obligations.UnlockResult : Prop :=
  ∀ s : State, s.init = true → ∃ (t : State) (iv : Byte), exec .unlock s = .next t ∧ MaskEffect s t iv (iv &&& 0xBF#8) ∧
    t.locked = false ∧ SameHandle s t ∧ t.select = false ∧ t.responses = s.responses ++ [.result []]

/-- While the bank is locked no refresh step occurs: a point at which the refresh agent may step leaves the register file
as it is, whatever the agent would do, and so does every operation that writes no register; any number of reads of a
register that is no draw give one and the same byte. -/
def Obligations.LockFreezesTheBank : Prop :=
  ∀ s : State, s.locked = true →
    (∀ move : Option Memory, moved s move = s.rr) ∧ s.refreshPoint.rr = s.rr ∧
    (∀ (i : Instr) (t : State), exec i s = .next t →
      ((∃ a n, i = .rdata a n) ∨ (∃ a n, i = .readReg a n) ∨ i = .getVersion ∨ i = .getRevision ∨ i = .getStatus ∨
        (∃ c v p, i = .classify c v p) ∨ (∃ r o, i = .toPhys r o) ∨ (∃ l o, i = .construct l o)) →
      t.rr = s.rr) ∧
    (∀ (a : Address) (count : Byte) (t u : State), s.init = true → 1 ≤ count.toNat → count.toNat ≤ 4 →
      (∀ i < count.toNat, a + BitVec.ofNat 8 i ∉ s.params.volatileSet) →
      exec (.readReg a count) s = .next t → exec (.readReg a count) t = .next u →
      u.responses.getLast? = t.responses.getLast?)

/-- Nothing breaks a lock but a write of 0xF4 with bit 6 clear: by `unlock`, by a poll's own unlock, by
`writeInstruction` or WINSTR of such a byte, or by a `writeRegister` or WDATA that carries such a byte to 0xF4. -/
def Obligations.OnlyAWriteOfF4Unlocks : Prop :=
  ∀ (i : Instr) (s t : State), s.locked = true → exec i s = .next t → t.locked = false →
    i = .unlock ∨ i = .getRaw ∨ i = .getPos ∨
    (∃ c : Byte, (i = .writeInstr c ∨ i = .winstr c) ∧ c.getLsbD 6 = false) ∨
    (∃ (a : Address) (data : List Byte) (k : Nat), (i = .writeReg a data ∨ i = .wdata a data) ∧ k < data.length ∧
      a + BitVec.ofNat 8 k = 0xF4#8 ∧ (data.getD k 0#8).getLsbD 6 = false)

/-- Locks do not nest: two locks and one unlock leave the bank unlocked, and so does a poll inside a host's own lock
(an inference of the spec's, 41_bank_lock.md). -/
def Obligations.LocksDoNotNest : Prop :=
  ∀ s a b c d : State, s.init = true → exec .lock s = .next a → exec .lock a = .next b → exec .unlock b = .next c →
    exec .getRaw b = .next d → a.locked = true ∧ b.locked = true ∧ c.locked = false ∧ d.locked = false

/-- A multi-byte read of the unlocked bank can be torn: there is a state and a refresh step between two bytes of one
frame for which the result mixes the two snapshots (95_test_vectors.md, program P5). -/
def Obligations.UnlockedReadCanTear : Prop :=
  ∃ s t : State, s.init = true ∧ s.locked = false ∧
    (∀ i, i < 4 → Memory.read s.rr i = [0xFC#8, 0xFF#8, 0x00#8, 0x00#8].getD i 0#8) ∧
    (∃ snap : Memory, s.moves = [none, none, none, none, some snap, none] ∧
      ∀ i, i < 4 → Memory.read snap i = [0x00#8, 0x00#8, 0x01#8, 0x00#8].getD i 0#8) ∧
    exec (.readReg 0#8 4#8) s = .next t ∧
    t.responses = s.responses ++ [.result [0xFC#8, 0xFF#8, 0x01#8, 0x00#8]]

/-! ### The classifier -/

/-- Rules 2 to 5 of the precedence, for a previous status other than `encoder_alarm`, and for `encoder_alarm` when rule 1
does not fire. Rule 5 is the only one that can set the alarm. `noMatch` is the answer when no rule matches. -/
def Obligations.ClassifierRules2To5 : Prop :=
  ∀ (rec : AlarmRecovery) (noMatch p : Status) (c : Byte) (v : Bool),
    (p ≠ .encoderAlarm ∨ (rec = .rule4 ∧ v = true ∧ c = 1#8)) →
    (c = 0#8 ∧ v = true → classify rec noMatch c v p = .noErrors) ∧
    (v = false → classify rec noMatch c v p = .invalidCrc) ∧
    (c = 1#8 ∧ v = true → classify rec noMatch c v p = .encoderWarning) ∧
    (c = 2#8 ∧ v = true → classify rec noMatch c v p = .encoderAlarm) ∧
    (3 ≤ c.toNat ∧ v = true → classify rec noMatch c v p = noMatch) ∧
    (noMatch = p → classify rec noMatch c v p = .encoderAlarm → c = 2#8 ∧ v = true)

/-- Rule 1 (decision D15, both values of `ALARM_RECOVERY`): a latched alarm persists but for the one input, a valid
reading with code 1 under `rule4`, which gives `encoder_warning`. -/
def Obligations.AlarmIsSticky : Prop :=
  ∀ (rec : AlarmRecovery) (noMatch : Status) (c : Byte) (v : Bool),
    classify rec noMatch c v .encoderAlarm =
      if rec = .rule4 ∧ v = true ∧ c = 1#8 then .encoderWarning else .encoderAlarm

/-- `classify` completes as a host operation on every operand in range, with or without a handle (decisions D2, D3): the
answer is the status code of the classification, the no-match answer being the previous status under `hold`, and
neither the handle nor the bus side changes. -/
def Obligations.ClassifyResult : Prop :=
  ∀ (c isValid prev : Byte) (s : State), isValid.toNat ≤ 1 → prev.toNat ≤ 3 →
    ∃ (t : State) (p noMatch : Status), exec (.classify c isValid prev) s = .next t ∧ SameHandle s t ∧ SameBus s t ∧
      p = [Status.noErrors, .invalidCrc, .encoderWarning, .encoderAlarm].getD prev.toNat .noErrors ∧
      (s.params.noMatch = .hold → noMatch = p) ∧
      t.responses = s.responses ++ [.result [match classify s.params.alarmRecovery noMatch c (isValid == 1#8) p with
        | .noErrors => 0#8 | .invalidCrc => 1#8 | .encoderWarning => 2#8 | .encoderAlarm => 3#8]]

/-- The latched alarm, over every instruction (an inference of the spec's, 43_position_pipeline.md): from `encoder_alarm`
no operation but `construct` gives another status than `encoder_warning`, that one only under `rule4`, and none of them
changes `RAW`. -/
def Obligations.AlarmHoldsRaw : Prop :=
  ∀ (i : Instr) (s t : State), s.status = .encoderAlarm → (∀ l o, i ≠ .construct l o) → exec i s = .next t →
    t.raw = s.raw ∧ (t.status = .encoderAlarm ∨ (s.params.alarmRecovery = .rule4 ∧ t.status = .encoderWarning))

/-! ### The position pipeline -/

/-- `getRawPosition` completes with a handle: the ten frames of rule R100, the status overwritten, the candidate
committed or the old value kept, the bank unlocked, and the result is `RAW` as it then stands. The addresses of the
status and validity bytes, the frames of the lock and the order of the two reads are decisions D5, D12 to D14. -/
def Obligations.GetRawResult : Prop :=
  ∀ s : State, s.init = true → ∃ t : State, exec .getRaw s = .next t ∧ PollEffect s t ∧ SameSetup s t ∧
    t.select = false ∧
    t.responses = s.responses ++ [.result [t.raw.extractLsb' 24 8, t.raw.extractLsb' 16 8, t.raw.extractLsb' 8 8,
      t.raw.extractLsb' 0 8]]

/-- The composite: four single-byte read frames of 0x00 to 0x03, and the register at the lowest address is the least
significant byte. -/
def Obligations.CompositeIsLeastSignificantFirst : Prop :=
  (∀ b0 b1 b2 b3 : Byte, (packSample [b0, b1, b2, b3]).toNat
    = b0.toNat + b1.toNat * 2 ^ 8 + b2.toNat * 2 ^ 16 + b3.toNat * 2 ^ 24) ∧
  ∀ s : State, ∃ b0 b1 b2 b3 : Byte, (readComposite s).1 = packSample [b0, b1, b2, b3] ∧
    (readComposite s).2.bus = s.bus ++ rdataCalls s.sel 0x00#8 [b0] ++ rdataCalls s.sel 0x01#8 [b1] ++
      rdataCalls s.sel 0x02#8 [b2] ++ rdataCalls s.sel 0x03#8 [b3] ∧
    (Steady s 0#8 → b0 = Memory.read s.rr 0) ∧ (Steady s 1#8 → b1 = Memory.read s.rr 1) ∧
    (Steady s 2#8 → b2 = Memory.read s.rr 2) ∧ (Steady s 3#8 → b3 = Memory.read s.rr 3)

/-- The candidate: `READING[27:2]`, widened with zeros. -/
def Obligations.CandidateIsBits27To2 : Prop :=
  ∀ reading : Word, candidate reading = (reading.extractLsb' 2 26).zeroExtend 32 ∧
    (candidate reading).toNat = reading.toNat / 4 % 2 ^ 26 ∧ (candidate reading).toNat < 2 ^ 26

/-- Commit or keep: after a poll `RAW` is the candidate exactly when the new status is `no_errors`, and is otherwise what
it was. -/
def Obligations.CommitOnNoErrorsOnly : Prop :=
  ∀ s t : State, s.init = true → (exec .getRaw s = .next t ∨ exec .getPos s = .next t) →
    (t.status = .noErrors → t.raw = candidate (readComposite (applyInstrMask 0x40#8 .set s)).1) ∧
    (t.status ≠ .noErrors → t.raw = s.raw)

/-- The unlock is unconditional: every poll, whatever it read, writes the instruction register exactly twice, first with
bit 6 set and last with bit 6 clear, with only read frames between the two, and leaves the bank unlocked. -/
def Obligations.EveryPollUnlocks : Prop :=
  ∀ s t : State, s.init = true → (exec .getRaw s = .next t ∨ exec .getPos s = .next t) →
    t.locked = false ∧ ∃ (before between : List TransportCall) (x y : Byte),
      t.bus = s.bus ++ before ++ writeBackCalls s.params.lockWriteForm s.sel x ++ between ++
        writeBackCalls s.params.lockWriteForm s.sel y ∧
      x.getLsbD 6 = true ∧ y.getLsbD 6 = false ∧
      opcodesOf before = [0x03#8] ∧ opcodesOf between = List.replicate 7 0x03#8

/-- Idempotence, with the condition that 90_conflicts.md C11 makes explicit: two polls, one after the other, that both end
with `no_errors` give the same raw position when no refresh step falls between the first one's unlock and the second
one's lock, or none that can reach the four sample registers; these are not volatile. -/
def Obligations.PollsOfOneSnapshotAgree : Prop :=
  ∀ s a b : State, s.init = true → (∀ x : Address, x.toNat < 4 → x ∉ s.params.volatileSet) →
    (Quiet a (maskPoints a.params.lockWriteForm) ∨ ∀ x : Address, x.toNat < 4 → x ∉ s.params.frozenSet) →
    exec .getRaw s = .next a → exec .getRaw a = .next b → a.status = .noErrors → b.status = .noErrors → b.raw = a.raw

/-- `RAW` changes only when a poll classifies as `no_errors`, and a value a poll commits is below 2^26. -/
def Obligations.RawChangesOnlyByCommit : Prop :=
  ∀ (i : Instr) (s t : State), (∀ l o, i ≠ .construct l o) → exec i s = .next t →
    t.raw = s.raw ∨ ((i = .getRaw ∨ i = .getPos) ∧ t.status = .noErrors ∧ t.raw.toNat < 2 ^ 26)

/-- `getStatus` completes with a handle: the code of the status of the latest poll (decisions D3, D27), no bus activity,
nothing else changed. -/
def Obligations.GetStatusResult : Prop :=
  ∀ s : State, s.init = true →
    exec .getStatus s = .next { s with responses := s.responses ++ [.result [match s.status with
      | .noErrors => 0#8 | .invalidCrc => 1#8 | .encoderWarning => 2#8 | .encoderAlarm => 3#8]] }

/-! ### Distances -/

/-- `toPhysical` completes on every operand in range, with or without a handle (decisions D2, D26): the answer is
`raw * CONV_FAC - offset` in the machine's arithmetic, and nothing else changes. -/
def Obligations.ToPhysicalResult : Prop :=
  ∀ (raw : Word) (offset : Distance) (s : State), raw.toNat < 2 ^ 26 → finite32 offset = true →
    ∃ d : Distance, d = f32Sub (f32Mul (f32OfU32 raw) s.params.convFac) offset ∧
      exec (.toPhys raw offset) s = .next { s with responses := s.responses ++ [.result [d.extractLsb' 24 8,
        d.extractLsb' 16 8, d.extractLsb' 8 8, d.extractLsb' 0 8]] }

/-- `getPosition` completes with a handle (decision D23): a whole poll, then the conversion of `RAW` as it then stands
with the handle's offset, and the corrector. -/
def Obligations.GetPositionResult : Prop :=
  ∀ s : State, s.init = true → ∃ (t : State) (d : Distance), exec .getPos s = .next t ∧ PollEffect s t ∧ SameSetup s t ∧
    t.select = false ∧
    d = correct (binary32 s.params.convFac) (f32Sub (f32Mul (f32OfU32 t.raw) s.params.convFac) s.offset) ∧
    t.responses = s.responses ++ [.result [d.extractLsb' 24 8, d.extractLsb' 16 8, d.extractLsb' 8 8,
      d.extractLsb' 0 8]]

/-- The corrector over exact numbers, as the source writes it: 10.0 < d < 100 subtracts 85.60, else d > 190 subtracts
200, else nothing; at most one subtraction. -/
def Obligations.CorrectorOnExactNumbers : Prop :=
  ∀ (convFac d : Rat),
    (10 < d ∧ d < 100 → correct (exactNumerics convFac) d = d - 856 / 10) ∧
    (190 < d → correct (exactNumerics convFac) d = d - 200) ∧
    (d ≤ 10 ∨ (100 ≤ d ∧ d ≤ 190) → correct (exactNumerics convFac) d = d)

/-- The corrector over binary32 takes the branch that the value of the pattern says, with strict bounds (an inference of
the spec's; binary32 is decision D24). -/
def Obligations.CorrectorBranchesByValue : Prop :=
  ∀ (convFac d : Distance), finite32 d = true →
    (10 < f32Value d ∧ f32Value d < 100 → correct (binary32 convFac) d = f32Sub d 0x42AB3333#32) ∧
    (190 < f32Value d → correct (binary32 convFac) d = f32Sub d 0x43480000#32) ∧
    (f32Value d ≤ 10 ∨ (100 ≤ f32Value d ∧ f32Value d ≤ 190) → correct (binary32 convFac) d = d)

/-- Integer-to-distance conversion under binary32 (an inference of the spec's from decision D24): exact up to 2^24, the
nearest multiple of 2 below 2^25, the nearest multiple of 4 below 2^26, ties to the even significand. -/
def Obligations.OfU32IsNearest : Prop :=
  ∀ r : Word,
    (r.toNat ≤ 2 ^ 24 → f32Value (f32OfU32 r) = r.toNat) ∧
    (2 ^ 24 < r.toNat → r.toNat < 2 ^ 25 → ∃ k : Nat, f32Value (f32OfU32 r) = (2 * k : Nat) ∧
      (r.toNat = 2 * k ∨ (r.toNat + 1 = 2 * k ∧ k % 2 = 0) ∨ (r.toNat = 2 * k + 1 ∧ k % 2 = 0))) ∧
    (2 ^ 25 ≤ r.toNat → r.toNat < 2 ^ 26 → ∃ k : Nat, f32Value (f32OfU32 r) = (4 * k : Nat) ∧
      (r.toNat < 4 * k + 2 ∨ (r.toNat = 4 * k + 2 ∧ k % 2 = 0)) ∧
      (4 * k < r.toNat + 2 ∨ (4 * k = r.toNat + 2 ∧ k % 2 = 0)))

/-- Subtraction and multiplication round to nearest, ties to even (decision D24): when the result is finite, no finite
binary32 number is nearer to the exact difference or product, and where another number is as near, the result is the one
whose significand is even (its last bit is the pattern's). -/
def Obligations.ArithmeticRoundsToNearest : Prop :=
  ∀ a b c : Distance, finite32 a = true → finite32 b = true → finite32 c = true →
    (finite32 (f32Sub a b) = true →
      |f32Value (f32Sub a b) - (f32Value a - f32Value b)| ≤ |f32Value c - (f32Value a - f32Value b)| ∧
      (|f32Value (f32Sub a b) - (f32Value a - f32Value b)| = |f32Value c - (f32Value a - f32Value b)| →
        f32Value c ≠ f32Value (f32Sub a b) → (f32Sub a b).getLsbD 0 = false)) ∧
    (finite32 (f32Mul a b) = true →
      |f32Value (f32Mul a b) - f32Value a * f32Value b| ≤ |f32Value c - f32Value a * f32Value b| ∧
      (|f32Value (f32Mul a b) - f32Value a * f32Value b| = |f32Value c - f32Value a * f32Value b| →
        f32Value c ≠ f32Value (f32Mul a b) → (f32Mul a b).getLsbD 0 = false))

/-- `toPhysical(0, 0)` is exactly 0 for every finite positive `CONV_FAC`, and no distance is ever a NaN: neither the
conversion of any sample with a finite offset nor its correction (binary32 is decision D24; where a large `CONV_FAC`
overflows, an infinity comes out, log entry 24). -/
def Obligations.DistancesAreNumbers : Prop :=
  ∀ (convFac : Distance) (raw : Word) (offset : Distance), 0 < convFac.toNat → convFac.toNat < 0x7F800000 → finite32 offset = true →
    toPhysical (binary32 convFac) 0#32 0#32 = 0#32 ∧
    f32IsNaN (toPhysical (binary32 convFac) raw offset) = false ∧
    f32IsNaN (correct (binary32 convFac) (toPhysical (binary32 convFac) raw offset)) = false

/-! ### The handle and the refusals -/

/-- `construct` completes when there is no handle and the offset is finite: the operands are in the handle, `STATUS` is
`no_errors` (decision D20), `INIT` is 1, and no frame is sent (decision D21). `RAW` is a draw, of which nothing is
said. -/
def Obligations.ConstructResult : Prop :=
  ∀ (sel : Byte) (offset : Distance) (s : State), s.init = false → finite32 offset = true →
    ∃ t : State, exec (.construct sel offset) s = .next t ∧ t.sel = sel ∧ t.offset = offset ∧ t.status = .noErrors ∧
      t.init = true ∧ t.params = s.params ∧ t.pending = s.pending ∧ SameBus s t ∧
      t.responses = s.responses ++ [.result []]

/-- Without a handle every host operation but `construct`, `classify` and `toPhysical` is refused, before its operands
are looked at, with nothing changed (decision D22; the form of a refusal is log entry 3). -/
def Obligations.NothingRunsWithoutAHandle : Prop :=
  ∀ (i : Instr) (s : State), s.init = false → i.isFrame = false → (∀ l o, i ≠ .construct l o) →
    (∀ c v p, i ≠ .classify c v p) → (∀ r o, i ≠ .toPhys r o) →
    exec i s = .next { s with responses := s.responses ++ [.refused .notConstructed] }

/-- The other refusals of a decoded packet (decisions D11, D22, D26, D31; the form of a refusal is log entry 3), each with
nothing changed. That `toPhysical` names the sample first when both operands are out of range is the model's own reading
(log entry 10). -/
def Obligations.OperandRefusals : Prop :=
  ∀ (a b : Byte) (data : List Byte) (offset : Distance) (raw : Word) (c v p : Byte) (s : State),
    (s.init = true → exec (.construct a offset) s = .next { s with responses := s.responses ++ [.refused .alreadyConstructed] }) ∧
    (s.init = false → finite32 offset = false →
      exec (.construct a offset) s = .next { s with responses := s.responses ++ [.refused .badOffset] }) ∧
    (s.init = true → (b.toNat = 0 ∨ 4 < b.toNat) →
      exec (.readReg a b) s = .next { s with responses := s.responses ++ [.refused .badCount] }) ∧
    (s.init = true → (data.length = 0 ∨ 255 < data.length) →
      exec (.writeReg a data) s = .next { s with responses := s.responses ++ [.refused .badLength] }) ∧
    ((1 < v.toNat ∨ 3 < p.toNat) →
      exec (.classify c v p) s = .next { s with responses := s.responses ++ [.refused .badOperand] }) ∧
    (2 ^ 26 ≤ raw.toNat → exec (.toPhys raw offset) s = .next { s with responses := s.responses ++ [.refused .badOperand] }) ∧
    (raw.toNat < 2 ^ 26 → finite32 offset = false →
      exec (.toPhys raw offset) s = .next { s with responses := s.responses ++ [.refused .badOffset] })

/-! ### Rules over all operations -/

/-- Every admitted host operation runs to its end and returns a result: with its operands in range, and a handle or, for
`construct`, none, or for `classify` and `toPhysical` either. No step ends in a fault. -/
def Obligations.AdmittedOperationsReturn : Prop :=
  (∀ (i : Instr) (s : State), i.isFrame = false → wellFormed i = true →
    ((∃ l o, i = .construct l o) ∧ s.init = false ∨ (∃ c v p, i = .classify c v p) ∨ (∃ r o, i = .toPhys r o) ∨
      (∀ l o, i ≠ .construct l o) ∧ s.init = true) →
    ∃ (t : State) (bytes : List Byte), exec i s = .next t ∧ t.responses = s.responses ++ [.result bytes]) ∧
  (∀ (s : State) (f : Fault), step s ≠ .fault f)

/-- Who writes the handle, over every instruction: `SEL`, `OFFSET` and `INIT` only `construct`; `RAW` and `STATUS` only
`construct`, `getRawPosition` and `getPosition`. -/
def Obligations.HandleFrame : Prop :=
  ∀ (i : Instr) (s t : State), (∀ l o, i ≠ .construct l o) → exec i s = .next t →
    SameSetup s t ∧ (i ≠ .getRaw → i ≠ .getPos → SameHandle s t)

/-- What the bus sees of every instruction: whole frames only, each ended before the next begins, on the handle's select
line, which is deasserted at the end if it was at the start; and of a host operation only the opcodes 0x02, 0x03 and
0x07 (decision D30). -/
def Obligations.BusSeesWholeFrames : Prop :=
  ∀ (i : Instr) (s t : State), exec i s = .next t →
    ∃ calls : List TransportCall, t.bus = s.bus ++ calls ∧ wholeFrames s.sel calls = true ∧
      (s.select = false → t.select = false) ∧
      (∀ o ∈ opcodesOf calls, o = 0x02#8 ∨ o = 0x03#8 ∨ o = 0x07#8)

/-- Frames and bytes of every admitted operation (an inference of the spec's, 46_common_laws.md): none for `construct`,
`classify`, `toPhysical` and `getStatus`; one for the register operations; two for `lock` and `unlock`; ten for a
poll; with `LOCK_WRITE_FORM = data` one byte more for each write-back. -/
def Obligations.FramesPerOperation : Prop :=
  ∀ (i : Instr) (s t : State), i.isFrame = false → wellFormed i = true → s.init = true → exec i s = .next t →
    ∃ calls : List TransportCall, t.bus = s.bus ++ calls ∧
      frameCount calls = (match i with
        | .readReg _ _ => 1 | .writeReg _ _ => 1 | .writeInstr _ => 1 | .getVersion => 1 | .getRevision => 1
        | .lock => 2 | .unlock => 2 | .getRaw => 10 | .getPos => 10 | _ => 0) ∧
      byteCount calls = (match i with
        | .readReg _ count => 2 + count.toNat | .writeReg _ data => 2 + data.length | .writeInstr _ => 2
        | .getVersion => 3 | .getRevision => 3
        | .lock => if s.params.lockWriteForm = .instr then 5 else 6
        | .unlock => if s.params.lockWriteForm = .instr then 5 else 6
        | .getRaw => if s.params.lockWriteForm = .instr then 28 else 30
        | .getPos => if s.params.lockWriteForm = .instr then 28 else 30
        | _ => 0)

/-- The handle's numbers never reach the chip (an inference of the spec's, 46_common_laws.md): change `RAW`, `STATUS`,
`OFFSET` and the answers given so far, and every instruction and every step goes to the same state but for those four;
so the calls on the transport, the registers, the select line and all the rest are the same. -/
def Obligations.HandleNumbersStayInside : Prop :=
  ∀ (s t : State) (raw : Word) (status : Status) (offset : Distance) (responses : List Response),
    (∀ i : Instr, exec i s = .next t → ∃ (raw' : Word) (status' : Status) (offset' : Distance) (responses' : List Response),
      exec i { s with raw := raw, status := status, offset := offset, responses := responses } =
        .next { t with raw := raw', status := status', offset := offset', responses := responses' }) ∧
    (step s = .next t → ∃ (raw' : Word) (status' : Status) (offset' : Distance) (responses' : List Response),
      step { s with raw := raw, status := status, offset := offset, responses := responses } =
        .next { t with raw := raw', status := status', offset := offset', responses := responses' })

/-- No frame can run while `INIT` is 0 (decisions D20, D22): no step puts a call on the transport or moves the select
line, whatever comes in at either port, and a bare frame with a meaning is refused `NotConstructed` with nothing changed.
That a frame can come in by itself is the model's own choice (log entry 12), the form of a refusal is log entry 3. -/
def Obligations.NoFrameWithoutAHandle : Prop :=
  (∀ s t : State, s.init = false → step s = .next t → t.bus = s.bus ∧ (s.select = false → t.select = false)) ∧
  ∀ (a : Address) (data : List Byte) (n : Nat) (c : Byte) (s : State), s.init = false →
    (1 ≤ data.length → data.length ≤ 255 →
      exec (.wdata a data) s = .next { s with responses := s.responses ++ [.refused .notConstructed] }) ∧
    (1 ≤ n → n ≤ 4 →
      exec (.rdata a n) s = .next { s with responses := s.responses ++ [.refused .notConstructed] }) ∧
    exec (.winstr c) s = .next { s with responses := s.responses ++ [.refused .notConstructed] }

/-- `SEL`, `RAW`, `STATUS` and `OFFSET` are unreadable while `INIT` is 0 (decision D20): change all four, and a step gives
the same answers, the same calls on the transport and the same state but for those four; and if the step constructs the
handle, the very same state. So the values that reset leaves there (log entry 2) never show. -/
def Obligations.HandleIsUnreadableBeforeConstruct : Prop :=
  ∀ (s t : State) (sel : Byte) (raw : Word) (status : Status) (offset : Distance), s.init = false → step s = .next t →
    ∃ (sel' : Byte) (raw' : Word) (status' : Status) (offset' : Distance),
      step { s with sel := sel, raw := raw, status := status, offset := offset } =
        .next { t with sel := sel', raw := raw', status := status', offset := offset' } ∧
      (t.init = true → sel' = t.sel ∧ raw' = t.raw ∧ status' = t.status ∧ offset' = t.offset)

/-- The refresh agent has one move before every byte of a frame (decision D18): a byte that is sent, read or written takes
exactly one, and works on the register file that the move leaves; and an instruction takes as many moves as it transfers
bytes, in their order, and none without a frame. The list of moves is the model's own (log entries 4, 5 and 17). -/
def Obligations.OneMoveForEveryTransfer : Prop :=
  (∀ (s : State) (o v : Byte) (a : Address),
    (sendByte o s).moves = s.moves.tail ∧ (sendByte o s).rr = s.refreshPoint.rr ∧
    (readByte a s).2.moves = s.moves.tail ∧ (readByte a s).2.rr = s.refreshPoint.rr ∧
    (a ∉ s.params.volatileSet → (readByte a s).1 = Memory.read s.refreshPoint.rr a.toNat) ∧
    (writeByte a v s).moves = s.moves.tail ∧
    ∀ x : Address, Memory.read (writeByte a v s).rr x.toNat =
      if x = a then v else Memory.read s.refreshPoint.rr x.toNat) ∧
  ∀ (i : Instr) (s t : State), exec i s = .next t →
    ∃ calls : List TransportCall, t.bus = s.bus ++ calls ∧ t.moves = s.moves.drop (byteCount calls)
end

