-- ==== Sys2Proof/Laws/State.lean ====
section
/-! SUPPORT. One lemma per field of State per update, true by unfolding the update once. -/

namespace Sys2Proof.Machine

variable (s : State)

/-! ### `State.reply` -/

@[simp] theorem State.reply_sel (bs : List Byte) : (s.reply bs).sel = s.sel := rfl
@[simp] theorem State.reply_raw (bs : List Byte) : (s.reply bs).raw = s.raw := rfl
@[simp] theorem State.reply_status (bs : List Byte) : (s.reply bs).status = s.status := rfl
@[simp] theorem State.reply_offset (bs : List Byte) : (s.reply bs).offset = s.offset := rfl
@[simp] theorem State.reply_init (bs : List Byte) : (s.reply bs).init = s.init := rfl
@[simp] theorem State.reply_select (bs : List Byte) : (s.reply bs).select = s.select := rfl
@[simp] theorem State.reply_rr (bs : List Byte) : (s.reply bs).rr = s.rr := rfl
@[simp] theorem State.reply_pending (bs : List Byte) : (s.reply bs).pending = s.pending := rfl
@[simp] theorem State.reply_responses (bs : List Byte) : (s.reply bs).responses = s.responses ++ [.result bs] := rfl
@[simp] theorem State.reply_bus (bs : List Byte) : (s.reply bs).bus = s.bus := rfl
@[simp] theorem State.reply_moves (bs : List Byte) : (s.reply bs).moves = s.moves := rfl
@[simp] theorem State.reply_draws (bs : List Byte) : (s.reply bs).draws = s.draws := rfl
@[simp] theorem State.reply_params (bs : List Byte) : (s.reply bs).params = s.params := rfl

/-! ### `State.refuse` -/

@[simp] theorem State.refuse_sel (w : PacketRefusal) : (s.refuse w).sel = s.sel := rfl
@[simp] theorem State.refuse_raw (w : PacketRefusal) : (s.refuse w).raw = s.raw := rfl
@[simp] theorem State.refuse_status (w : PacketRefusal) : (s.refuse w).status = s.status := rfl
@[simp] theorem State.refuse_offset (w : PacketRefusal) : (s.refuse w).offset = s.offset := rfl
@[simp] theorem State.refuse_init (w : PacketRefusal) : (s.refuse w).init = s.init := rfl
@[simp] theorem State.refuse_select (w : PacketRefusal) : (s.refuse w).select = s.select := rfl
@[simp] theorem State.refuse_rr (w : PacketRefusal) : (s.refuse w).rr = s.rr := rfl
@[simp] theorem State.refuse_pending (w : PacketRefusal) : (s.refuse w).pending = s.pending := rfl
@[simp] theorem State.refuse_responses (w : PacketRefusal) : (s.refuse w).responses = s.responses ++ [.refused w] := rfl
@[simp] theorem State.refuse_bus (w : PacketRefusal) : (s.refuse w).bus = s.bus := rfl
@[simp] theorem State.refuse_moves (w : PacketRefusal) : (s.refuse w).moves = s.moves := rfl
@[simp] theorem State.refuse_draws (w : PacketRefusal) : (s.refuse w).draws = s.draws := rfl
@[simp] theorem State.refuse_params (w : PacketRefusal) : (s.refuse w).params = s.params := rfl

/-! ### `State.replyFrame` -/

@[simp] theorem State.replyFrame_sel (bs : List Byte) : (s.replyFrame bs).sel = s.sel := rfl
@[simp] theorem State.replyFrame_raw (bs : List Byte) : (s.replyFrame bs).raw = s.raw := rfl
@[simp] theorem State.replyFrame_status (bs : List Byte) : (s.replyFrame bs).status = s.status := rfl
@[simp] theorem State.replyFrame_offset (bs : List Byte) : (s.replyFrame bs).offset = s.offset := rfl
@[simp] theorem State.replyFrame_init (bs : List Byte) : (s.replyFrame bs).init = s.init := rfl
@[simp] theorem State.replyFrame_select (bs : List Byte) : (s.replyFrame bs).select = s.select := rfl
@[simp] theorem State.replyFrame_rr (bs : List Byte) : (s.replyFrame bs).rr = s.rr := rfl
@[simp] theorem State.replyFrame_pending (bs : List Byte) : (s.replyFrame bs).pending = s.pending := rfl
@[simp] theorem State.replyFrame_responses (bs : List Byte) : (s.replyFrame bs).responses = s.responses ++ [.frameBytes bs] := rfl
@[simp] theorem State.replyFrame_bus (bs : List Byte) : (s.replyFrame bs).bus = s.bus := rfl
@[simp] theorem State.replyFrame_moves (bs : List Byte) : (s.replyFrame bs).moves = s.moves := rfl
@[simp] theorem State.replyFrame_draws (bs : List Byte) : (s.replyFrame bs).draws = s.draws := rfl
@[simp] theorem State.replyFrame_params (bs : List Byte) : (s.replyFrame bs).params = s.params := rfl

/-! ### `State.call` -/

@[simp] theorem State.call_sel (c : TransportCall) : (s.call c).sel = s.sel := rfl
@[simp] theorem State.call_raw (c : TransportCall) : (s.call c).raw = s.raw := rfl
@[simp] theorem State.call_status (c : TransportCall) : (s.call c).status = s.status := rfl
@[simp] theorem State.call_offset (c : TransportCall) : (s.call c).offset = s.offset := rfl
@[simp] theorem State.call_init (c : TransportCall) : (s.call c).init = s.init := rfl
@[simp] theorem State.call_select (c : TransportCall) : (s.call c).select = s.select := rfl
@[simp] theorem State.call_rr (c : TransportCall) : (s.call c).rr = s.rr := rfl
@[simp] theorem State.call_pending (c : TransportCall) : (s.call c).pending = s.pending := rfl
@[simp] theorem State.call_responses (c : TransportCall) : (s.call c).responses = s.responses := rfl
@[simp] theorem State.call_bus (c : TransportCall) : (s.call c).bus = s.bus ++ [c] := rfl
@[simp] theorem State.call_moves (c : TransportCall) : (s.call c).moves = s.moves := rfl
@[simp] theorem State.call_draws (c : TransportCall) : (s.call c).draws = s.draws := rfl
@[simp] theorem State.call_params (c : TransportCall) : (s.call c).params = s.params := rfl

/-! ### `State.setSelect` -/

@[simp] theorem State.setSelect_sel (b : Bool) : (s.setSelect b).sel = s.sel := rfl
@[simp] theorem State.setSelect_raw (b : Bool) : (s.setSelect b).raw = s.raw := rfl
@[simp] theorem State.setSelect_status (b : Bool) : (s.setSelect b).status = s.status := rfl
@[simp] theorem State.setSelect_offset (b : Bool) : (s.setSelect b).offset = s.offset := rfl
@[simp] theorem State.setSelect_init (b : Bool) : (s.setSelect b).init = s.init := rfl
@[simp] theorem State.setSelect_select (b : Bool) : (s.setSelect b).select = b := rfl
@[simp] theorem State.setSelect_rr (b : Bool) : (s.setSelect b).rr = s.rr := rfl
@[simp] theorem State.setSelect_pending (b : Bool) : (s.setSelect b).pending = s.pending := rfl
@[simp] theorem State.setSelect_responses (b : Bool) : (s.setSelect b).responses = s.responses := rfl
@[simp] theorem State.setSelect_bus (b : Bool) : (s.setSelect b).bus = s.bus ++ [.selectLineSet s.sel b] := rfl
@[simp] theorem State.setSelect_moves (b : Bool) : (s.setSelect b).moves = s.moves := rfl
@[simp] theorem State.setSelect_draws (b : Bool) : (s.setSelect b).draws = s.draws := rfl
@[simp] theorem State.setSelect_params (b : Bool) : (s.setSelect b).params = s.params := rfl

/-! ### `State.setRr` -/

@[simp] theorem State.setRr_sel (m : Memory) : (s.setRr m).sel = s.sel := rfl
@[simp] theorem State.setRr_raw (m : Memory) : (s.setRr m).raw = s.raw := rfl
@[simp] theorem State.setRr_status (m : Memory) : (s.setRr m).status = s.status := rfl
@[simp] theorem State.setRr_offset (m : Memory) : (s.setRr m).offset = s.offset := rfl
@[simp] theorem State.setRr_init (m : Memory) : (s.setRr m).init = s.init := rfl
@[simp] theorem State.setRr_select (m : Memory) : (s.setRr m).select = s.select := rfl
@[simp] theorem State.setRr_rr (m : Memory) : (s.setRr m).rr = m := rfl
@[simp] theorem State.setRr_pending (m : Memory) : (s.setRr m).pending = s.pending := rfl
@[simp] theorem State.setRr_responses (m : Memory) : (s.setRr m).responses = s.responses := rfl
@[simp] theorem State.setRr_bus (m : Memory) : (s.setRr m).bus = s.bus := rfl
@[simp] theorem State.setRr_moves (m : Memory) : (s.setRr m).moves = s.moves := rfl
@[simp] theorem State.setRr_draws (m : Memory) : (s.setRr m).draws = s.draws := rfl
@[simp] theorem State.setRr_params (m : Memory) : (s.setRr m).params = s.params := rfl

/-! ### `State.setStatus` -/

@[simp] theorem State.setStatus_sel (v : Status) : (s.setStatus v).sel = s.sel := rfl
@[simp] theorem State.setStatus_raw (v : Status) : (s.setStatus v).raw = s.raw := rfl
@[simp] theorem State.setStatus_status (v : Status) : (s.setStatus v).status = v := rfl
@[simp] theorem State.setStatus_offset (v : Status) : (s.setStatus v).offset = s.offset := rfl
@[simp] theorem State.setStatus_init (v : Status) : (s.setStatus v).init = s.init := rfl
@[simp] theorem State.setStatus_select (v : Status) : (s.setStatus v).select = s.select := rfl
@[simp] theorem State.setStatus_rr (v : Status) : (s.setStatus v).rr = s.rr := rfl
@[simp] theorem State.setStatus_pending (v : Status) : (s.setStatus v).pending = s.pending := rfl
@[simp] theorem State.setStatus_responses (v : Status) : (s.setStatus v).responses = s.responses := rfl
@[simp] theorem State.setStatus_bus (v : Status) : (s.setStatus v).bus = s.bus := rfl
@[simp] theorem State.setStatus_moves (v : Status) : (s.setStatus v).moves = s.moves := rfl
@[simp] theorem State.setStatus_draws (v : Status) : (s.setStatus v).draws = s.draws := rfl
@[simp] theorem State.setStatus_params (v : Status) : (s.setStatus v).params = s.params := rfl

/-! ### `State.setRaw` -/

@[simp] theorem State.setRaw_sel (v : Word) : (s.setRaw v).sel = s.sel := rfl
@[simp] theorem State.setRaw_raw (v : Word) : (s.setRaw v).raw = v := rfl
@[simp] theorem State.setRaw_status (v : Word) : (s.setRaw v).status = s.status := rfl
@[simp] theorem State.setRaw_offset (v : Word) : (s.setRaw v).offset = s.offset := rfl
@[simp] theorem State.setRaw_init (v : Word) : (s.setRaw v).init = s.init := rfl
@[simp] theorem State.setRaw_select (v : Word) : (s.setRaw v).select = s.select := rfl
@[simp] theorem State.setRaw_rr (v : Word) : (s.setRaw v).rr = s.rr := rfl
@[simp] theorem State.setRaw_pending (v : Word) : (s.setRaw v).pending = s.pending := rfl
@[simp] theorem State.setRaw_responses (v : Word) : (s.setRaw v).responses = s.responses := rfl
@[simp] theorem State.setRaw_bus (v : Word) : (s.setRaw v).bus = s.bus := rfl
@[simp] theorem State.setRaw_moves (v : Word) : (s.setRaw v).moves = s.moves := rfl
@[simp] theorem State.setRaw_draws (v : Word) : (s.setRaw v).draws = s.draws := rfl
@[simp] theorem State.setRaw_params (v : Word) : (s.setRaw v).params = s.params := rfl

/-! ### `State.drawn` -/

@[simp] theorem State.drawn_sel (n : Nat) : (s.drawn n).sel = s.sel := rfl
@[simp] theorem State.drawn_raw (n : Nat) : (s.drawn n).raw = s.raw := rfl
@[simp] theorem State.drawn_status (n : Nat) : (s.drawn n).status = s.status := rfl
@[simp] theorem State.drawn_offset (n : Nat) : (s.drawn n).offset = s.offset := rfl
@[simp] theorem State.drawn_init (n : Nat) : (s.drawn n).init = s.init := rfl
@[simp] theorem State.drawn_select (n : Nat) : (s.drawn n).select = s.select := rfl
@[simp] theorem State.drawn_rr (n : Nat) : (s.drawn n).rr = s.rr := rfl
@[simp] theorem State.drawn_pending (n : Nat) : (s.drawn n).pending = s.pending := rfl
@[simp] theorem State.drawn_responses (n : Nat) : (s.drawn n).responses = s.responses := rfl
@[simp] theorem State.drawn_bus (n : Nat) : (s.drawn n).bus = s.bus := rfl
@[simp] theorem State.drawn_moves (n : Nat) : (s.drawn n).moves = s.moves := rfl
@[simp] theorem State.drawn_draws (n : Nat) : (s.drawn n).draws = s.draws + n := rfl
@[simp] theorem State.drawn_params (n : Nat) : (s.drawn n).params = s.params := rfl

/-! ### `State.dropMove` -/

@[simp] theorem State.dropMove_sel : (s.dropMove).sel = s.sel := rfl
@[simp] theorem State.dropMove_raw : (s.dropMove).raw = s.raw := rfl
@[simp] theorem State.dropMove_status : (s.dropMove).status = s.status := rfl
@[simp] theorem State.dropMove_offset : (s.dropMove).offset = s.offset := rfl
@[simp] theorem State.dropMove_init : (s.dropMove).init = s.init := rfl
@[simp] theorem State.dropMove_select : (s.dropMove).select = s.select := rfl
@[simp] theorem State.dropMove_rr : (s.dropMove).rr = s.rr := rfl
@[simp] theorem State.dropMove_pending : (s.dropMove).pending = s.pending := rfl
@[simp] theorem State.dropMove_responses : (s.dropMove).responses = s.responses := rfl
@[simp] theorem State.dropMove_bus : (s.dropMove).bus = s.bus := rfl
@[simp] theorem State.dropMove_moves : (s.dropMove).moves = s.moves.tail := rfl
@[simp] theorem State.dropMove_draws : (s.dropMove).draws = s.draws + 1 := rfl
@[simp] theorem State.dropMove_params : (s.dropMove).params = s.params := rfl

/-! ### `State.dropInput` -/

@[simp] theorem State.dropInput_sel : (s.dropInput).sel = s.sel := rfl
@[simp] theorem State.dropInput_raw : (s.dropInput).raw = s.raw := rfl
@[simp] theorem State.dropInput_status : (s.dropInput).status = s.status := rfl
@[simp] theorem State.dropInput_offset : (s.dropInput).offset = s.offset := rfl
@[simp] theorem State.dropInput_init : (s.dropInput).init = s.init := rfl
@[simp] theorem State.dropInput_select : (s.dropInput).select = s.select := rfl
@[simp] theorem State.dropInput_rr : (s.dropInput).rr = s.rr := rfl
@[simp] theorem State.dropInput_pending : (s.dropInput).pending = s.pending.tail := rfl
@[simp] theorem State.dropInput_responses : (s.dropInput).responses = s.responses := rfl
@[simp] theorem State.dropInput_bus : (s.dropInput).bus = s.bus := rfl
@[simp] theorem State.dropInput_moves : (s.dropInput).moves = s.moves := rfl
@[simp] theorem State.dropInput_draws : (s.dropInput).draws = s.draws := rfl
@[simp] theorem State.dropInput_params : (s.dropInput).params = s.params := rfl

/-! ### `State.controllerReset` -/

@[simp] theorem State.controllerReset_sel : (s.controllerReset).sel = Config.freeByte s.draws := rfl
@[simp] theorem State.controllerReset_raw : (s.controllerReset).raw = Config.freeWord s.draws := rfl
@[simp] theorem State.controllerReset_status : (s.controllerReset).status = Config.freeStatus s.draws := rfl
@[simp] theorem State.controllerReset_offset : (s.controllerReset).offset = Config.freeWord (s.draws + 1) := rfl
@[simp] theorem State.controllerReset_init : (s.controllerReset).init = false := rfl
@[simp] theorem State.controllerReset_select : (s.controllerReset).select = false := rfl
@[simp] theorem State.controllerReset_rr : (s.controllerReset).rr = s.rr := rfl
@[simp] theorem State.controllerReset_pending : (s.controllerReset).pending = s.pending := rfl
@[simp] theorem State.controllerReset_responses : (s.controllerReset).responses = s.responses := rfl
@[simp] theorem State.controllerReset_bus : (s.controllerReset).bus = s.bus := rfl
@[simp] theorem State.controllerReset_moves : (s.controllerReset).moves = s.moves := rfl
@[simp] theorem State.controllerReset_draws : (s.controllerReset).draws = s.draws + 2 := rfl
@[simp] theorem State.controllerReset_params : (s.controllerReset).params = s.params := rfl

/-! ### `State.constructed` -/

@[simp] theorem State.constructed_sel (l : Byte) (o : Distance) : (s.constructed l o).sel = l := rfl
@[simp] theorem State.constructed_raw (l : Byte) (o : Distance) : (s.constructed l o).raw = Config.freeWord s.draws := rfl
@[simp] theorem State.constructed_status (l : Byte) (o : Distance) : (s.constructed l o).status = Config.statusReset := rfl
@[simp] theorem State.constructed_offset (l : Byte) (o : Distance) : (s.constructed l o).offset = o := rfl
@[simp] theorem State.constructed_init (l : Byte) (o : Distance) : (s.constructed l o).init = true := rfl
@[simp] theorem State.constructed_select (l : Byte) (o : Distance) : (s.constructed l o).select = s.select := rfl
@[simp] theorem State.constructed_rr (l : Byte) (o : Distance) : (s.constructed l o).rr = s.rr := rfl
@[simp] theorem State.constructed_pending (l : Byte) (o : Distance) : (s.constructed l o).pending = s.pending := rfl
@[simp] theorem State.constructed_responses (l : Byte) (o : Distance) : (s.constructed l o).responses = s.responses := rfl
@[simp] theorem State.constructed_bus (l : Byte) (o : Distance) : (s.constructed l o).bus = s.bus := rfl
@[simp] theorem State.constructed_moves (l : Byte) (o : Distance) : (s.constructed l o).moves = s.moves := rfl
@[simp] theorem State.constructed_draws (l : Byte) (o : Distance) : (s.constructed l o).draws = s.draws + 1 := rfl
@[simp] theorem State.constructed_params (l : Byte) (o : Distance) : (s.constructed l o).params = s.params := rfl

end Sys2Proof.Machine
end

