-- ==== Sys2Proof/Laws/Memory.lean ====
section
/-! SUPPORT. The laws of the register file: reading after writing, and the canonical form kept by every operation. -/

namespace Sys2Proof.Machine

theorem Memory.read_erase_same (m : Memory) (a : Nat) : Memory.read (Memory.erase m a) a = Config.unlistedByte := by
  induction m with
  | nil => rfl
  | cons c m ih =>
    obtain ⟨k, v⟩ := c
    by_cases h : k = a
    · simpa [Memory.erase, h] using ih
    · have h' : ¬ a = k := fun e => h e.symm
      simpa [Memory.erase, h, h', Memory.read] using ih

theorem Memory.read_erase_other (m : Memory) {a b : Nat} (h : b ≠ a) :
    Memory.read (Memory.erase m a) b = Memory.read m b := by
  induction m with
  | nil => rfl
  | cons c m ih =>
    obtain ⟨k, v⟩ := c
    by_cases hk : k = a
    · subst hk
      simpa [Memory.erase, Memory.read, h] using ih
    · have e : Memory.erase ((k, v) :: m) a = (k, v) :: Memory.erase m a := by simp [Memory.erase, hk]
      rw [e, Memory.read, Memory.read, ih]

theorem Memory.read_insert_other (m : Memory) {a b : Nat} (v : Byte) (h : b ≠ a) :
    Memory.read (Memory.insert m a v) b = Memory.read m b := by
  induction m with
  | nil => simp [Memory.insert, Memory.read, h]
  | cons c m ih =>
    obtain ⟨k, w⟩ := c
    simp only [Memory.insert]
    split
    · simp [Memory.read, h]
    · rw [Memory.read, ih, Memory.read]

theorem Memory.read_insert_same (m : Memory) {a : Nat} (v : Byte) (h : ∀ c ∈ m, c.1 ≠ a) :
    Memory.read (Memory.insert m a v) a = v := by
  induction m with
  | nil => simp [Memory.insert, Memory.read]
  | cons c m ih =>
    obtain ⟨k, w⟩ := c
    have hk : ¬ a = k := fun e => h (k, w) (by simp) e.symm
    simp only [Memory.insert]
    split
    · simp [Memory.read]
    · rw [Memory.read, if_neg hk]
      exact ih (fun c hc => h c (by simp [hc]))

theorem Memory.key_ne_of_mem_erase {m : Memory} {a : Nat} {c : Host.Cell} (h : c ∈ Memory.erase m a) : c.1 ≠ a := by
  have := (List.mem_filter.mp h).2
  simpa using this

/-- A read after a write to the same register gives the value written. -/
@[simp] theorem Memory.read_write_same (m : Memory) (a : Nat) (v : Byte) : Memory.read (Memory.write m a v) a = v := by
  unfold Memory.write
  split
  · rw [Memory.read_erase_same]; exact Eq.symm ‹_›
  · exact Memory.read_insert_same _ _ fun c hc => Memory.key_ne_of_mem_erase hc

/-- A write leaves every other register alone. -/
theorem Memory.read_write_other (m : Memory) {a b : Nat} (v : Byte) (h : b ≠ a) :
    Memory.read (Memory.write m a v) b = Memory.read m b := by
  unfold Memory.write
  split
  · exact Memory.read_erase_other m h
  · rw [Memory.read_insert_other _ _ h, Memory.read_erase_other m h]

theorem Memory.wf_iff (m : Memory) : Memory.wf m = true ↔
    m.Pairwise (fun c d => c.1 < d.1) ∧ ∀ c ∈ m, c.1 < 256 ∧ c.2 ≠ Config.unlistedByte := by
  simp [Memory.wf, List.all_eq_true, bne_iff_ne, Config.addrW]

theorem Memory.wf_erase {m : Memory} (h : Memory.wf m = true) (a : Nat) : Memory.wf (Memory.erase m a) = true := by
  rw [Memory.wf_iff] at h ⊢
  exact ⟨h.1.filter _, fun c hc => h.2 c (List.mem_filter.mp hc).1⟩

theorem Memory.mem_insert {m : Memory} {a : Nat} {v : Byte} {c : Host.Cell} (h : c ∈ Memory.insert m a v) :
    c = (a, v) ∨ c ∈ m := by
  induction m with
  | nil => simpa [Memory.insert] using h
  | cons d m ih =>
    obtain ⟨k, w⟩ := d
    simp only [Memory.insert] at h
    split at h
    · simpa using h
    · rcases List.mem_cons.mp h with h | h
      · exact .inr (by simp [h])
      · rcases ih h with h | h
        · exact .inl h
        · exact .inr (by simp [h])

theorem Memory.pairwise_insert {m : Memory} {a : Nat} {v : Byte} (h : m.Pairwise (fun c d => c.1 < d.1))
    (ha : ∀ c ∈ m, c.1 ≠ a) : (Memory.insert m a v).Pairwise (fun c d => c.1 < d.1) := by
  induction m with
  | nil => simp [Memory.insert]
  | cons d m ih =>
    obtain ⟨k, w⟩ := d
    rw [List.pairwise_cons] at h
    have hk : k ≠ a := ha (k, w) (by simp)
    simp only [Memory.insert]
    split
    · rename_i hlt
      refine List.pairwise_cons.mpr ⟨?_, List.pairwise_cons.mpr h⟩
      intro c hc
      rcases List.mem_cons.mp hc with rfl | hc
      · exact hlt
      · exact Nat.lt_trans hlt (h.1 c hc)
    · rename_i hge
      refine List.pairwise_cons.mpr ⟨?_, ih h.2 fun c hc => ha c (by simp [hc])⟩
      intro c hc
      rcases Memory.mem_insert hc with rfl | hc
      · show k < a; omega
      · exact h.1 c hc

/-- A write keeps the canonical form. -/
theorem Memory.wf_write {m : Memory} (h : Memory.wf m = true) {a : Nat} (ha : a < 256) (v : Byte) :
    Memory.wf (Memory.write m a v) = true := by
  unfold Memory.write
  split
  · exact Memory.wf_erase h a
  · rename_i hv
    have he := (Memory.wf_iff _).mp (Memory.wf_erase h a)
    rw [Memory.wf_iff]
    refine ⟨Memory.pairwise_insert he.1 fun c hc => Memory.key_ne_of_mem_erase hc, fun c hc => ?_⟩
    rcases Memory.mem_insert hc with rfl | hc
    · exact ⟨ha, hv⟩
    · exact he.2 c hc

/-- A refresh step keeps the canonical form, whatever the snapshot. -/
theorem Memory.wf_refreshed {m : Memory} (h : Memory.wf m = true) (frozen : List Byte) (snapshot : Memory) :
    Memory.wf (Memory.refreshed m frozen snapshot) = true := by
  induction frozen generalizing m with
  | nil => exact h
  | cons a frozen ih => exact ih (Memory.wf_write h a.isLt _)

/-- A refresh step changes no register outside the set (rule R41). -/
theorem Memory.read_refreshed_outside (m : Memory) {frozen : List Byte} (snapshot : Memory) {a : Byte}
    (h : a ∉ frozen) : Memory.read (Memory.refreshed m frozen snapshot) a.toNat = Memory.read m a.toNat := by
  induction frozen generalizing m with
  | nil => rfl
  | cons b frozen ih =>
    have hb : a.toNat ≠ b.toNat := fun e => h (by simp [BitVec.eq_of_toNat_eq e])
    exact (ih _ fun hm => h (by simp [hm])).trans (Memory.read_write_other _ _ hb)

/-- A refresh step replaces every register of the set by the snapshot's (rule R38). -/
theorem Memory.read_refreshed_inside (m : Memory) {frozen : List Byte} (snapshot : Memory) {a : Byte}
    (h : a ∈ frozen) :
    Memory.read (Memory.refreshed m frozen snapshot) a.toNat = Memory.read snapshot a.toNat := by
  induction frozen generalizing m with
  | nil => simp at h
  | cons b frozen ih =>
    by_cases hf : a ∈ frozen
    · exact ih _ hf
    · have hb : a = b := by simpa [hf] using h
      subst hb
      exact (Memory.read_refreshed_outside _ snapshot hf).trans (Memory.read_write_same _ _ _)

theorem Memory.wf_nil : Memory.wf [] = true := by decide

end Sys2Proof.Machine
end

