-- ==== Sys2Proof/Laws/BusFrame.lean ====
section
/-! SUPPORT. What the bus operations leave alone: one lemma per operation and field. The operations of a frame touch the
select line, the register file, the bus trace and the refresh agent's side, and nothing else (rules R27, R70). -/

namespace Sys2Proof.Machine

variable (s : State)

/-! ### refreshPoint -/

@[simp] theorem refreshPoint_sel : (s.refreshPoint).sel = s.sel := by simp [State.refreshPoint]
@[simp] theorem refreshPoint_raw : (s.refreshPoint).raw = s.raw := by simp [State.refreshPoint]
@[simp] theorem refreshPoint_status : (s.refreshPoint).status = s.status := by simp [State.refreshPoint]
@[simp] theorem refreshPoint_offset : (s.refreshPoint).offset = s.offset := by simp [State.refreshPoint]
@[simp] theorem refreshPoint_init : (s.refreshPoint).init = s.init := by simp [State.refreshPoint]
@[simp] theorem refreshPoint_pending : (s.refreshPoint).pending = s.pending := by simp [State.refreshPoint]
@[simp] theorem refreshPoint_responses : (s.refreshPoint).responses = s.responses := by simp [State.refreshPoint]
@[simp] theorem refreshPoint_params : (s.refreshPoint).params = s.params := by simp [State.refreshPoint]

/-! ### sendByte -/

@[simp] theorem sendByte_sel (o : Byte) : (sendByte o s).sel = s.sel := by simp [sendByte]
@[simp] theorem sendByte_raw (o : Byte) : (sendByte o s).raw = s.raw := by simp [sendByte]
@[simp] theorem sendByte_status (o : Byte) : (sendByte o s).status = s.status := by simp [sendByte]
@[simp] theorem sendByte_offset (o : Byte) : (sendByte o s).offset = s.offset := by simp [sendByte]
@[simp] theorem sendByte_init (o : Byte) : (sendByte o s).init = s.init := by simp [sendByte]
@[simp] theorem sendByte_pending (o : Byte) : (sendByte o s).pending = s.pending := by simp [sendByte]
@[simp] theorem sendByte_responses (o : Byte) : (sendByte o s).responses = s.responses := by simp [sendByte]
@[simp] theorem sendByte_params (o : Byte) : (sendByte o s).params = s.params := by simp [sendByte]

/-! ### readByte -/

@[simp] theorem readByte_sel (a : Address) : ((readByte a s).2).sel = s.sel := by simp [readByte]
@[simp] theorem readByte_raw (a : Address) : ((readByte a s).2).raw = s.raw := by simp [readByte]
@[simp] theorem readByte_status (a : Address) : ((readByte a s).2).status = s.status := by simp [readByte]
@[simp] theorem readByte_offset (a : Address) : ((readByte a s).2).offset = s.offset := by simp [readByte]
@[simp] theorem readByte_init (a : Address) : ((readByte a s).2).init = s.init := by simp [readByte]
@[simp] theorem readByte_pending (a : Address) : ((readByte a s).2).pending = s.pending := by simp [readByte]
@[simp] theorem readByte_responses (a : Address) : ((readByte a s).2).responses = s.responses := by simp [readByte]
@[simp] theorem readByte_params (a : Address) : ((readByte a s).2).params = s.params := by simp [readByte]

/-! ### writeByte -/

@[simp] theorem writeByte_sel (a : Address) (v : Byte) : (writeByte a v s).sel = s.sel := by simp [writeByte]
@[simp] theorem writeByte_raw (a : Address) (v : Byte) : (writeByte a v s).raw = s.raw := by simp [writeByte]
@[simp] theorem writeByte_status (a : Address) (v : Byte) : (writeByte a v s).status = s.status := by simp [writeByte]
@[simp] theorem writeByte_offset (a : Address) (v : Byte) : (writeByte a v s).offset = s.offset := by simp [writeByte]
@[simp] theorem writeByte_init (a : Address) (v : Byte) : (writeByte a v s).init = s.init := by simp [writeByte]
@[simp] theorem writeByte_pending (a : Address) (v : Byte) : (writeByte a v s).pending = s.pending := by simp [writeByte]
@[simp] theorem writeByte_responses (a : Address) (v : Byte) : (writeByte a v s).responses = s.responses := by simp [writeByte]
@[simp] theorem writeByte_params (a : Address) (v : Byte) : (writeByte a v s).params = s.params := by simp [writeByte]

/-! ### frameOpen -/

@[simp] theorem frameOpen_sel : (frameOpen s).sel = s.sel := by simp [frameOpen]
@[simp] theorem frameOpen_raw : (frameOpen s).raw = s.raw := by simp [frameOpen]
@[simp] theorem frameOpen_status : (frameOpen s).status = s.status := by simp [frameOpen]
@[simp] theorem frameOpen_offset : (frameOpen s).offset = s.offset := by simp [frameOpen]
@[simp] theorem frameOpen_init : (frameOpen s).init = s.init := by simp [frameOpen]
@[simp] theorem frameOpen_pending : (frameOpen s).pending = s.pending := by simp [frameOpen]
@[simp] theorem frameOpen_responses : (frameOpen s).responses = s.responses := by simp [frameOpen]
@[simp] theorem frameOpen_params : (frameOpen s).params = s.params := by simp [frameOpen]

/-! ### frameClose -/

@[simp] theorem frameClose_sel : (frameClose s).sel = s.sel := by simp [frameClose]
@[simp] theorem frameClose_raw : (frameClose s).raw = s.raw := by simp [frameClose]
@[simp] theorem frameClose_status : (frameClose s).status = s.status := by simp [frameClose]
@[simp] theorem frameClose_offset : (frameClose s).offset = s.offset := by simp [frameClose]
@[simp] theorem frameClose_init : (frameClose s).init = s.init := by simp [frameClose]
@[simp] theorem frameClose_pending : (frameClose s).pending = s.pending := by simp [frameClose]
@[simp] theorem frameClose_responses : (frameClose s).responses = s.responses := by simp [frameClose]
@[simp] theorem frameClose_params : (frameClose s).params = s.params := by simp [frameClose]

/-! ### frameHead -/

@[simp] theorem frameHead_sel (o : Byte) (a : Option Address) : (frameHead o a s).sel = s.sel := by cases a <;> simp [frameHead]
@[simp] theorem frameHead_raw (o : Byte) (a : Option Address) : (frameHead o a s).raw = s.raw := by cases a <;> simp [frameHead]
@[simp] theorem frameHead_status (o : Byte) (a : Option Address) : (frameHead o a s).status = s.status := by cases a <;> simp [frameHead]
@[simp] theorem frameHead_offset (o : Byte) (a : Option Address) : (frameHead o a s).offset = s.offset := by cases a <;> simp [frameHead]
@[simp] theorem frameHead_init (o : Byte) (a : Option Address) : (frameHead o a s).init = s.init := by cases a <;> simp [frameHead]
@[simp] theorem frameHead_pending (o : Byte) (a : Option Address) : (frameHead o a s).pending = s.pending := by cases a <;> simp [frameHead]
@[simp] theorem frameHead_responses (o : Byte) (a : Option Address) : (frameHead o a s).responses = s.responses := by cases a <;> simp [frameHead]
@[simp] theorem frameHead_params (o : Byte) (a : Option Address) : (frameHead o a s).params = s.params := by cases a <;> simp [frameHead]

/-! ### readBytes -/

@[simp] theorem readBytes_sel (a : Address) (n : Nat) : ((readBytes a n s).2).sel = s.sel := by
  induction n generalizing a s with
  | zero => rfl
  | succ n ih => simp [readBytes, ih]
@[simp] theorem readBytes_raw (a : Address) (n : Nat) : ((readBytes a n s).2).raw = s.raw := by
  induction n generalizing a s with
  | zero => rfl
  | succ n ih => simp [readBytes, ih]
@[simp] theorem readBytes_status (a : Address) (n : Nat) : ((readBytes a n s).2).status = s.status := by
  induction n generalizing a s with
  | zero => rfl
  | succ n ih => simp [readBytes, ih]
@[simp] theorem readBytes_offset (a : Address) (n : Nat) : ((readBytes a n s).2).offset = s.offset := by
  induction n generalizing a s with
  | zero => rfl
  | succ n ih => simp [readBytes, ih]
@[simp] theorem readBytes_init (a : Address) (n : Nat) : ((readBytes a n s).2).init = s.init := by
  induction n generalizing a s with
  | zero => rfl
  | succ n ih => simp [readBytes, ih]
@[simp] theorem readBytes_pending (a : Address) (n : Nat) : ((readBytes a n s).2).pending = s.pending := by
  induction n generalizing a s with
  | zero => rfl
  | succ n ih => simp [readBytes, ih]
@[simp] theorem readBytes_responses (a : Address) (n : Nat) : ((readBytes a n s).2).responses = s.responses := by
  induction n generalizing a s with
  | zero => rfl
  | succ n ih => simp [readBytes, ih]
@[simp] theorem readBytes_params (a : Address) (n : Nat) : ((readBytes a n s).2).params = s.params := by
  induction n generalizing a s with
  | zero => rfl
  | succ n ih => simp [readBytes, ih]

/-! ### writeBytes -/

@[simp] theorem writeBytes_sel (a : Address) (vs : List Byte) : (writeBytes a vs s).sel = s.sel := by
  induction vs generalizing a s with
  | nil => rfl
  | cons v vs ih => simp [writeBytes, ih]
@[simp] theorem writeBytes_raw (a : Address) (vs : List Byte) : (writeBytes a vs s).raw = s.raw := by
  induction vs generalizing a s with
  | nil => rfl
  | cons v vs ih => simp [writeBytes, ih]
@[simp] theorem writeBytes_status (a : Address) (vs : List Byte) : (writeBytes a vs s).status = s.status := by
  induction vs generalizing a s with
  | nil => rfl
  | cons v vs ih => simp [writeBytes, ih]
@[simp] theorem writeBytes_offset (a : Address) (vs : List Byte) : (writeBytes a vs s).offset = s.offset := by
  induction vs generalizing a s with
  | nil => rfl
  | cons v vs ih => simp [writeBytes, ih]
@[simp] theorem writeBytes_init (a : Address) (vs : List Byte) : (writeBytes a vs s).init = s.init := by
  induction vs generalizing a s with
  | nil => rfl
  | cons v vs ih => simp [writeBytes, ih]
@[simp] theorem writeBytes_pending (a : Address) (vs : List Byte) : (writeBytes a vs s).pending = s.pending := by
  induction vs generalizing a s with
  | nil => rfl
  | cons v vs ih => simp [writeBytes, ih]
@[simp] theorem writeBytes_responses (a : Address) (vs : List Byte) : (writeBytes a vs s).responses = s.responses := by
  induction vs generalizing a s with
  | nil => rfl
  | cons v vs ih => simp [writeBytes, ih]
@[simp] theorem writeBytes_params (a : Address) (vs : List Byte) : (writeBytes a vs s).params = s.params := by
  induction vs generalizing a s with
  | nil => rfl
  | cons v vs ih => simp [writeBytes, ih]

/-! ### memRead -/

@[simp] theorem memRead_sel (a : Address) (n : Nat) : ((memRead a n s).2).sel = s.sel := by simp [memRead]
@[simp] theorem memRead_raw (a : Address) (n : Nat) : ((memRead a n s).2).raw = s.raw := by simp [memRead]
@[simp] theorem memRead_status (a : Address) (n : Nat) : ((memRead a n s).2).status = s.status := by simp [memRead]
@[simp] theorem memRead_offset (a : Address) (n : Nat) : ((memRead a n s).2).offset = s.offset := by simp [memRead]
@[simp] theorem memRead_init (a : Address) (n : Nat) : ((memRead a n s).2).init = s.init := by simp [memRead]
@[simp] theorem memRead_pending (a : Address) (n : Nat) : ((memRead a n s).2).pending = s.pending := by simp [memRead]
@[simp] theorem memRead_responses (a : Address) (n : Nat) : ((memRead a n s).2).responses = s.responses := by simp [memRead]
@[simp] theorem memRead_params (a : Address) (n : Nat) : ((memRead a n s).2).params = s.params := by simp [memRead]

/-! ### memReadByte -/

@[simp] theorem memReadByte_sel (a : Address) : ((memReadByte a s).2).sel = s.sel := by simp [memReadByte]
@[simp] theorem memReadByte_raw (a : Address) : ((memReadByte a s).2).raw = s.raw := by simp [memReadByte]
@[simp] theorem memReadByte_status (a : Address) : ((memReadByte a s).2).status = s.status := by simp [memReadByte]
@[simp] theorem memReadByte_offset (a : Address) : ((memReadByte a s).2).offset = s.offset := by simp [memReadByte]
@[simp] theorem memReadByte_init (a : Address) : ((memReadByte a s).2).init = s.init := by simp [memReadByte]
@[simp] theorem memReadByte_pending (a : Address) : ((memReadByte a s).2).pending = s.pending := by simp [memReadByte]
@[simp] theorem memReadByte_responses (a : Address) : ((memReadByte a s).2).responses = s.responses := by simp [memReadByte]
@[simp] theorem memReadByte_params (a : Address) : ((memReadByte a s).2).params = s.params := by simp [memReadByte]

/-! ### memWrite -/

@[simp] theorem memWrite_sel (a : Address) (vs : List Byte) : (memWrite a vs s).sel = s.sel := by simp [memWrite]
@[simp] theorem memWrite_raw (a : Address) (vs : List Byte) : (memWrite a vs s).raw = s.raw := by simp [memWrite]
@[simp] theorem memWrite_status (a : Address) (vs : List Byte) : (memWrite a vs s).status = s.status := by simp [memWrite]
@[simp] theorem memWrite_offset (a : Address) (vs : List Byte) : (memWrite a vs s).offset = s.offset := by simp [memWrite]
@[simp] theorem memWrite_init (a : Address) (vs : List Byte) : (memWrite a vs s).init = s.init := by simp [memWrite]
@[simp] theorem memWrite_pending (a : Address) (vs : List Byte) : (memWrite a vs s).pending = s.pending := by simp [memWrite]
@[simp] theorem memWrite_responses (a : Address) (vs : List Byte) : (memWrite a vs s).responses = s.responses := by simp [memWrite]
@[simp] theorem memWrite_params (a : Address) (vs : List Byte) : (memWrite a vs s).params = s.params := by simp [memWrite]

/-! ### instrWrite -/

@[simp] theorem instrWrite_sel (c : Byte) : (instrWrite c s).sel = s.sel := by simp [instrWrite]
@[simp] theorem instrWrite_raw (c : Byte) : (instrWrite c s).raw = s.raw := by simp [instrWrite]
@[simp] theorem instrWrite_status (c : Byte) : (instrWrite c s).status = s.status := by simp [instrWrite]
@[simp] theorem instrWrite_offset (c : Byte) : (instrWrite c s).offset = s.offset := by simp [instrWrite]
@[simp] theorem instrWrite_init (c : Byte) : (instrWrite c s).init = s.init := by simp [instrWrite]
@[simp] theorem instrWrite_pending (c : Byte) : (instrWrite c s).pending = s.pending := by simp [instrWrite]
@[simp] theorem instrWrite_responses (c : Byte) : (instrWrite c s).responses = s.responses := by simp [instrWrite]
@[simp] theorem instrWrite_params (c : Byte) : (instrWrite c s).params = s.params := by simp [instrWrite]

/-! ### instrWriteBack -/

@[simp] theorem instrWriteBack_sel (c : Byte) : (instrWriteBack c s).sel = s.sel := by unfold instrWriteBack; split <;> simp
@[simp] theorem instrWriteBack_raw (c : Byte) : (instrWriteBack c s).raw = s.raw := by unfold instrWriteBack; split <;> simp
@[simp] theorem instrWriteBack_status (c : Byte) : (instrWriteBack c s).status = s.status := by unfold instrWriteBack; split <;> simp
@[simp] theorem instrWriteBack_offset (c : Byte) : (instrWriteBack c s).offset = s.offset := by unfold instrWriteBack; split <;> simp
@[simp] theorem instrWriteBack_init (c : Byte) : (instrWriteBack c s).init = s.init := by unfold instrWriteBack; split <;> simp
@[simp] theorem instrWriteBack_pending (c : Byte) : (instrWriteBack c s).pending = s.pending := by unfold instrWriteBack; split <;> simp
@[simp] theorem instrWriteBack_responses (c : Byte) : (instrWriteBack c s).responses = s.responses := by unfold instrWriteBack; split <;> simp
@[simp] theorem instrWriteBack_params (c : Byte) : (instrWriteBack c s).params = s.params := by unfold instrWriteBack; split <;> simp

/-! ### applyInstrMask -/

@[simp] theorem applyInstrMask_sel (m : Byte) (i : MaskIntent) : (applyInstrMask m i s).sel = s.sel := by simp [applyInstrMask]
@[simp] theorem applyInstrMask_raw (m : Byte) (i : MaskIntent) : (applyInstrMask m i s).raw = s.raw := by simp [applyInstrMask]
@[simp] theorem applyInstrMask_status (m : Byte) (i : MaskIntent) : (applyInstrMask m i s).status = s.status := by simp [applyInstrMask]
@[simp] theorem applyInstrMask_offset (m : Byte) (i : MaskIntent) : (applyInstrMask m i s).offset = s.offset := by simp [applyInstrMask]
@[simp] theorem applyInstrMask_init (m : Byte) (i : MaskIntent) : (applyInstrMask m i s).init = s.init := by simp [applyInstrMask]
@[simp] theorem applyInstrMask_pending (m : Byte) (i : MaskIntent) : (applyInstrMask m i s).pending = s.pending := by simp [applyInstrMask]
@[simp] theorem applyInstrMask_responses (m : Byte) (i : MaskIntent) : (applyInstrMask m i s).responses = s.responses := by simp [applyInstrMask]
@[simp] theorem applyInstrMask_params (m : Byte) (i : MaskIntent) : (applyInstrMask m i s).params = s.params := by simp [applyInstrMask]

end Sys2Proof.Machine
end

