-- ==== Sys2Proof/Laws/Bus.lean ====
section
/-! SUPPORT. What the bus operations do: the select line, the calls on the transport, and the register file. One lemma
per operation; the meanings are reasoned about through these. -/

namespace Sys2Proof.Machine

variable (s : State)

/-- The addresses of a frame, from its second byte on (rule R36). -/
theorem address_add_succ (a : Address) (i : Nat) : a + BitVec.ofNat 8 (i + 1) = (a + 1#8) + BitVec.ofNat 8 i := by
  apply BitVec.eq_of_toNat_eq; simp [BitVec.toNat_add]; omega

/-! ### The select line (rules R25, R79) -/

@[simp] theorem refreshPoint_select : s.refreshPoint.select = s.select := by simp [State.refreshPoint]
@[simp] theorem sendByte_select (o : Byte) : (sendByte o s).select = s.select := by simp [sendByte]
@[simp] theorem readByte_select (a : Address) : (readByte a s).2.select = s.select := by simp [readByte]
@[simp] theorem writeByte_select (a : Address) (v : Byte) : (writeByte a v s).select = s.select := by simp [writeByte]
@[simp] theorem frameOpen_select : (frameOpen s).select = true := rfl
@[simp] theorem frameClose_select : (frameClose s).select = false := rfl
@[simp] theorem memRead_select (a : Address) (n : Nat) : (memRead a n s).2.select = false := rfl
@[simp] theorem memReadByte_select (a : Address) : (memReadByte a s).2.select = false := rfl
@[simp] theorem memWrite_select (a : Address) (vs : List Byte) : (memWrite a vs s).select = false := rfl
@[simp] theorem instrWrite_select (c : Byte) : (instrWrite c s).select = false := rfl
@[simp] theorem instrWriteBack_select (c : Byte) : (instrWriteBack c s).select = false := by
  unfold instrWriteBack; split <;> simp
@[simp] theorem applyInstrMask_select (m : Byte) (i : MaskIntent) : (applyInstrMask m i s).select = false := by
  simp [applyInstrMask]

/-! ### The calls on the transport (rule R70) -/

@[simp] theorem refreshPoint_bus : s.refreshPoint.bus = s.bus := by simp [State.refreshPoint]

theorem sendByte_bus (o : Byte) : (sendByte o s).bus = s.bus ++ [sent o] := by simp [sendByte, sent]

theorem readByte_bus (a : Address) : (readByte a s).2.bus = s.bus ++ [received (readByte a s).1] := by
  simp [readByte, received, Config.readFill]

theorem writeByte_bus (a : Address) (v : Byte) : (writeByte a v s).bus = s.bus ++ [sent v] := by simp [writeByte, sent]

theorem readBytes_bus (a : Address) (n : Nat) :
    (readBytes a n s).2.bus = s.bus ++ (readBytes a n s).1.map received := by
  induction n generalizing a s with
  | zero => simp [readBytes]
  | succ n ih => simp [readBytes, ih, readByte_bus]

theorem writeBytes_bus (a : Address) (vs : List Byte) : (writeBytes a vs s).bus = s.bus ++ vs.map sent := by
  induction vs generalizing a s with
  | nil => simp [writeBytes]
  | cons v vs ih => simp [writeBytes, ih, writeByte_bus]

theorem frameOpen_bus : (frameOpen s).bus = s.bus ++ openCalls s.sel := by
  simp [frameOpen, openCalls, Config.busClockHz, Config.busBitOrder, Config.busMode]

theorem frameClose_bus : (frameClose s).bus = s.bus ++ closeCalls s.sel := by simp [frameClose, closeCalls]

theorem frameHead_bus (o : Byte) (a : Option Address) :
    (frameHead o a s).bus = s.bus ++ (openCalls s.sel ++ (sent o :: a.toList.map sent)) := by
  cases a <;> simp [frameHead, sendByte_bus, frameOpen_bus]

/-- An RDATA frame on the wire (rule R71). -/
theorem memRead_bus (a : Address) (n : Nat) :
    (memRead a n s).2.bus = s.bus ++ rdataCalls s.sel a (memRead a n s).1 := by
  simp [memRead, frameClose_bus, readBytes_bus, frameHead_bus, rdataCalls, Config.opcRdata]

@[simp] theorem readBytes_length (a : Address) (n : Nat) : (readBytes a n s).1.length = n := by
  induction n generalizing a s with
  | zero => rfl
  | succ n ih => simp [readBytes, ih]

@[simp] theorem memRead_length (a : Address) (n : Nat) : (memRead a n s).1.length = n := by simp [memRead]

theorem memRead_one (a : Address) : (memRead a 1 s).1 = [(memReadByte a s).1] := by
  simp [memReadByte, memRead, readBytes]

theorem memReadByte_bus (a : Address) :
    (memReadByte a s).2.bus = s.bus ++ rdataCalls s.sel a [(memReadByte a s).1] := by
  rw [← memRead_one]; exact memRead_bus s a 1

/-- A WDATA frame on the wire (rule R72). -/
theorem memWrite_bus (a : Address) (vs : List Byte) : (memWrite a vs s).bus = s.bus ++ wdataCalls s.sel a vs := by
  simp [memWrite, frameClose_bus, writeBytes_bus, frameHead_bus, wdataCalls, Config.opcWdata]

/-- A WINSTR frame on the wire (rule R77). -/
theorem instrWrite_bus (c : Byte) : (instrWrite c s).bus = s.bus ++ winstrCalls s.sel c := by
  simp [instrWrite, frameClose_bus, writeByte_bus, frameHead_bus, winstrCalls, Config.opcWinstr]

theorem instrWriteBack_bus (c : Byte) :
    (instrWriteBack c s).bus = s.bus ++ writeBackCalls s.params.lockWriteForm s.sel c := by
  unfold instrWriteBack
  split <;> rename_i h <;> simp [h, writeBackCalls, instrWrite_bus, memWrite_bus, Config.addrInstr]

/-- The two frames of a read-modify-write (rule R80). -/
theorem applyInstrMask_bus (m : Byte) (i : MaskIntent) : (applyInstrMask m i s).bus =
    s.bus ++ rdataCalls s.sel 0xF4#8 [(memReadByte 0xF4#8 s).1] ++
      writeBackCalls s.params.lockWriteForm s.sel (maskedByte m i (memReadByte 0xF4#8 s).1) := by
  simp [applyInstrMask, instrWriteBack_bus, memReadByte_bus, Config.addrInstr]

/-! ### The register file: what a refresh point may change (rules R38, R39, R41) -/

@[simp] theorem refreshPoint_rr : s.refreshPoint.rr = moved s s.nextMove := by simp [State.refreshPoint]

theorem moved_of_locked {s : State} (h : s.locked = true) (mv : Option Memory) : moved s mv = s.rr := by
  cases mv <;> simp [moved, h]

theorem read_moved {s : State} {a : Address} (h : s.locked = true ∨ a ∉ s.params.frozenSet) (mv : Option Memory) :
    Memory.read (moved s mv) a.toNat = Memory.read s.rr a.toNat := by
  cases mv with
  | none => rfl
  | some snap =>
    show Memory.read (if s.locked = true then s.rr else Memory.refreshed s.rr s.params.frozenSet snap) _ = _
    rcases h with h | h
    · simp [h]
    · split
      · rfl
      · exact Memory.read_refreshed_outside _ _ h

/-- Two states whose register files agree, as far as an address and the lock go: an address that was safe from refresh
steps in the first is so in the second and holds the same byte there. -/
def KeepsAt (s t : State) (a : Address) : Prop :=
  (s.locked = true → t.rr = s.rr) ∧ (a ∉ s.params.frozenSet → Memory.read t.rr a.toNat = Memory.read s.rr a.toNat) ∧
    t.params = s.params

theorem KeepsAt.refl (a : Address) : KeepsAt s s a := ⟨fun _ => rfl, fun _ => rfl, rfl⟩

theorem locked_of_rr {s t : State} (h : t.rr = s.rr) : t.locked = s.locked := by simp [State.locked, h]

theorem KeepsAt.trans {s t u : State} {a : Address} (h : KeepsAt s t a) (k : KeepsAt t u a) : KeepsAt s u a := by
  refine ⟨fun hl => ?_, fun ha => ?_, k.2.2.trans h.2.2⟩
  · have e := h.1 hl
    exact (k.1 (by rw [locked_of_rr e]; exact hl)).trans e
  · exact (k.2.1 (by rw [h.2.2]; exact ha)).trans (h.2.1 ha)

theorem KeepsAt.of_rr {s t : State} {a : Address} (h : t.rr = s.rr) (p : t.params = s.params) : KeepsAt s t a :=
  ⟨fun _ => h, fun _ => by rw [h], p⟩

theorem KeepsAt.steady {s t : State} {a b : Address} (h : KeepsAt s t b) (hs : Steady s a) : Steady t a := by
  refine ⟨?_, by rw [h.2.2]; exact hs.2⟩
  rcases hs.1 with hl | ha
  · exact .inl (by rw [locked_of_rr (h.1 hl)]; exact hl)
  · exact .inr (by rw [h.2.2]; exact ha)

theorem KeepsAt.read {s t : State} {a : Address} (h : KeepsAt s t a) (hs : Steady s a) :
    Memory.read t.rr a.toNat = Memory.read s.rr a.toNat := by
  rcases hs.1 with hl | ha
  · rw [h.1 hl]
  · exact h.2.1 ha

theorem refreshPoint_keeps (a : Address) : KeepsAt s s.refreshPoint a := by
  refine ⟨fun h => ?_, fun h => ?_, by simp⟩
  · simp [moved_of_locked h]
  · simp only [refreshPoint_rr]; exact read_moved (.inr h) _

theorem sendByte_keeps (o : Byte) (a : Address) : KeepsAt s (sendByte o s) a :=
  (refreshPoint_keeps s a).trans (.of_rr (by simp [sendByte]) (by simp [sendByte]))

theorem readByte_keeps (b a : Address) : KeepsAt s (readByte b s).2 a :=
  (refreshPoint_keeps s a).trans (.of_rr (by simp [readByte]) (by simp [readByte]))

theorem readBytes_keeps (b a : Address) (n : Nat) : KeepsAt s (readBytes b n s).2 a := by
  induction n generalizing b s with
  | zero => exact .refl s a
  | succ n ih => exact (readByte_keeps s b a).trans (ih _ _)

theorem frameOpen_keeps (a : Address) : KeepsAt s (frameOpen s) a := .of_rr (by simp [frameOpen]) (by simp)

theorem frameClose_keeps (a : Address) : KeepsAt s (frameClose s) a := .of_rr (by simp [frameClose]) (by simp)

theorem frameHead_keeps (o : Byte) (x : Option Address) (a : Address) : KeepsAt s (frameHead o x s) a := by
  cases x with
  | none => exact (frameOpen_keeps s a).trans (sendByte_keeps _ o a)
  | some x => exact ((frameOpen_keeps s a).trans (sendByte_keeps _ o a)).trans (sendByte_keeps _ x a)

/-- A read frame changes no register but by refresh steps (rules R37, R42). -/
theorem memRead_keeps (b a : Address) (n : Nat) : KeepsAt s (memRead b n s).2 a :=
  ((frameHead_keeps s _ _ a).trans (readBytes_keeps _ b a n)).trans (frameClose_keeps _ a)

theorem memReadByte_keeps (b a : Address) : KeepsAt s (memReadByte b s).2 a := memRead_keeps s b a 1

/-- The byte shifted in from a steady register (rule R37). -/
theorem readByte_value {s : State} {a : Address} (h : Steady s a) : (readByte a s).1 = Memory.read s.rr a.toNat := by
  have hv : a ∉ s.refreshPoint.params.volatileSet := by simpa using h.2
  simp only [readByte, State.chipByte, if_neg hv]
  exact (refreshPoint_keeps s a).read h

/-- Every byte of a read data phase, from a steady register (rules R36, R37). -/
theorem readBytes_value {s : State} (b : Address) (n i : Nat) (hi : i < n) (h : Steady s (b + BitVec.ofNat 8 i)) :
    (readBytes b n s).1.getD i 0#8 = Memory.read s.rr (b + BitVec.ofNat 8 i).toNat := by
  induction n generalizing b s i with
  | zero => omega
  | succ n ih =>
    cases i with
    | zero =>
      have e : b + BitVec.ofNat 8 0 = b := by simp
      rw [e] at h ⊢
      simpa [readBytes] using readByte_value h
    | succ i =>
      rw [address_add_succ] at h ⊢
      have k := readByte_keeps s b (b + 1#8 + BitVec.ofNat 8 i)
      have := ih (s := (readByte b s).2) (b + 1#8) i (by omega) (k.steady h)
      rw [k.read h] at this
      simpa only [readBytes, List.getD_cons_succ] using this

theorem memRead_value {s : State} (b : Address) (n i : Nat) (hi : i < n) (h : Steady s (b + BitVec.ofNat 8 i)) :
    (memRead b n s).1.getD i 0#8 = Memory.read s.rr (b + BitVec.ofNat 8 i).toNat := by
  have k := frameHead_keeps s Config.opcRdata (some b) (b + BitVec.ofNat 8 i)
  rw [← k.read h]
  exact readBytes_value b n i hi (k.steady h)

theorem memReadByte_value {s : State} {a : Address} (h : Steady s a) :
    (memReadByte a s).1 = Memory.read s.rr a.toNat := by
  have e : a + BitVec.ofNat 8 0 = a := by simp
  have := memRead_value a 1 0 (by omega) (by rw [e]; exact h)
  rw [memRead_one, e] at this
  simpa using this

/-! ### The register file after writes (rules R36, R37) -/

theorem writeByte_rr (a : Address) (v : Byte) : (writeByte a v s).rr = Memory.write (moved s s.nextMove) a.toNat v := by
  simp [writeByte]

/-- A write data phase leaves a register alone that it does not address and no refresh step touches. -/
theorem writeBytes_outside (b : Address) (vs : List Byte) {a : Address} (ha : a ∉ frameAddresses b vs.length)
    (hf : a ∉ s.params.frozenSet) : Memory.read (writeBytes b vs s).rr a.toNat = Memory.read s.rr a.toNat := by
  induction vs generalizing b s with
  | nil => rfl
  | cons v vs ih =>
    have hb : a ≠ b := fun e => ha (by simp only [frameAddresses, List.mem_map, List.mem_range]; exact ⟨0, by simp, by simp [e]⟩)
    have hrest : a ∉ frameAddresses (b + 1#8) vs.length := by
      intro hm
      simp only [frameAddresses, List.mem_map, List.mem_range] at hm
      obtain ⟨i, hi, e⟩ := hm
      refine ha ?_
      simp only [frameAddresses, List.mem_map, List.mem_range]
      refine ⟨i + 1, by simp [hi], ?_⟩
      rw [← e, address_add_succ]
    rw [writeBytes, ih _ _ hrest (by simpa using hf), writeByte_rr,
      Memory.read_write_other _ _ (fun e => hb (BitVec.eq_of_toNat_eq e)), read_moved (.inr hf)]

/-- A write data phase that does not address the instruction register keeps a locked bank locked, and changes only what it
addresses. -/
theorem writeBytes_locked (b : Address) (vs : List Byte) (hl : s.locked = true)
    (h4 : Config.addrInstr ∉ frameAddresses b vs.length) :
    (writeBytes b vs s).locked = true ∧
      ∀ a : Address, a ∉ frameAddresses b vs.length → Memory.read (writeBytes b vs s).rr a.toNat = Memory.read s.rr a.toNat := by
  induction vs generalizing b s with
  | nil => exact ⟨hl, fun _ _ => rfl⟩
  | cons v vs ih =>
    have sub : ∀ a : Address, a ∈ frameAddresses (b + 1#8) vs.length → a ∈ frameAddresses b (v :: vs).length := by
      intro a hm
      simp only [frameAddresses, List.mem_map, List.mem_range] at hm ⊢
      obtain ⟨i, hi, e⟩ := hm
      refine ⟨i + 1, by simp [hi], ?_⟩
      rw [← e, address_add_succ]
    have hb : b ∈ frameAddresses b (v :: vs).length := by
      simp only [frameAddresses, List.mem_map, List.mem_range]; exact ⟨0, by simp, by simp⟩
    have one : ∀ a : Address, a ∉ frameAddresses b (v :: vs).length →
        Memory.read (writeByte b v s).rr a.toNat = Memory.read s.rr a.toNat := by
      intro a ha
      rw [writeByte_rr, moved_of_locked hl,
        Memory.read_write_other _ _ (fun e => ha (by rw [BitVec.eq_of_toNat_eq e]; exact hb))]
    have hl' : (writeByte b v s).locked = true := by
      unfold State.locked at hl ⊢; rw [one _ h4]; exact hl
    have := ih (writeByte b v s) (b + 1#8) hl' (fun hm => h4 (sub _ hm))
    exact ⟨this.1, fun a ha => (this.2 a fun hm => ha (sub a hm)).trans (one a ha)⟩

/-- The last byte of a write data phase stands: nothing comes after its transfer in the frame. -/
theorem instrWrite_rr (c : Byte) : (instrWrite c s).rr =
    Memory.write (moved (frameHead Config.opcWinstr none s) (frameHead Config.opcWinstr none s).nextMove) Config.addrInstr.toNat c := by
  simp [instrWrite, frameClose, writeByte_rr]

theorem memWrite_one_rr (a c : Byte) : (memWrite a [c] s).rr =
    Memory.write (moved (frameHead Config.opcWdata (some a) s) (frameHead Config.opcWdata (some a) s).nextMove) a.toNat c := by
  simp [memWrite, writeBytes, frameClose, writeByte_rr]

theorem instrWriteBack_instr (c : Byte) : Memory.read (instrWriteBack c s).rr Config.addrInstr.toNat = c := by
  unfold instrWriteBack
  split <;> simp [instrWrite_rr, memWrite_one_rr]

theorem instrWriteBack_other (c : Byte) {a : Address} (ha : a ≠ Config.addrInstr)
    (h : s.locked = true ∨ a ∉ s.params.frozenSet) :
    Memory.read (instrWriteBack c s).rr a.toNat = Memory.read s.rr a.toNat := by
  have hne : a.toNat ≠ Config.addrInstr.toNat := fun e => ha (BitVec.eq_of_toNat_eq e)
  have main : ∀ (o : Byte) (x : Option Address),
      Memory.read (moved (frameHead o x s) (frameHead o x s).nextMove) a.toNat = Memory.read s.rr a.toNat := by
    intro o x
    have k := frameHead_keeps s o x a
    rcases h with h | h
    · rw [moved_of_locked (by rw [locked_of_rr (k.1 h)]; exact h), k.1 h]
    · rw [read_moved (.inr (by simpa using h)), k.2.1 h]
  unfold instrWriteBack
  split
  · rw [instrWrite_rr, Memory.read_write_other _ _ hne, main]
  · rw [memWrite_one_rr, Memory.read_write_other _ _ hne, main]

/-! ### The canonical form is kept -/

theorem wf_moved {s : State} (h : Memory.wf s.rr = true) (mv : Option Memory) : Memory.wf (moved s mv) = true := by
  cases mv with
  | none => exact h
  | some snap =>
    show Memory.wf (if s.locked = true then s.rr else Memory.refreshed s.rr s.params.frozenSet snap) = true
    split
    · exact h
    · exact Memory.wf_refreshed h _ _

theorem sendByte_rr (o : Byte) : (sendByte o s).rr = moved s s.nextMove := by simp [sendByte]
theorem readByte_rr (a : Address) : (readByte a s).2.rr = moved s s.nextMove := by simp [readByte]
@[simp] theorem frameOpen_rr : (frameOpen s).rr = s.rr := rfl
@[simp] theorem frameClose_rr : (frameClose s).rr = s.rr := rfl

theorem wf_frameHead (h : Memory.wf s.rr = true) (o : Byte) (x : Option Address) :
    Memory.wf (frameHead o x s).rr = true := by
  cases x with
  | none => rw [frameHead, sendByte_rr]; exact wf_moved h _
  | some x => rw [frameHead, sendByte_rr]; exact wf_moved (by rw [sendByte_rr]; exact wf_moved h _) _

theorem wf_readBytes (h : Memory.wf s.rr = true) (a : Address) (n : Nat) : Memory.wf (readBytes a n s).2.rr = true := by
  induction n generalizing a s with
  | zero => exact h
  | succ n ih => exact ih _ (by rw [readByte_rr]; exact wf_moved h _) _

theorem wf_writeBytes (h : Memory.wf s.rr = true) (a : Address) (vs : List Byte) :
    Memory.wf (writeBytes a vs s).rr = true := by
  induction vs generalizing a s with
  | nil => exact h
  | cons v vs ih => exact ih _ (by rw [writeByte_rr]; exact Memory.wf_write (wf_moved h _) a.isLt v) _

theorem wf_memRead (h : Memory.wf s.rr = true) (a : Address) (n : Nat) : Memory.wf (memRead a n s).2.rr = true :=
  wf_readBytes _ (wf_frameHead s h _ _) a n

theorem wf_memWrite (h : Memory.wf s.rr = true) (a : Address) (vs : List Byte) : Memory.wf (memWrite a vs s).rr = true :=
  wf_writeBytes _ (wf_frameHead s h _ _) a vs

theorem wf_instrWrite (h : Memory.wf s.rr = true) (c : Byte) : Memory.wf (instrWrite c s).rr = true := by
  rw [instrWrite_rr]; exact Memory.wf_write (wf_moved (wf_frameHead s h _ _) _) Config.addrInstr.isLt c

theorem wf_applyInstrMask (h : Memory.wf s.rr = true) (m : Byte) (i : MaskIntent) :
    Memory.wf (applyInstrMask m i s).rr = true := by
  unfold applyInstrMask instrWriteBack
  split
  · exact wf_instrWrite _ (wf_memRead s h _ _) _
  · exact wf_memWrite _ (wf_memRead s h _ _) _ _

end Sys2Proof.Machine
end

