-- ==== Sys2Proof/Laws/Decode.lean ====
section
/-! SUPPORT. The byte order of 32-bit fields, whose two directions undo each other (rule R59), and the operand ranges as
inequalities (rule R61). -/

namespace Sys2Proof

/-- Every word is the word of its bytes. -/
theorem wordOfBytes_surjective (w : Word) : ∃ a b c d, bytesOfWord w = [a, b, c, d] ∧ wordOfBytes a b c d = w := by
  refine ⟨_, _, _, _, rfl, ?_⟩
  ext i hi
  unfold wordOfBytes
  grind

/-- The bytes of a word of four bytes are those bytes. -/
theorem bytesOfWord_wordOfBytes (a b c d : Byte) : bytesOfWord (wordOfBytes a b c d) = [a, b, c, d] := by
  unfold bytesOfWord wordOfBytes
  congr 1
  · ext i hi; simp; grind
  congr 1
  · ext i hi; simp; grind
  congr 1
  · ext i hi; simp; grind
  congr 1
  · ext i hi; simp; grind

/-- A word of bytes as a number, the first byte the most significant. -/
theorem wordOfBytes_toNat (a b c d : Byte) :
    (wordOfBytes a b c d).toNat = ((a.toNat * 256 + b.toNat) * 256 + c.toNat) * 256 + d.toNat := by
  have app : ∀ {n : Nat} (x : BitVec n) (y : Byte), (x ++ y).toNat = x.toNat * 256 + y.toNat := by
    intro n x y
    rw [BitVec.toNat_append, ← Nat.shiftLeft_add_eq_or_of_lt y.isLt, Nat.shiftLeft_eq]
  unfold wordOfBytes
  rw [app, app, app]

@[simp] theorem bytesOfWord_length (w : Word) : (bytesOfWord w).length = 4 := rfl

@[simp] theorem readLengthOk_iff (n : Nat) : readLengthOk n = true ↔ 1 ≤ n ∧ n ≤ 4 := by
  rw [readLengthOk, Bool.and_eq_true, decide_eq_true_eq, decide_eq_true_eq]; rfl

@[simp] theorem writeLengthOk_iff (n : Nat) : writeLengthOk n = true ↔ 1 ≤ n ∧ n ≤ 255 := by
  rw [writeLengthOk, Bool.and_eq_true, decide_eq_true_eq, decide_eq_true_eq]; rfl

/-- The command byte of a packet that decodes is one of the thirteen of rule R60. -/
theorem decodePacket_code {c : Byte} {rest : List Byte} {i : Instr} (h : decodePacket (c :: rest) = .ok i) :
    c = 0x80#8 ∨ c = 0x81#8 ∨ c = 0x82#8 ∨ c = 0x83#8 ∨ c = 0x84#8 ∨ c = 0x85#8 ∨ c = 0x86#8 ∨ c = 0x87#8 ∨
      c = 0x88#8 ∨ c = 0x89#8 ∨ c = 0x8A#8 ∨ c = 0x8B#8 ∨ c = 0x8C#8 := by
  by_contra hn
  simp only [not_or] at hn
  simp [decodePacket, Config.codeConstruct, Config.codeReadReg, Config.codeWriteReg, Config.codeWriteInstr,
    Config.codeLock, Config.codeUnlock, Config.codeClassify, Config.codeGetRaw, Config.codeToPhys, Config.codeGetPos,
    Config.codeGetStatus, Config.codeGetVersion, Config.codeGetRevision, hn] at h

/-- The opcode byte of a frame that decodes is one of the six of rule R52. -/
theorem decodeFrame_opcode {o : Byte} {rest : List Byte} {i : Instr} (h : decodeFrame (o :: rest) = .ok i) :
    o = 0x02#8 ∨ o = 0x03#8 ∨ o = 0x05#8 ∨ o = 0x07#8 ∨ o = 0x09#8 ∨ o = 0x0B#8 := by
  by_contra hn
  simp only [not_or] at hn
  simp [decodeFrame, Config.opcWdata, Config.opcRdata, Config.opcRstatus, Config.opcWinstr, Config.opcRdataf,
    Config.opcWdataf, hn] at h

end Sys2Proof
end

