-- ==== Sys2Proof/Laws/Quiet.lean ====
section
/-! SUPPORT. Frames during which the refresh agent makes no step (`Quiet`): every read gives what the register holds, and
nothing changes but by the frame itself. -/

namespace Sys2Proof.Machine

variable {s : State} {k : Nat}

/-! ### Addresses of a frame -/

theorem mem_frameAddresses {a x : Address} {n : Nat} : x ∈ frameAddresses a n ↔ ∃ i < n, a + BitVec.ofNat 8 i = x := by
  simp [frameAddresses]

theorem mem_frameAddresses_tail {a x : Address} {n : Nat} (h : x ∈ frameAddresses (a + 1#8) n) :
    x ∈ frameAddresses a (n + 1) := by
  obtain ⟨i, hi, e⟩ := mem_frameAddresses.mp h
  exact mem_frameAddresses.mpr ⟨i + 1, by omega, by rw [address_add_succ, e]⟩

theorem mem_frameAddresses_head (a : Address) (n : Nat) : a ∈ frameAddresses a (n + 1) :=
  mem_frameAddresses.mpr ⟨0, by omega, by simp⟩

/-- A frame of at most 256 bytes addresses no register twice. -/
theorem head_not_mem_tail (a : Address) {n : Nat} (h : n ≤ 255) : a ∉ frameAddresses (a + 1#8) n := by
  intro hm
  obtain ⟨i, hi, e⟩ := mem_frameAddresses.mp hm
  have := congrArg BitVec.toNat e
  simp [BitVec.toNat_add] at this
  omega

/-! ### Points and frames without a refresh step -/

theorem Quiet.mono {n : Nat} (h : Quiet s n) (hk : k ≤ n) : Quiet s k := by
  obtain ⟨rest, e⟩ := h
  exact ⟨List.replicate (n - k) none ++ rest, by rw [e, ← List.append_assoc, List.replicate_append_replicate]; congr 2; omega⟩

theorem Quiet.of_moves {t : State} (h : Quiet s k) (e : t.moves = s.moves) : Quiet t k := by
  obtain ⟨rest, r⟩ := h
  exact ⟨rest, e.trans r⟩

theorem Quiet.refreshPoint (h : Quiet s (k + 1)) : s.refreshPoint.rr = s.rr ∧ Quiet s.refreshPoint k := by
  obtain ⟨rest, e⟩ := h
  have e' : s.moves = none :: (List.replicate k none ++ rest) := by rw [e, List.replicate_succ]; rfl
  refine ⟨?_, rest, ?_⟩
  · rw [refreshPoint_rr]; simp [State.nextMove, e', moved]
  · simp [State.refreshPoint, State.dropMove, e', State.setRr]

theorem Quiet.sendByte (h : Quiet s (k + 1)) (o : Byte) :
    (Machine.sendByte o s).rr = s.rr ∧ Quiet (Machine.sendByte o s) k := ⟨h.refreshPoint.1, h.refreshPoint.2⟩

theorem Quiet.frameHead_two (h : Quiet s (k + 2)) (o : Byte) (a : Address) :
    (frameHead o (some a) s).rr = s.rr ∧ Quiet (frameHead o (some a) s) k := by
  have h1 : Quiet (frameOpen s) (k + 1 + 1) := h
  have h2 := h1.sendByte o
  have h3 := h2.2.sendByte a
  exact ⟨h3.1.trans h2.1, h3.2⟩

theorem Quiet.frameHead_one (h : Quiet s (k + 1)) (o : Byte) :
    (frameHead o none s).rr = s.rr ∧ Quiet (frameHead o none s) k := by
  have h1 : Quiet (frameOpen s) (k + 1) := h
  exact h1.sendByte o

theorem Quiet.readByte (h : Quiet s (k + 1)) (a : Address) : (Machine.readByte a s).2.rr = s.rr ∧
    Quiet (Machine.readByte a s).2 k ∧ (a ∉ s.params.volatileSet → (Machine.readByte a s).1 = Memory.read s.rr a.toNat) := by
  refine ⟨h.refreshPoint.1, h.refreshPoint.2, fun hv => ?_⟩
  have hv' : a ∉ s.refreshPoint.params.volatileSet := by simpa [State.refreshPoint] using hv
  simp only [Machine.readByte, State.chipByte, if_neg hv', h.refreshPoint.1]

theorem Quiet.readBytes {n : Nat} (h : Quiet s (n + k)) (a : Address) :
    (Machine.readBytes a n s).2.rr = s.rr ∧ Quiet (Machine.readBytes a n s).2 k ∧
    ∀ i < n, a + BitVec.ofNat 8 i ∉ s.params.volatileSet →
      (Machine.readBytes a n s).1.getD i 0#8 = Memory.read s.rr (a + BitVec.ofNat 8 i).toNat := by
  induction n generalizing a s with
  | zero => exact ⟨rfl, h.mono (by omega), fun i hi => absurd hi (by omega)⟩
  | succ n ih =>
    obtain ⟨r1, q1, v1⟩ := (h.mono (k := n + k + 1) (by omega)).readByte a
    obtain ⟨r2, q2, v2⟩ := ih q1 (a + 1#8)
    refine ⟨r2.trans r1, q2, fun i hi hv => ?_⟩
    cases i with
    | zero =>
      have e : a + BitVec.ofNat 8 0 = a := by simp
      rw [e] at hv ⊢
      exact v1 hv
    | succ i =>
      rw [address_add_succ] at hv ⊢
      rw [← r1]
      exact v2 i (by omega) (by simpa using hv)

/-- One read frame while the agent makes no step. -/
theorem Quiet.memRead {n : Nat} (h : Quiet s (2 + n + k)) (a : Address) :
    (Machine.memRead a n s).2.rr = s.rr ∧ Quiet (Machine.memRead a n s).2 k ∧
    ∀ i < n, a + BitVec.ofNat 8 i ∉ s.params.volatileSet →
      (Machine.memRead a n s).1.getD i 0#8 = Memory.read s.rr (a + BitVec.ofNat 8 i).toNat := by
  obtain ⟨r0, q0⟩ := (h.mono (k := n + k + 2) (by omega)).frameHead_two Config.opcRdata a
  obtain ⟨r1, q1, v1⟩ := q0.readBytes a
  refine ⟨r1.trans r0, q1, fun i hi hv => ?_⟩
  rw [← r0]
  exact v1 i hi (by simpa using hv)

theorem Quiet.memReadByte (h : Quiet s (3 + k)) (a : Address) : (Machine.memReadByte a s).2.rr = s.rr ∧
    Quiet (Machine.memReadByte a s).2 k ∧
    (a ∉ s.params.volatileSet → (Machine.memReadByte a s).1 = Memory.read s.rr a.toNat) := by
  obtain ⟨r, q, v⟩ := Quiet.memRead (n := 1) h a
  refine ⟨r, q, fun hv => ?_⟩
  have e := v 0 (by omega) (by simpa using hv)
  rw [memRead_one] at e
  simpa using e

theorem Quiet.writeByte (h : Quiet s (k + 1)) (a : Address) (v : Byte) :
    (Machine.writeByte a v s).rr = Memory.write s.rr a.toNat v ∧ Quiet (Machine.writeByte a v s) k := by
  refine ⟨?_, h.refreshPoint.2⟩
  rw [writeByte_rr, ← refreshPoint_rr, h.refreshPoint.1]

/-- A write data phase while the agent makes no step: its registers hold its bytes, the others what they held. -/
theorem Quiet.writeBytes (vs : List Byte) (a : Address) (hn : vs.length ≤ 256) (h : Quiet s vs.length) :
    (∀ i < vs.length, Memory.read (Machine.writeBytes a vs s).rr (a + BitVec.ofNat 8 i).toNat = vs.getD i 0#8) ∧
    ∀ x : Address, x ∉ frameAddresses a vs.length →
      Memory.read (Machine.writeBytes a vs s).rr x.toNat = Memory.read s.rr x.toNat := by
  induction vs generalizing a s with
  | nil => exact ⟨fun i hi => absurd hi (by simp), fun _ _ => rfl⟩
  | cons v vs ih =>
    simp only [List.length_cons] at hn h
    obtain ⟨r, q⟩ := h.writeByte a v
    obtain ⟨h1, h2⟩ := ih (a + 1#8) (by omega) q
    constructor
    · intro i hi
      cases i with
      | zero =>
        have e : a + BitVec.ofNat 8 0 = a := by simp
        rw [e, Machine.writeBytes, h2 a (head_not_mem_tail a (by omega)), r]
        simp
      | succ i =>
        rw [address_add_succ, Machine.writeBytes, h1 i (by simpa using hi)]
        simp
    · intro x hx
      have hne : x.toNat ≠ a.toNat := fun e => hx (by
        rw [BitVec.eq_of_toNat_eq e]; exact mem_frameAddresses_head a _)
      rw [Machine.writeBytes, h2 x (fun hm => hx (mem_frameAddresses_tail hm)), r, Memory.read_write_other _ _ hne]

/-- One instruction write while the agent makes no step. -/
theorem Quiet.instrWrite (h : Quiet s 2) (c : Byte) :
    (Machine.instrWrite c s).rr = Memory.write s.rr Config.addrInstr.toNat c := by
  obtain ⟨r, q⟩ := (show Quiet s (1 + 1) from h).frameHead_one Config.opcWinstr
  have e := (show Quiet _ (0 + 1) from q).refreshPoint.1
  rw [refreshPoint_rr] at e
  rw [instrWrite_rr, e, r]

/-- The write-back while the agent makes no step: nothing changes but the instruction register. -/
theorem Quiet.instrWriteBack {n : Nat} (h : Quiet s n) (hn : maskPoints s.params.lockWriteForm = 3 + n) (c : Byte) :
    (Machine.instrWriteBack c s).rr = Memory.write s.rr Config.addrInstr.toNat c := by
  unfold Machine.instrWriteBack
  cases hf : s.params.lockWriteForm <;> rw [hf] at hn
  · obtain rfl : n = 2 := by change 5 = 3 + n at hn; omega
    exact h.instrWrite c
  · obtain rfl : n = 3 := by change 6 = 3 + n at hn; omega
    obtain ⟨r, q⟩ := (show Quiet s (1 + 2) from h).frameHead_two Config.opcWdata Config.addrInstr
    have e := (show Quiet _ (0 + 1) from q).refreshPoint.1
    rw [refreshPoint_rr] at e
    rw [memWrite_one_rr, e, r]

end Sys2Proof.Machine
end

