-- ==== Sys2Proof/Laws/Effects.lean ====
section
/-! SUPPORT. One spec lemma per shared operation: what a read frame, a write frame, an instruction write and a
read-modify-write do, in the terms of Safety.lean. The meanings' proofs cite these. -/

namespace Sys2Proof.Machine

/-! ### Reads -/

theorem RegistersKept.of_keeps {s t : State} (h : ∀ a, KeepsAt s t a) : RegistersKept s t :=
  ⟨(h 0#8).1, fun x hx => by
    rcases hx with hx | hx
    · rw [(h x).1 hx]
    · exact (h x).2.1 hx⟩

/-- What one read frame does. -/
theorem memRead_effect (s : State) (a : Address) (n : Nat) : ReadEffect s (memRead a n s).2 a (memRead a n s).1 :=
  ⟨memRead_bus s a n, fun i hi hs hv => by
    rw [memRead_length] at hi hs
    rcases hs with hs | hq
    · exact memRead_value a n i hi ⟨hs, hv⟩
    · exact (Quiet.memRead (k := 0) hq a).2.2 i hi hv,
    .of_keeps fun x => memRead_keeps s a x n, fun hq => by
    rw [memRead_length] at hq
    exact (Quiet.memRead (k := 0) hq a).1⟩

theorem memReadByte_effect (s : State) (a : Address) : ReadEffect s (memReadByte a s).2 a [(memReadByte a s).1] := by
  rw [← memRead_one]; exact memRead_effect s a 1

theorem memRead_handle (s : State) (a : Address) (n : Nat) : SameHandle s (memRead a n s).2 := by
  simp [SameHandle, SameSetup]

/-! ### Writes -/

theorem KeepsAt.safeInWrite {s t : State} {a x y : Address} {n : Nat} (h : KeepsAt s t y) (hs : SafeInWrite s a n x) :
    SafeInWrite t a n x := by
  rcases hs with hs | ⟨hl, h4⟩
  · exact .inl (by rw [h.2.2]; exact hs)
  · exact .inr ⟨by rw [locked_of_rr (h.1 hl)]; exact hl, h4⟩

theorem KeepsAt.read_safeInWrite {s t : State} {a x : Address} {n : Nat} (h : KeepsAt s t x) (hs : SafeInWrite s a n x) :
    Memory.read t.rr x.toNat = Memory.read s.rr x.toNat := by
  rcases hs with hs | ⟨hl, -⟩
  · exact h.2.1 hs
  · rw [h.1 hl]

theorem writeBytes_other (s : State) (a : Address) (vs : List Byte) {x : Address} (hx : x ∉ frameAddresses a vs.length)
    (hs : SafeInWrite s a vs.length x) : Memory.read (writeBytes a vs s).rr x.toNat = Memory.read s.rr x.toNat := by
  rcases hs with hs | ⟨hl, h4⟩
  · exact writeBytes_outside s a vs hx hs
  · exact (writeBytes_locked s a vs hl h4).2 x hx

theorem writeByte_locked {s : State} {a v : Byte} (hl : s.locked = true) (ha : a ≠ 0xF4#8) :
    (writeByte a v s).locked = true := by
  have : Config.addrInstr.toNat ≠ a.toNat := fun e => ha (BitVec.eq_of_toNat_eq e).symm
  unfold State.locked at hl ⊢
  rw [writeByte_rr, moved_of_locked hl, Memory.read_write_other _ _ this]
  exact hl

theorem writeBytes_value (s : State) (a : Address) (vs : List Byte) (hn : vs.length ≤ 256) (i : Nat) (hi : i < vs.length)
    (hs : i + 1 = vs.length ∨ SafeInWrite s a vs.length (a + BitVec.ofNat 8 i)) :
    Memory.read (writeBytes a vs s).rr (a + BitVec.ofNat 8 i).toNat = vs.getD i 0#8 := by
  induction vs generalizing a s i with
  | nil => simp at hi
  | cons v vs ih =>
    simp only [List.length_cons] at hn hi hs
    have tail_safe : ∀ x, SafeInWrite s a (vs.length + 1) x → SafeInWrite (writeByte a v s) (a + 1#8) vs.length x := by
      rintro x (hx | ⟨hl, h4⟩)
      · exact .inl (by simpa using hx)
      · exact .inr ⟨writeByte_locked hl fun e => h4 (by rw [← e]; exact mem_frameAddresses_head a _),
          fun hm => h4 (mem_frameAddresses_tail hm)⟩
    cases i with
    | zero =>
      have e : a + BitVec.ofNat 8 0 = a := by simp
      rw [e] at hs ⊢
      cases vs with
      | nil => simp [writeBytes, writeByte_rr]
      | cons w vs =>
        have hs' := hs.resolve_left (by simp)
        rw [writeBytes, writeBytes_other _ _ _ (head_not_mem_tail a (by simp only [List.length_cons] at hn ⊢; omega)) (tail_safe a hs'), writeByte_rr]
        simp
    | succ i =>
      rw [address_add_succ] at hs ⊢
      exact ih _ _ (by omega) i (by omega) (hs.imp (by omega) (tail_safe _))

/-- What one write frame does. -/
theorem memWrite_effect (s : State) (a : Address) (vs : List Byte) (hn : vs.length ≤ 255) :
    WriteEffect s (memWrite a vs s) a vs := by
  have k := fun x => frameHead_keeps s Config.opcWdata (some a) x
  have quiet : Quiet s (2 + vs.length) → (frameHead Config.opcWdata (some a) s).rr = s.rr ∧
      Quiet (frameHead Config.opcWdata (some a) s) vs.length := fun hq =>
    (hq.mono (k := vs.length + 2) (by omega)).frameHead_two Config.opcWdata a
  refine ⟨memWrite_bus s a vs, fun i hi hs => ?_, fun x hx hs => ?_⟩
  · rcases hs with hs | hs | hq
    · exact writeBytes_value _ a vs (by omega) i hi (.inl hs)
    · exact writeBytes_value _ a vs (by omega) i hi (.inr ((k 0#8).safeInWrite hs))
    · exact ((quiet hq).2.writeBytes vs a (by omega)).1 i hi
  · rcases hs with hs | hq
    · exact (writeBytes_other _ a vs hx ((k 0#8).safeInWrite hs)).trans ((k x).read_safeInWrite hs)
    · exact (((quiet hq).2.writeBytes vs a (by omega)).2 x hx).trans (by rw [(quiet hq).1])

/-- What one instruction write does. -/
theorem instrWrite_effect (s : State) (c : Byte) : InstrEffect s (instrWrite c s) c := by
  refine ⟨instrWrite_bus s c, by rw [instrWrite_rr]; exact Memory.read_write_same _ _ _, fun x hx hs => ?_⟩
  have hne : x.toNat ≠ Config.addrInstr.toNat := fun e => hx (BitVec.eq_of_toNat_eq e)
  have k := frameHead_keeps s Config.opcWinstr none x
  rcases hs with hs | hq
  case inr => rw [hq.instrWrite, Memory.read_write_other _ _ hne]
  rw [instrWrite_rr, Memory.read_write_other _ _ hne]
  rcases hs with h | h
  · rw [moved_of_locked (by rw [locked_of_rr (k.1 h)]; exact h), k.1 h]
  · rw [read_moved (.inr (by simpa using h)), k.2.1 h]

theorem memWrite_handle (s : State) (a : Address) (vs : List Byte) : SameHandle s (memWrite a vs s) := by
  simp [SameHandle, SameSetup]

theorem instrWrite_handle (s : State) (c : Byte) : SameHandle s (instrWrite c s) := by
  simp [SameHandle, SameSetup]

/-! ### The read-modify-write -/

theorem KeepsAt.safe {s t : State} {x y : Address} (h : KeepsAt s t y) (hs : Safe s x) : Safe t x := by
  rcases hs with hs | hs
  · exact .inl (by rw [locked_of_rr (h.1 hs)]; exact hs)
  · exact .inr (by rw [h.2.2]; exact hs)

theorem KeepsAt.read_safe {s t : State} {x : Address} (h : KeepsAt s t x) (hs : Safe s x) :
    Memory.read t.rr x.toNat = Memory.read s.rr x.toNat := by
  rcases hs with hs | hs
  · rw [h.1 hs]
  · exact h.2.1 hs

/-- What one read-modify-write does: the byte written back is the masked byte that was read. -/
theorem applyInstrMask_effect (s : State) (m : Byte) (i : MaskIntent) :
    MaskEffect s (applyInstrMask m i s) (memReadByte 0xF4#8 s).1 (maskedByte m i (memReadByte 0xF4#8 s).1) := by
  refine ⟨applyInstrMask_bus s m i, fun hs hv => ?_, instrWriteBack_instr _ _, fun x hx hs => ?_⟩
  · rcases hs with hs | hq
    · exact memReadByte_value ⟨hs, hv⟩
    · exact (Quiet.memReadByte (k := 0) hq 0xF4#8).2.2 hv
  · have k := memReadByte_keeps s 0xF4#8 x
    rcases hs with hs | hq
    · exact (instrWriteBack_other (memReadByte 0xF4#8 s).2 _ hx (k.safe hs)).trans (k.read_safe hs)
    · have hne : x.toNat ≠ Config.addrInstr.toNat := fun e => hx (BitVec.eq_of_toNat_eq e)
      obtain ⟨n, hn⟩ : ∃ n, maskPoints s.params.lockWriteForm = 3 + n := by
        cases s.params.lockWriteForm
        · exact ⟨2, rfl⟩
        · exact ⟨3, rfl⟩
      rw [hn] at hq
      obtain ⟨r, q, -⟩ := Quiet.memReadByte (k := n) hq 0xF4#8
      have e : (applyInstrMask m i s).rr = _ := q.instrWriteBack (by rw [memReadByte_params, hn])
        (maskedByte m i (memReadByte 0xF4#8 s).1)
      rw [e, Memory.read_write_other _ _ hne, r]

theorem applyInstrMask_handle (s : State) (m : Byte) (i : MaskIntent) : SameHandle s (applyInstrMask m i s) := by
  simp [SameHandle, SameSetup]

theorem maskedByte_set (iv : Byte) : maskedByte Config.lockMask .set iv = iv ||| 0x40#8 := rfl

theorem maskedByte_clear (iv : Byte) : maskedByte Config.lockMask .clear iv = iv &&& 0xBF#8 := rfl

theorem locked_eq (s : State) : s.locked = (Memory.read s.rr 0xF4).getLsbD 6 := rfl

theorem or_lockMask_bit (iv : Byte) : (iv ||| 0x40#8).getLsbD 6 = true := by simp

theorem and_notLockMask_bit (iv : Byte) : (iv &&& 0xBF#8).getLsbD 6 = false := by simp

/-- After the lock's write-back the bank is locked, whatever the byte that was read (rule R81). -/
@[simp] theorem applyInstrMask_set_locked (s : State) : (applyInstrMask Config.lockMask .set s).locked = true := by
  rw [locked_eq, (applyInstrMask_effect s _ _).2.2.1, maskedByte_set]; exact or_lockMask_bit _

/-- After the unlock's write-back the bank is unlocked, whatever the byte that was read (rule R82). -/
@[simp] theorem applyInstrMask_clear_locked (s : State) : (applyInstrMask Config.lockMask .clear s).locked = false := by
  rw [locked_eq, (applyInstrMask_effect s _ _).2.2.1, maskedByte_clear]; exact and_notLockMask_bit _

/-! ### The effects speak of the bus trace and the register file only -/

theorem ReadEffect.congr {s t u : State} {a : Address} {bs : List Byte} (h : ReadEffect s t a bs) (hb : u.bus = t.bus)
    (hr : u.rr = t.rr) : ReadEffect s u a bs :=
  ⟨hb.trans h.1, h.2.1, ⟨fun hl => hr.trans (h.2.2.1.1 hl), fun x hx => by rw [hr]; exact h.2.2.1.2 x hx⟩,
    fun hq => hr.trans (h.2.2.2 hq)⟩

theorem WriteEffect.congr {s t u : State} {a : Address} {vs : List Byte} (h : WriteEffect s t a vs) (hb : u.bus = t.bus)
    (hr : u.rr = t.rr) : WriteEffect s u a vs :=
  ⟨hb.trans h.1, fun i hi hs => by rw [hr]; exact h.2.1 i hi hs, fun x hx hs => by rw [hr]; exact h.2.2 x hx hs⟩

theorem InstrEffect.congr {s t u : State} {c : Byte} (h : InstrEffect s t c) (hb : u.bus = t.bus) (hr : u.rr = t.rr) :
    InstrEffect s u c :=
  ⟨hb.trans h.1, by rw [hr]; exact h.2.1, fun x hx hs => by rw [hr]; exact h.2.2 x hx hs⟩

theorem MaskEffect.congr {s t u : State} {iv new : Byte} (h : MaskEffect s t iv new) (hb : u.bus = t.bus)
    (hr : u.rr = t.rr) : MaskEffect s u iv new :=
  ⟨hb.trans h.1, h.2.1, by rw [hr]; exact h.2.2.1, fun x hx hs => by rw [hr]; exact h.2.2.2 x hx hs⟩

end Sys2Proof.Machine
end

