-- ==== Sys2Proof/Laws/Pipeline.lean ====
section
/-! SUPPORT. The poll (rules R100 to R105): what it leaves alone, and one lemma that says all it does. -/

namespace Sys2Proof.Machine

variable (s : State)

/-! ### Assembly of bytes (rule R58) -/

/-- The fold of up to four bytes is the word of those bytes behind zeros (rule R73). -/
theorem foldBytes_eq (bs : List Byte) (h : bs.length ≤ 4) : ∃ a b c d : Byte,
    List.replicate (4 - bs.length) 0x00#8 ++ bs = [a, b, c, d] ∧ foldBytes bs = wordOfBytes a b c d := by
  rcases bs with _ | ⟨x0, _ | ⟨x1, _ | ⟨x2, _ | ⟨x3, _ | ⟨x4, r⟩⟩⟩⟩⟩
  · exact ⟨_, _, _, _, rfl, by decide⟩
  · exact ⟨_, _, _, _, rfl, by unfold foldBytes wordOfBytes; ext i hi; simp; grind⟩
  · exact ⟨_, _, _, _, rfl, by unfold foldBytes wordOfBytes; ext i hi; simp; grind⟩
  · exact ⟨_, _, _, _, rfl, by unfold foldBytes wordOfBytes; ext i hi; simp; grind⟩
  · exact ⟨_, _, _, _, rfl, by unfold foldBytes wordOfBytes; ext i hi; simp; grind⟩
  · simp only [List.length_cons] at h; omega

/-- The mask of rule R102 as the source writes it. -/
theorem rawMask_eq : Config.rawMask = 0x03FFFFFF#32 := rfl

/-! ### The six reads under the lock -/

/-- The four reads, one after the other. -/
theorem readComposite_snd : (readComposite s).2 = (memReadByte 0x03#8 (memReadByte 0x02#8 (memReadByte 0x01#8
    (memReadByte 0x00#8 s).2).2).2).2 := rfl

/-- The composite of the four bytes they give. -/
theorem readComposite_fst : (readComposite s).1 = packSample [(memReadByte 0x00#8 s).1,
    (memReadByte 0x01#8 (memReadByte 0x00#8 s).2).1,
    (memReadByte 0x02#8 (memReadByte 0x01#8 (memReadByte 0x00#8 s).2).2).1,
    (memReadByte 0x03#8 (memReadByte 0x02#8 (memReadByte 0x01#8 (memReadByte 0x00#8 s).2).2).2).1] := rfl

@[simp] theorem readComposite_sel : (readComposite s).2.sel = s.sel := by simp [readComposite_snd]
@[simp] theorem readComposite_raw : (readComposite s).2.raw = s.raw := by simp [readComposite_snd]
@[simp] theorem readComposite_status : (readComposite s).2.status = s.status := by simp [readComposite_snd]
@[simp] theorem readComposite_offset : (readComposite s).2.offset = s.offset := by simp [readComposite_snd]
@[simp] theorem readComposite_init : (readComposite s).2.init = s.init := by simp [readComposite_snd]
@[simp] theorem readComposite_pending : (readComposite s).2.pending = s.pending := by simp [readComposite_snd]
@[simp] theorem readComposite_responses : (readComposite s).2.responses = s.responses := by simp [readComposite_snd]
@[simp] theorem readComposite_params : (readComposite s).2.params = s.params := by simp [readComposite_snd]

@[simp] theorem classifyBank_sel : (classifyBank s).sel = s.sel := by simp [classifyBank]
@[simp] theorem classifyBank_raw : (classifyBank s).raw = s.raw := by simp [classifyBank]
@[simp] theorem classifyBank_offset : (classifyBank s).offset = s.offset := by simp [classifyBank]
@[simp] theorem classifyBank_init : (classifyBank s).init = s.init := by simp [classifyBank]
@[simp] theorem classifyBank_pending : (classifyBank s).pending = s.pending := by simp [classifyBank]
@[simp] theorem classifyBank_responses : (classifyBank s).responses = s.responses := by simp [classifyBank]
@[simp] theorem classifyBank_params : (classifyBank s).params = s.params := by simp [classifyBank]

variable (c : Word)

@[simp] theorem commit_sel : (commit c s).sel = s.sel := by unfold commit; split <;> simp
@[simp] theorem commit_status : (commit c s).status = s.status := by unfold commit; split <;> simp
@[simp] theorem commit_offset : (commit c s).offset = s.offset := by unfold commit; split <;> simp
@[simp] theorem commit_init : (commit c s).init = s.init := by unfold commit; split <;> simp
@[simp] theorem commit_pending : (commit c s).pending = s.pending := by unfold commit; split <;> simp
@[simp] theorem commit_responses : (commit c s).responses = s.responses := by unfold commit; split <;> simp
@[simp] theorem commit_params : (commit c s).params = s.params := by unfold commit; split <;> simp
@[simp] theorem commit_rr : (commit c s).rr = s.rr := by unfold commit; split <;> simp
@[simp] theorem commit_bus : (commit c s).bus = s.bus := by unfold commit; split <;> simp
@[simp] theorem commit_moves : (commit c s).moves = s.moves := by unfold commit; split <;> simp
@[simp] theorem commit_draws : (commit c s).draws = s.draws := by unfold commit; split <;> simp

theorem commit_raw : (commit c s).raw = if s.status = .noErrors then c else s.raw := by
  unfold commit; split <;> simp

/-! ### The poll -/

@[simp] theorem poll_sel : (poll s).sel = s.sel := by simp [poll]
@[simp] theorem poll_offset : (poll s).offset = s.offset := by simp [poll]
@[simp] theorem poll_init : (poll s).init = s.init := by simp [poll]
@[simp] theorem poll_pending : (poll s).pending = s.pending := by simp [poll]
@[simp] theorem poll_responses : (poll s).responses = s.responses := by simp [poll]
@[simp] theorem poll_params : (poll s).params = s.params := by simp [poll]
@[simp] theorem poll_select : (poll s).select = false := by simp [poll]
@[simp] theorem poll_locked : (poll s).locked = false := by simp [poll]

/-- Under the lock a single-byte read changes no register and reads the locked register file, unless the register is one
of `VOLATILE_SET` (rule R39). -/
theorem memReadByte_of_locked {s : State} (h : s.locked = true) (a : Address) : (memReadByte a s).2.rr = s.rr ∧
    (memReadByte a s).2.locked = true ∧ (a ∉ s.params.volatileSet → (memReadByte a s).1 = Memory.read s.rr a.toNat) := by
  have e : (memReadByte a s).2.rr = s.rr := (memReadByte_keeps s a 0#8).1 h
  exact ⟨e, by rw [locked_of_rr e]; exact h, fun hv => memReadByte_value ⟨.inl h, hv⟩⟩

/-- The composite of four bytes as a concatenation (rules R32, R101). -/
theorem packSample_eq (b0 b1 b2 b3 : Byte) : packSample [b0, b1, b2, b3] = b3 ++ b2 ++ b1 ++ b0 := by
  unfold packSample
  ext i hi
  simp
  grind

/-- The two reads of the classification, and the status it stores (rule R103). -/
theorem classifyBank_effect {s : State} (h : s.locked = true) : ∃ (esc val : Byte) (noMatch : Status),
    (classifyBank s).bus = s.bus ++ (rdataCalls s.sel 0xF0#8 [esc] ++ rdataCalls s.sel 0xF1#8 [val]) ∧
    (classifyBank s).rr = s.rr ∧
    (0xF0#8 ∉ s.params.volatileSet → esc = Memory.read s.rr 0xF0) ∧
    (0xF1#8 ∉ s.params.volatileSet → val = Memory.read s.rr 0xF1) ∧
    (s.params.noMatch = .hold → noMatch = s.status) ∧
    (classifyBank s).status = classify s.params.alarmRecovery noMatch esc (val == 2#8) s.status := by
  obtain ⟨e1, l1, v1⟩ := memReadByte_of_locked h Config.encStatusAddr
  obtain ⟨e2, l2, v2⟩ := memReadByte_of_locked l1 Config.addrValidity
  refine ⟨(memReadByte Config.encStatusAddr s).1, (memReadByte Config.addrValidity (memReadByte Config.encStatusAddr s).2).1,
    (memReadByte Config.addrValidity (memReadByte Config.encStatusAddr s).2).2.noMatchAnswer s.status, ?_, ?_, v1, ?_, ?_, ?_⟩
  · simp [classifyBank, memReadByte_bus, Config.encStatusAddr, Config.addrValidity]
  · simp [classifyBank, e1, e2]
  · intro hv
    rw [v2 (by simpa [Config.addrValidity] using hv), e1]; rfl
  · intro hh; simp [State.noMatchAnswer, hh]
  · simp [classifyBank, State.classified, validByte, Config.validSentinel]

/-- The four sample reads (rule R101). -/
theorem readComposite_effect {s : State} (h : s.locked = true) : ∃ b0 b1 b2 b3 : Byte,
    (readComposite s).1 = packSample [b0, b1, b2, b3] ∧
    (readComposite s).2.bus = s.bus ++ (rdataCalls s.sel 0x00#8 [b0] ++ rdataCalls s.sel 0x01#8 [b1] ++
      rdataCalls s.sel 0x02#8 [b2] ++ rdataCalls s.sel 0x03#8 [b3]) ∧
    (readComposite s).2.rr = s.rr ∧
    (0x00#8 ∉ s.params.volatileSet → b0 = Memory.read s.rr 0x00) ∧
    (0x01#8 ∉ s.params.volatileSet → b1 = Memory.read s.rr 0x01) ∧
    (0x02#8 ∉ s.params.volatileSet → b2 = Memory.read s.rr 0x02) ∧
    (0x03#8 ∉ s.params.volatileSet → b3 = Memory.read s.rr 0x03) := by
  obtain ⟨e0, l0, v0⟩ := memReadByte_of_locked h 0x00#8
  obtain ⟨e1, l1, v1⟩ := memReadByte_of_locked l0 0x01#8
  obtain ⟨e2, l2, v2⟩ := memReadByte_of_locked l1 0x02#8
  obtain ⟨e3, l3, v3⟩ := memReadByte_of_locked l2 0x03#8
  refine ⟨_, _, _, _, readComposite_fst s, ?_, ?_, v0, ?_, ?_, ?_⟩
  · simp [readComposite_snd, memReadByte_bus]
  · exact e3.trans (e2.trans (e1.trans e0))
  · intro hv; exact (v1 (by simpa using hv)).trans (by rw [e0]; rfl)
  · intro hv; exact (v2 (by simpa using hv)).trans (by rw [e1, e0]; rfl)
  · intro hv; exact (v3 (by simpa using hv)).trans (by rw [e2, e1, e0]; rfl)

/-- Everything a poll does. -/
theorem poll_effect : PollEffect s (poll s) := by
  have A := applyInstrMask_effect s Config.lockMask .set
  rw [maskedByte_set] at A
  have hL := applyInstrMask_set_locked s
  obtain ⟨b0, b1, b2, b3, hc, hb, hr, v0, v1, v2, v3⟩ := readComposite_effect hL
  have hL2 : (readComposite (applyInstrMask Config.lockMask .set s)).2.locked = true := by
    rw [locked_of_rr hr]; exact hL
  obtain ⟨esc, val, nm, kb, kr, w0, w1, hh, ks⟩ := classifyBank_effect hL2
  let u := commit (candidate (readComposite (applyInstrMask Config.lockMask .set s)).1)
    (classifyBank (readComposite (applyInstrMask Config.lockMask .set s)).2)
  have hu : poll s = applyInstrMask Config.lockMask .clear u := rfl
  have ur : u.rr = (applyInstrMask Config.lockMask .set s).rr := by simp [u, kr, hr]
  have ul : u.locked = true := by rw [locked_of_rr ur]; exact hL
  have B := applyInstrMask_effect u Config.lockMask .clear
  rw [maskedByte_clear, ← hu] at B
  have uv := (memReadByte_of_locked ul 0xF4#8).2.2
  have hst : (poll s).status = (classifyBank (readComposite (applyInstrMask Config.lockMask .set s)).2).status := by
    simp [poll]
  refine ⟨(applyInstrMask Config.lockMask .set s).rr, (memReadByte 0xF4#8 s).1, b0, b1, b2, b3, esc, val,
    (memReadByte 0xF4#8 u).1, nm, ?_, ?_, ?_, ?_, ?_, ?_, ?_, ?_, A.2.1, ?_, ?_, ?_, B.2.2.1, ?_, A.2.2.2⟩
  · have ub : u.bus = (classifyBank (readComposite (applyInstrMask Config.lockMask .set s)).2).bus := by simp [u]
    rw [B.1, ub, kb, hb, A.1]
    simp [u, pollCalls]
  · simpa using v0
  · simpa using v1
  · simpa using v2
  · simpa using v3
  · rw [hr] at w0; simpa using w0
  · rw [hr] at w1; simpa using w1
  · intro hv
    rw [uv (by simpa [u] using hv), ur]
    exact A.2.2.1
  · simpa using hh
  · rw [hst, ks]; simp
  · rw [hst]
    have : (poll s).raw = u.raw := by rw [hu]; simp
    rw [this]
    simp only [u, commit_raw, hc, candidate, packSample_eq, Config.statusBits, rawMask_eq]
    simp
  · intro x hx
    rw [B.2.2.2 x hx (.inl (.inl ul)), ur]

end Sys2Proof.Machine
end

