-- ==== Sys2Proof/Laws/Exec.lean ====
section
/-! SUPPORT. The one inversion lemma of exec: where it answers a next state, that state is a refusal or the
instruction's own body, with the operands in range. Every statement over all instructions is a case analysis of it. -/

namespace Sys2Proof.Machine

/-- The body of an instruction that is not refused, with what its checks have established. -/
def Ran (i : Instr) (s t : State) : Prop :=
  match i with
  | .wdata a data => s.init = true ∧ 1 ≤ data.length ∧ data.length ≤ 255 ∧ t = (memWrite a data s).replyFrame []
  | .rdata a n => s.init = true ∧ 1 ≤ n ∧ n ≤ 4 ∧ t = (memRead a n s).2.replyFrame (memRead a n s).1
  | .rstatus _ => False
  | .winstr c => s.init = true ∧ t = (instrWrite c s).replyFrame []
  | .rdataf _ => False
  | .wdataf _ => False
  | .construct l o => s.init = false ∧ finite32 o = true ∧ t = (s.constructed l o).reply []
  | .readReg a n => s.init = true ∧ 1 ≤ n.toNat ∧ n.toNat ≤ 4 ∧
      t = (memRead a n.toNat s).2.reply (bytesOfWord (foldBytes (memRead a n.toNat s).1))
  | .writeReg a data => s.init = true ∧ 1 ≤ data.length ∧ data.length ≤ 255 ∧ t = (memWrite a data s).reply []
  | .writeInstr c => s.init = true ∧ t = (instrWrite c s).reply []
  | .lock => s.init = true ∧ t = (applyInstrMask Config.lockMask .set s).reply []
  | .unlock => s.init = true ∧ t = (applyInstrMask Config.lockMask .clear s).reply []
  | .classify c v p => v.toNat ≤ 1 ∧ p.toNat ≤ 3 ∧
      t = (s.drawn 1).reply [statusCode (s.classified c (v == 1#8) (statusOfCode p))]
  | .getRaw => s.init = true ∧ t = (poll s).reply (bytesOfWord (poll s).raw)
  | .toPhys r o => r.toNat < 2 ^ 26 ∧ finite32 o = true ∧ t = s.reply (bytesOfWord (toPhysical s.numerics r o))
  | .getPos => s.init = true ∧ t = (poll s).reply (bytesOfWord ((poll s).position (poll s).raw))
  | .getStatus => s.init = true ∧ t = s.reply [statusCode s.status]
  | .getVersion => s.init = true ∧
      t = (memReadByte Config.addrVersion s).2.reply [(memReadByte Config.addrVersion s).1]
  | .getRevision => s.init = true ∧
      t = (memReadByte Config.addrRevision s).2.reply [(memReadByte Config.addrRevision s).1]

theorem answer_next {why : Option PacketRefusal} {s body t : State} (h : answer why s body = .next t) :
    (∃ w, why = some w ∧ t = s.refuse w) ∨ (why = none ∧ t = body) := by
  cases why with
  | none => exact .inr ⟨rfl, by cases h; rfl⟩
  | some w => exact .inl ⟨w, rfl, by cases h; rfl⟩

theorem checkInit_none {s : State} (h : checkInit s = none) : s.init = true := by
  unfold checkInit at h; split at h
  · assumption
  · cases h

/-- Where exec answers a next state. -/
theorem exec_next {i : Instr} {s t : State} (h : exec i s = .next t) :
    (∃ w, t = s.refuse w) ∨ Ran i s t := by
  cases i with
  | wdata a d =>
    simp only [exec, execWdata] at h
    split at h
    · rename_i hl; rw [writeLengthOk_iff] at hl
      rcases answer_next h with ⟨w, -, e⟩ | ⟨c, e⟩
      · exact .inl ⟨w, e⟩
      · exact .inr ⟨checkInit_none c, hl.1, hl.2, e⟩
    · cases h
  | rdata a n =>
    simp only [exec, execRdata] at h
    split at h
    · rename_i hl; rw [readLengthOk_iff] at hl
      rcases answer_next h with ⟨w, -, e⟩ | ⟨c, e⟩
      · exact .inl ⟨w, e⟩
      · exact .inr ⟨checkInit_none c, hl.1, hl.2, e⟩
    · cases h
  | rstatus r => cases h
  | winstr c =>
    rcases answer_next h with ⟨w, -, e⟩ | ⟨c, e⟩
    · exact .inl ⟨w, e⟩
    · exact .inr ⟨checkInit_none c, e⟩
  | rdataf r => cases h
  | wdataf r => cases h
  | construct l o =>
    rcases answer_next h with ⟨w, -, e⟩ | ⟨c, e⟩
    · exact .inl ⟨w, e⟩
    · unfold checkConstruct at c
      split at c
      · cases c
      · split at c
        · exact .inr ⟨by simpa using ‹¬s.init = true›, ‹_›, e⟩
        · cases c
  | readReg a n =>
    rcases answer_next h with ⟨w, -, e⟩ | ⟨c, e⟩
    · exact .inl ⟨w, e⟩
    · unfold checkReadReg at c
      split at c
      · split at c
        · rename_i hi hl; rw [readLengthOk_iff] at hl; exact .inr ⟨hi, hl.1, hl.2, e⟩
        · cases c
      · cases c
  | writeReg a d =>
    rcases answer_next h with ⟨w, -, e⟩ | ⟨c, e⟩
    · exact .inl ⟨w, e⟩
    · unfold checkWriteReg at c
      split at c
      · split at c
        · rename_i hi hl; rw [writeLengthOk_iff] at hl; exact .inr ⟨hi, hl.1, hl.2, e⟩
        · cases c
      · cases c
  | classify a v p =>
    rcases answer_next h with ⟨w, -, e⟩ | ⟨c, e⟩
    · exact .inl ⟨w, e⟩
    · unfold checkClassify at c
      split at c
      · rename_i hl; exact .inr ⟨hl.1, hl.2, e⟩
      · cases c
  | toPhys r o =>
    rcases answer_next h with ⟨w, -, e⟩ | ⟨c, e⟩
    · exact .inl ⟨w, e⟩
    · unfold checkToPhys at c
      split at c
      · split at c
        · exact .inr ⟨‹_›, ‹_›, e⟩
        · cases c
      · cases c
  | writeInstr c =>
    rcases answer_next h with ⟨w, -, e⟩ | ⟨c, e⟩
    · exact .inl ⟨w, e⟩
    · exact .inr ⟨checkInit_none c, e⟩
  | lock =>
    rcases answer_next h with ⟨w, -, e⟩ | ⟨c, e⟩
    · exact .inl ⟨w, e⟩
    · exact .inr ⟨checkInit_none c, e⟩
  | unlock =>
    rcases answer_next h with ⟨w, -, e⟩ | ⟨c, e⟩
    · exact .inl ⟨w, e⟩
    · exact .inr ⟨checkInit_none c, e⟩
  | getRaw =>
    rcases answer_next h with ⟨w, -, e⟩ | ⟨c, e⟩
    · exact .inl ⟨w, e⟩
    · exact .inr ⟨checkInit_none c, e⟩
  | getPos =>
    rcases answer_next h with ⟨w, -, e⟩ | ⟨c, e⟩
    · exact .inl ⟨w, e⟩
    · exact .inr ⟨checkInit_none c, e⟩
  | getStatus =>
    rcases answer_next h with ⟨w, -, e⟩ | ⟨c, e⟩
    · exact .inl ⟨w, e⟩
    · exact .inr ⟨checkInit_none c, e⟩
  | getVersion =>
    rcases answer_next h with ⟨w, -, e⟩ | ⟨c, e⟩
    · exact .inl ⟨w, e⟩
    · exact .inr ⟨checkInit_none c, e⟩
  | getRevision =>
    rcases answer_next h with ⟨w, -, e⟩ | ⟨c, e⟩
    · exact .inl ⟨w, e⟩
    · exact .inr ⟨checkInit_none c, e⟩

/-- A host operation always goes on: its outcome is a next state (rule R130). -/
theorem exec_host_next {i : Instr} (h : i.isFrame = false) (s : State) : ∃ t, exec i s = .next t := by
  cases i <;> first | exact ⟨_, rfl⟩ | cases h

end Sys2Proof.Machine
end

