-- ==== Sys2Proof/Laws/Moves.lean ====
section
/-! SUPPORT. How many moves of the refresh agent an operation takes: one for every byte it transfers (rule R38). -/

namespace Sys2Proof.Machine

variable (s : State)

@[simp] theorem refreshPoint_moves : s.refreshPoint.moves = s.moves.tail := rfl
@[simp] theorem sendByte_moves (o : Byte) : (sendByte o s).moves = s.moves.tail := rfl
@[simp] theorem readByte_moves (a : Address) : (readByte a s).2.moves = s.moves.tail := rfl
@[simp] theorem writeByte_moves (a : Address) (v : Byte) : (writeByte a v s).moves = s.moves.tail := rfl
@[simp] theorem frameClose_moves : (frameClose s).moves = s.moves := rfl

@[simp] theorem readBytes_moves (a : Address) (n : Nat) : (readBytes a n s).2.moves = s.moves.drop n := by
  induction n generalizing a s with
  | zero => rfl
  | succ n ih => rw [readBytes, ih, readByte_moves, List.drop_tail]

@[simp] theorem writeBytes_moves (a : Address) (vs : List Byte) : (writeBytes a vs s).moves = s.moves.drop vs.length := by
  induction vs generalizing a s with
  | nil => rfl
  | cons v vs ih => rw [writeBytes, ih, writeByte_moves, List.drop_tail, List.length_cons]

theorem frameHead_some_moves (o : Byte) (a : Address) : (frameHead o (some a) s).moves = s.moves.drop 2 := by
  rw [← List.tail_drop, List.drop_one]; rfl

theorem frameHead_none_moves (o : Byte) : (frameHead o none s).moves = s.moves.drop 1 := List.drop_one.symm

theorem memRead_moves (a : Address) (n : Nat) : (memRead a n s).2.moves = s.moves.drop (2 + n) := by
  rw [memRead, frameClose_moves, readBytes_moves, frameHead_some_moves, List.drop_drop]

theorem memReadByte_moves (a : Address) : (memReadByte a s).2.moves = s.moves.drop 3 := memRead_moves s a 1

theorem memWrite_moves (a : Address) (vs : List Byte) : (memWrite a vs s).moves = s.moves.drop (2 + vs.length) := by
  rw [memWrite, frameClose_moves, writeBytes_moves, frameHead_some_moves, List.drop_drop]

theorem instrWrite_moves (c : Byte) : (instrWrite c s).moves = s.moves.drop 2 := by
  rw [instrWrite, frameClose_moves, writeByte_moves, frameHead_none_moves, List.tail_drop]

/-- Five moves for a read-modify-write, or six with `LOCK_WRITE_FORM = data` (rule R80). -/
theorem applyInstrMask_moves (m : Byte) (i : MaskIntent) :
    (applyInstrMask m i s).moves = s.moves.drop (maskPoints s.params.lockWriteForm) := by
  have hp : (memReadByte Config.addrInstr s).2.params = s.params := memReadByte_params ..
  rw [applyInstrMask, instrWriteBack, hp]
  cases s.params.lockWriteForm
  · rw [instrWrite_moves, memReadByte_moves, List.drop_drop]; rfl
  · rw [memWrite_moves, memReadByte_moves, List.drop_drop]; rfl

theorem readComposite_moves : (readComposite s).2.moves = s.moves.drop 12 := by
  simp only [readComposite_snd, memReadByte_moves, List.drop_drop]

theorem classifyBank_moves : (classifyBank s).moves = s.moves.drop 6 := by
  rw [← List.drop_drop (i := 3) (j := 3), ← memReadByte_moves s Config.encStatusAddr,
    ← memReadByte_moves _ Config.addrValidity]; rfl

/-- Eighteen moves for the six reads of a poll, and those of its lock and its unlock (rule R100). -/
theorem poll_moves : (poll s).moves = s.moves.drop (18 + 2 * maskPoints s.params.lockWriteForm) := by
  simp only [poll, applyInstrMask_moves, commit_moves, classifyBank_moves, readComposite_moves, List.drop_drop,
    commit_params, classifyBank_params, readComposite_params, applyInstrMask_params]
  congr 1; omega

end Sys2Proof.Machine
end

