-- ==== Sys2Proof/Laws/Numbers.lean ====
section
/-! SUPPORT. The bus operations neither read nor write `RAW`, `STATUS`, `OFFSET` and the answers (rule R127): each does the
same in a state that differs in these four only. -/

namespace Sys2Proof.Machine

/-- The same state but for the handle's three numbers and the answers. -/
def State.withNumbers (s : State) (raw : Word) (st : Status) (o : Distance) (rs : List Response) : State :=
  { s with raw := raw, status := st, offset := o, responses := rs }

variable (s : State) (raw : Word) (st : Status) (o : Distance) (rs : List Response)


/-! ### Transfers and frames -/

theorem readByte_withNumbers (a : Address) :
    readByte a (s.withNumbers raw st o rs) = ((readByte a s).1, (readByte a s).2.withNumbers raw st o rs) := rfl

theorem writeByte_withNumbers (a : Address) (v : Byte) :
    writeByte a v (s.withNumbers raw st o rs) = (writeByte a v s).withNumbers raw st o rs := rfl

theorem readBytes_withNumbers (a : Address) (n : Nat) :
    readBytes a n (s.withNumbers raw st o rs) = ((readBytes a n s).1, (readBytes a n s).2.withNumbers raw st o rs) := by
  induction n generalizing a s with
  | zero => rfl
  | succ n ih => simp only [readBytes, readByte_withNumbers, ih]

theorem writeBytes_withNumbers (a : Address) (vs : List Byte) :
    writeBytes a vs (s.withNumbers raw st o rs) = (writeBytes a vs s).withNumbers raw st o rs := by
  induction vs generalizing a s with
  | nil => rfl
  | cons v vs ih => simp only [writeBytes, writeByte_withNumbers, ih]

theorem frameHead_withNumbers (p : Byte) (a : Option Address) :
    frameHead p a (s.withNumbers raw st o rs) = (frameHead p a s).withNumbers raw st o rs := by cases a <;> rfl

theorem frameClose_withNumbers : frameClose (s.withNumbers raw st o rs) = (frameClose s).withNumbers raw st o rs := rfl

theorem memRead_withNumbers (a : Address) (n : Nat) :
    memRead a n (s.withNumbers raw st o rs) = ((memRead a n s).1, (memRead a n s).2.withNumbers raw st o rs) := by
  simp only [memRead, frameHead_withNumbers, readBytes_withNumbers, frameClose_withNumbers]

theorem memReadByte_withNumbers_fst (a : Address) :
    (memReadByte a (s.withNumbers raw st o rs)).1 = (memReadByte a s).1 := by
  simp only [memReadByte, memRead_withNumbers]

theorem memReadByte_withNumbers_snd (a : Address) :
    (memReadByte a (s.withNumbers raw st o rs)).2 = (memReadByte a s).2.withNumbers raw st o rs := by
  simp only [memReadByte, memRead_withNumbers]

theorem memWrite_withNumbers (a : Address) (vs : List Byte) :
    memWrite a vs (s.withNumbers raw st o rs) = (memWrite a vs s).withNumbers raw st o rs := by
  simp only [memWrite, frameHead_withNumbers, writeBytes_withNumbers, frameClose_withNumbers]

theorem instrWrite_withNumbers (c : Byte) :
    instrWrite c (s.withNumbers raw st o rs) = (instrWrite c s).withNumbers raw st o rs := by
  simp only [instrWrite, frameHead_withNumbers, writeByte_withNumbers, frameClose_withNumbers]

/-! ### The read-modify-write and the poll -/

theorem instrWriteBack_withNumbers (c : Byte) :
    instrWriteBack c (s.withNumbers raw st o rs) = (instrWriteBack c s).withNumbers raw st o rs := by
  unfold instrWriteBack
  rw [show (s.withNumbers raw st o rs).params = s.params from rfl]
  cases s.params.lockWriteForm
  · exact instrWrite_withNumbers ..
  · exact memWrite_withNumbers ..

theorem applyInstrMask_withNumbers (m : Byte) (j : MaskIntent) :
    applyInstrMask m j (s.withNumbers raw st o rs) = (applyInstrMask m j s).withNumbers raw st o rs := by
  simp only [applyInstrMask, memReadByte_withNumbers_fst, memReadByte_withNumbers_snd, instrWriteBack_withNumbers]

theorem readSingles_withNumbers (a : Address) (n : Nat) :
    readSingles a n (s.withNumbers raw st o rs) = ((readSingles a n s).1, (readSingles a n s).2.withNumbers raw st o rs) := by
  induction n generalizing a s with
  | zero => rfl
  | succ n ih => simp only [readSingles, memReadByte_withNumbers_fst, memReadByte_withNumbers_snd, ih]

theorem readComposite_withNumbers : readComposite (s.withNumbers raw st o rs) =
    ((readComposite s).1, (readComposite s).2.withNumbers raw st o rs) := by
  simp only [readComposite, readSingles_withNumbers]

/-- Only the status that is stored may differ. -/
theorem classifyBank_withNumbers :
    ∃ st', classifyBank (s.withNumbers raw st o rs) = (classifyBank s).withNumbers raw st' o rs := by
  simp only [classifyBank, memReadByte_withNumbers_fst, memReadByte_withNumbers_snd]
  exact ⟨_, rfl⟩

/-- Only the raw position that is kept may differ. -/
theorem commit_withNumbers (c : Word) :
    ∃ raw', commit c (s.withNumbers raw st o rs) = (commit c s).withNumbers raw' st o rs := by
  unfold commit
  split <;> split <;> exact ⟨_, rfl⟩

theorem poll_eq : poll s = applyInstrMask Config.lockMask .clear
    (commit (candidate (readComposite (applyInstrMask Config.lockMask .set s)).1)
      (classifyBank (readComposite (applyInstrMask Config.lockMask .set s)).2)) := by
  unfold poll; rfl

/-- A poll's bus side does not depend on the handle's numbers. -/
theorem poll_withNumbers : ∃ raw' st', poll (s.withNumbers raw st o rs) = (poll s).withNumbers raw' st' o rs := by
  rw [poll_eq, poll_eq, applyInstrMask_withNumbers, readComposite_withNumbers]
  obtain ⟨st', e⟩ := classifyBank_withNumbers (readComposite (applyInstrMask Config.lockMask .set s)).2 raw st o rs
  obtain ⟨raw', e'⟩ := commit_withNumbers (classifyBank (readComposite (applyInstrMask Config.lockMask .set s)).2) raw st' o rs
    (candidate (readComposite (applyInstrMask Config.lockMask .set s)).1)
  refine ⟨raw', st', ?_⟩
  rw [← applyInstrMask_withNumbers, ← e', ← e]

end Sys2Proof.Machine
end

