-- ==== Sys2Proof/Laws/Numerics.lean ====
section
/-! SUPPORT. The arithmetic of binary32 as integers: a finite magnitude pattern is a significand times a power of two, the
finer lattice lies below the coarser one, rounding to a lattice picks a nearest point, and the order of patterns is the
order of values. -/
namespace Sys2Proof.Machine

/-- The value of a magnitude pattern in units of `2 ^ -149`; the infinity pattern continues the scale. -/
def magInt (p : Nat) : Nat := if p / 2 ^ 23 = 0 then p else (p % 2 ^ 23 + 2 ^ 23) * 2 ^ (p / 2 ^ 23 - 1)

theorem f32Mag_div (w : Distance) : f32Mag w / 2 ^ 23 = expField w := by
  unfold f32Mag expField; omega

theorem magInt_f32Mag (w : Distance) : f32Sig w * 2 ^ f32Exp w = magInt (f32Mag w) := by
  unfold f32Sig f32Exp magInt
  rw [f32Mag_div]
  split
  · rename_i h; simp [h]
  · rfl

theorem f32Int_eq (w : Distance) : f32Int w = if f32Neg w then - (magInt (f32Mag w) : Int) else magInt (f32Mag w) := by
  unfold f32Int; rw [magInt_f32Mag]; rfl

theorem f32Mag_pack (n : Bool) {p : Nat} (h : p < 2 ^ 31) : f32Mag (f32Pack n p) = p := by
  unfold f32Mag f32Pack
  cases n <;> simp <;> omega

theorem f32Neg_eq (w : Distance) : f32Neg w = decide (2 ^ 31 ≤ w.toNat) := by
  unfold f32Neg
  have := w.isLt
  simp only [BitVec.getLsbD, Nat.testBit_eq_decide_div_mod_eq]
  simp; omega

theorem f32Neg_pack (n : Bool) {p : Nat} (h : p < 2 ^ 31) : f32Neg (f32Pack n p) = n := by
  rw [f32Neg_eq]; unfold f32Pack
  cases n <;> simp <;> omega

theorem finite32_iff (w : Distance) : finite32 w = true ↔ f32Mag w < 0x7F800000 := by
  have := f32Mag_div w
  have h : f32Mag w < 2 ^ 31 := by unfold f32Mag; omega
  simp only [finite32, bne_iff_ne, ne_eq]; omega

theorem magInt_lt (p : Nat) : magInt p < 2 ^ (23 + p / 2 ^ 23) := by
  unfold magInt
  split
  · rename_i h; rw [h]; omega
  · rename_i h
    have : p % 2 ^ 23 + 2 ^ 23 < 2 ^ 24 := by omega
    calc (p % 2 ^ 23 + 2 ^ 23) * 2 ^ (p / 2 ^ 23 - 1) < 2 ^ 24 * 2 ^ (p / 2 ^ 23 - 1) :=
          Nat.mul_lt_mul_of_pos_right this (by positivity)
      _ = 2 ^ (23 + p / 2 ^ 23) := by rw [← pow_add]; congr 1; omega

/-- A magnitude of at least `2 ^ (23 + u)` is a multiple of `2 ^ u`. -/
theorem magInt_dvd {p u : Nat} (h : u = 0 ∨ 2 ^ (23 + u) ≤ magInt p) : 2 ^ u ∣ magInt p := by
  rcases h with rfl | h
  · simp
  · have h1 := lt_of_le_of_lt h (magInt_lt p)
    have h2 := (Nat.pow_lt_pow_iff_right (by norm_num : 1 < 2)).mp h1
    unfold magInt
    rw [if_neg (by omega)]
    exact Dvd.dvd.mul_left (Nat.pow_dvd_pow 2 (by omega)) _

/-- A significand of at most 25 bits with its unit, as a pattern: a carry out of 24 bits goes into the exponent. -/
theorem magInt_pattern {u sig : Nat} (h1 : sig ≤ 2 ^ 24) (h2 : u = 0 ∨ 2 ^ 23 ≤ sig) :
    magInt (u * 2 ^ 23 + sig) = sig * 2 ^ u := by
  unfold magInt
  by_cases ha : sig < 2 ^ 23
  · obtain rfl : u = 0 := by omega
    rw [if_pos (by omega)]; simp
  · by_cases hb : sig = 2 ^ 24
    · subst hb
      have e : (u * 2 ^ 23 + 2 ^ 24) / 2 ^ 23 = u + 2 := by omega
      rw [e, if_neg (by omega), show u + 2 - 1 = u + 1 from rfl, pow_succ 2 u]
      have : (u * 2 ^ 23 + 2 ^ 24) % 2 ^ 23 = 0 := by omega
      rw [this]; ring
    · have e : (u * 2 ^ 23 + sig) / 2 ^ 23 = u + 1 := by omega
      rw [e, if_neg (by omega), show u + 1 - 1 = u from rfl]
      congr 1; omega

/-- Rounding to a multiple of `2 ^ k` gives a nearest one. -/
theorem roundShift_near (m k : Nat) (j : Int) : |(roundShift m k : Int) * 2 ^ k - m| ≤ |j * 2 ^ k - m| := by
  have hd := Nat.div_add_mod m (2 ^ k)
  have hr := Nat.mod_lt m (show 0 < 2 ^ k by positivity)
  unfold roundShift
  set q := m / 2 ^ k
  set r := m % 2 ^ k
  have hm : (m : Int) = 2 ^ k * q + r := by exact_mod_cast hd.symm
  have hr' : (r : Int) < 2 ^ k := by exact_mod_cast hr
  set P : Int := 2 ^ k
  have hP : (0 : Int) < P := by positivity
  have key : ∀ t : Int, (t - q) ≤ 0 ∨ 1 ≤ (t - q) := fun t => by omega
  have low : r ≤ |j * P - m| ∨ P - r ≤ |j * P - m| := by
    rcases key j with h | h
    · left
      have : (j - q) * P ≤ 0 := mul_nonpos_of_nonpos_of_nonneg h hP.le
      rw [abs_sub_comm]
      refine le_trans ?_ (le_abs_self _)
      rw [hm]; nlinarith
    · right
      refine le_trans ?_ (le_abs_self _)
      rw [hm]; nlinarith
  simp only []
  split
  · rename_i h
    have h' : P ≤ 2 * r := by
      rcases h with h | ⟨h, -⟩
      · have : (2 ^ k : Int) < 2 * r := by exact_mod_cast h
        exact this.le
      · have : (2 * r : Int) = 2 ^ k := by exact_mod_cast h
        exact this.ge
    have e : ((q + 1 : Nat) : Int) * P - m = P - r := by rw [hm]; push_cast; ring
    rw [e, abs_of_nonneg (by linarith)]
    rcases low with h | h <;> linarith
  · rename_i h
    have h' : 2 * (r : Int) ≤ P := by
      have : ¬ 2 ^ k < 2 * r := fun hh => h (.inl hh)
      have h2 : 2 * r ≤ 2 ^ k := by omega
      have : (2 * r : Int) ≤ 2 ^ k := by exact_mod_cast h2
      exact this
    have e : (q : Int) * P - m = - r := by rw [hm]; ring
    rw [e, abs_neg, abs_of_nonneg (by omega)]
    rcases low with h | h <;> linarith

/-- Where another multiple of `2 ^ k` is as near, rounding gives the even one. -/
theorem roundShift_tie {m k : Nat} {j : Int}
    (h : |(roundShift m k : Int) * 2 ^ k - m| = |j * 2 ^ k - m|) (hj : j ≠ roundShift m k) : roundShift m k % 2 = 0 := by
  have hd := Nat.div_add_mod m (2 ^ k)
  have hr := Nat.mod_lt m (show 0 < 2 ^ k by positivity)
  have hP : (0 : Int) < 2 ^ k := by positivity
  have hm : (m : Int) = 2 ^ k * (m / 2 ^ k : Nat) + (m % 2 ^ k : Nat) := by exact_mod_cast hd.symm
  rcases abs_eq_abs.mp h with e | e
  · exact absurd (mul_right_cancel₀ hP.ne' (by linarith : j * 2 ^ k = roundShift m k * 2 ^ k)) hj
  · -- the number is half way between the two, so the remainder is half a unit or nothing
    have half : (2 ^ k : Int) * (j + roundShift m k - 2 * (m / 2 ^ k : Nat)) = 2 * (m % 2 ^ k : Nat) := by
      rw [hm] at e; linear_combination e
    have hr' : ((m % 2 ^ k : Nat) : Int) < 2 ^ k := by exact_mod_cast hr
    have hr0 : (0 : Int) ≤ (m % 2 ^ k : Nat) := Int.natCast_nonneg _
    generalize hw : j + roundShift m k - 2 * ((m / 2 ^ k : Nat) : Int) = w at half
    have w0 : 0 ≤ w := by by_contra hn; nlinarith [mul_pos hP (by omega : 0 < -w)]
    have w1 : w ≤ 1 := by by_contra hn; nlinarith [mul_le_mul_of_nonneg_left (by omega : 2 ≤ w) hP.le]
    unfold roundShift at hw hj ⊢
    simp only [] at hw hj ⊢
    obtain rfl | rfl : w = 0 ∨ w = 1 := by omega
    · have r0 : m % 2 ^ k = 0 := by have : (2 : Int) * (m % 2 ^ k : Nat) = 0 := by linarith
                                    omega
      have hk : 0 < 2 ^ k := by positivity
      rw [r0, if_neg (by omega)] at hw hj
      omega
    · have r1 : 2 * (m % 2 ^ k) = 2 ^ k := by
        have : (2 : Int) * (m % 2 ^ k : Nat) = 2 ^ k := by linarith
        exact_mod_cast this
      split <;> omega

theorem roundShift_ge (m k : Nat) : m / 2 ^ k ≤ roundShift m k := by unfold roundShift; simp only []; split <;> omega
theorem roundShift_le (m k : Nat) : roundShift m k ≤ m / 2 ^ k + 1 := by unfold roundShift; simp only []; split <;> omega

/-- What rounding a positive number does: the unit, the significand, that no multiple of the unit is nearer, and
that it is even where another is as near. -/
theorem roundMag_spec {m e g : Nat} (hm : m ≠ 0) : ∃ u sig : Nat, u = e + (Nat.log2 m + 1) - (g + 24) ∧
    sig = (if e ≤ u + g then roundShift m (u + g - e) else m * 2 ^ (e - (u + g))) ∧
    roundMag m e g = min (u * 2 ^ 23 + sig) 0x7F800000 ∧ sig ≤ 2 ^ 24 ∧ (u = 0 ∨ 2 ^ 23 ≤ sig) ∧
    (u = 0 ∨ 2 ^ (23 + u) * 2 ^ g ≤ m * 2 ^ e) ∧
    ∀ j : Int, |((sig * 2 ^ u * 2 ^ g : Nat) : Int) - (m * 2 ^ e : Nat)| ≤ |j * 2 ^ u * 2 ^ g - (m * 2 ^ e : Nat)| ∧
      (|((sig * 2 ^ u * 2 ^ g : Nat) : Int) - (m * 2 ^ e : Nat)| = |j * 2 ^ u * 2 ^ g - (m * 2 ^ e : Nat)| →
        j ≠ sig → sig % 2 = 0) := by
  have hl := Nat.log2_self_le hm
  have hl2 : m < 2 ^ (Nat.log2 m + 1) := Nat.lt_log2_self
  generalize hL : Nat.log2 m = L at hl hl2
  unfold roundMag
  simp only [hL]
  generalize hu : e + (L + 1) - (g + 24) = u
  refine ⟨u, if e ≤ u + g then roundShift m (u + g - e) else m * 2 ^ (e - (u + g)), rfl, rfl, rfl, ?_, ?_, ?_, ?_⟩
  · split
    · refine le_trans (roundShift_le _ _) ?_
      have : m / 2 ^ (u + g - e) < 2 ^ 24 := by
        rw [Nat.div_lt_iff_lt_mul (by positivity), ← pow_add]
        exact lt_of_lt_of_le hl2 (Nat.pow_le_pow_right (by norm_num) (by omega))
      omega
    · have : m * 2 ^ (e - (u + g)) ≤ 2 ^ (L + 1) * 2 ^ (e - (u + g)) := Nat.mul_le_mul_right _ hl2.le
      refine le_trans this ?_
      rw [← pow_add]; exact Nat.pow_le_pow_right (by norm_num) (by omega)
  · by_cases h0 : u = 0
    · exact .inl h0
    · right
      split
      · refine le_trans ?_ (roundShift_ge _ _)
        rw [Nat.le_div_iff_mul_le (by positivity), ← pow_add]
        exact le_trans (Nat.pow_le_pow_right (by norm_num) (by omega)) hl
      · refine le_trans ?_ (Nat.mul_le_mul_right _ hl)
        rw [← pow_add]; exact Nat.pow_le_pow_right (by norm_num) (by omega)
  · by_cases h0 : u = 0
    · exact .inl h0
    · right
      refine le_trans ?_ (Nat.mul_le_mul_right _ hl)
      rw [← pow_add, ← pow_add]; exact Nat.pow_le_pow_right (by norm_num) (by omega)
  · intro j
    split
    · rename_i h
      have e1 : 2 ^ u * 2 ^ g = 2 ^ (u + g - e) * 2 ^ e := by rw [← pow_add, ← pow_add]; congr 1; omega
      have e2 : (2 : Int) ^ u * 2 ^ g = 2 ^ (u + g - e) * 2 ^ e := by exact_mod_cast e1
      have key := roundShift_near m (u + g - e) j
      have t1 : ((roundShift m (u + g - e) * 2 ^ u * 2 ^ g : Nat) : Int) - (m * 2 ^ e : Nat) =
          ((roundShift m (u + g - e) : Int) * 2 ^ (u + g - e) - m) * 2 ^ e := by
        push_cast; rw [mul_assoc, e2]; ring
      have t2 : j * 2 ^ u * 2 ^ g - ((m * 2 ^ e : Nat) : Int) = (j * 2 ^ (u + g - e) - m) * 2 ^ e := by
        push_cast; rw [mul_assoc, e2]; ring
      rw [t1, t2, abs_mul, abs_mul]
      refine ⟨mul_le_mul_of_nonneg_right key (abs_nonneg _), fun he hj => roundShift_tie (mul_right_cancel₀ ?_ he) hj⟩
      exact abs_ne_zero.mpr (by positivity)
    · rename_i h
      have : m * 2 ^ (e - (u + g)) * 2 ^ u * 2 ^ g = m * 2 ^ e := by
        rw [mul_assoc, mul_assoc, ← pow_add, ← pow_add]; congr 2; omega
      have fac : j * 2 ^ u * 2 ^ g - ((m * 2 ^ e : Nat) : Int) =
          (j - (m * 2 ^ (e - (u + g)) : Nat)) * (2 ^ u * 2 ^ g) := by
        rw [← this]; push_cast; ring
      rw [this, sub_self, abs_zero]
      refine ⟨abs_nonneg _, fun he hj => absurd ?_ hj⟩
      rw [fac] at he
      rcases mul_eq_zero.mp (abs_eq_zero.mp he.symm) with h0 | h0
      · linarith
      · exact absurd h0 (by positivity)

/-- No magnitude pattern is nearer to a positive number than its rounding. -/
theorem roundMag_near {m e g : Nat} (hm : m ≠ 0) (hf : roundMag m e g < 0x7F800000) (c : Nat) :
    |((magInt (roundMag m e g) * 2 ^ g : Nat) : Int) - (m * 2 ^ e : Nat)| ≤
      |((magInt c * 2 ^ g : Nat) : Int) - (m * 2 ^ e : Nat)| := by
  obtain ⟨u, sig, -, -, h1, h2, h3, h4, h5⟩ := roundMag_spec (e := e) (g := g) hm
  have hp : roundMag m e g = u * 2 ^ 23 + sig := by omega
  rw [hp, magInt_pattern h2 h3]
  by_cases hc : u = 0 ∨ 2 ^ (23 + u) ≤ magInt c
  · obtain ⟨j, hj⟩ := magInt_dvd hc
    have := (h5 j).1
    rw [hj]
    refine le_trans this (le_of_eq ?_)
    push_cast; ring_nf
  · have hu : ¬ u = 0 := fun h => hc (.inl h)
    have hlt : magInt c < 2 ^ (23 + u) := by have : ¬ 2 ^ (23 + u) ≤ magInt c := fun h => hc (.inr h); omega
    have hx := h4.resolve_left hu
    refine le_trans (h5 (2 ^ 23)).1 ?_
    have a1 : ((magInt c * 2 ^ g : Nat) : Int) ≤ 2 ^ 23 * 2 ^ u * 2 ^ g := by
      have : magInt c * 2 ^ g ≤ 2 ^ 23 * 2 ^ u * 2 ^ g := by rw [← pow_add]; exact Nat.mul_le_mul_right _ hlt.le
      exact_mod_cast this
    have a2 : (2 ^ 23 * 2 ^ u * 2 ^ g : Int) ≤ ((m * 2 ^ e : Nat) : Int) := by
      rw [← pow_add]; exact_mod_cast hx
    rw [abs_of_nonpos (by linarith), abs_of_nonpos (by linarith)]; linarith

/-- Where another magnitude is as near to a positive number, its rounding is an even pattern. -/
theorem roundMag_tie {m e g : Nat} (hm : m ≠ 0) (hf : roundMag m e g < 0x7F800000) {c : Nat}
    (h : |((magInt (roundMag m e g) * 2 ^ g : Nat) : Int) - (m * 2 ^ e : Nat)| =
      |((magInt c * 2 ^ g : Nat) : Int) - (m * 2 ^ e : Nat)|)
    (hne : magInt c ≠ magInt (roundMag m e g)) : roundMag m e g % 2 = 0 := by
  obtain ⟨u, sig, -, -, h1, h2, h3, h4, h5⟩ := roundMag_spec (e := e) (g := g) hm
  have hp : roundMag m e g = u * 2 ^ 23 + sig := by omega
  rw [hp, magInt_pattern h2 h3] at h hne
  suffices hs : sig % 2 = 0 by rw [hp]; omega
  by_cases hc : u = 0 ∨ 2 ^ (23 + u) ≤ magInt c
  · obtain ⟨j, hj⟩ := magInt_dvd hc
    refine (h5 j).2 ?_ fun e => hne ?_
    · rw [h, hj]; push_cast; ring_nf
    · rw [hj, Int.natCast_inj.mp e, Nat.mul_comm]
  · -- a smaller unit's magnitude lies below the whole binade, further away than its lower end
    exfalso
    have hu : ¬ u = 0 := fun h => hc (.inl h)
    have hlt : magInt c < 2 ^ (23 + u) := by have : ¬ 2 ^ (23 + u) ≤ magInt c := fun h => hc (.inr h); omega
    have low := (h5 (2 ^ 23)).1
    have a1 : ((magInt c * 2 ^ g : Nat) : Int) < 2 ^ 23 * 2 ^ u * 2 ^ g := by
      have : magInt c * 2 ^ g < 2 ^ 23 * 2 ^ u * 2 ^ g := by
        rw [← pow_add]; exact Nat.mul_lt_mul_of_pos_right hlt (by positivity)
      exact_mod_cast this
    have a2 : (2 ^ 23 * 2 ^ u * 2 ^ g : Int) ≤ ((m * 2 ^ e : Nat) : Int) := by
      rw [← pow_add]; exact_mod_cast h4.resolve_left hu
    rw [h, abs_of_nonpos (by linarith), abs_of_nonpos (by linarith)] at low
    linarith

theorem abs_sub_le_abs_add_of_nonneg {a b : Int} (ha : 0 ≤ a) (hb : 0 ≤ b) : |a - b| ≤ |a + b| := by
  rw [abs_of_nonneg (show 0 ≤ a + b by linarith)]
  exact abs_le.mpr ⟨by linarith, by linarith⟩

/-- No pattern is nearer to a number than its rounding, when that is finite. -/
theorem roundF32_near {n : Bool} {m e g : Nat} (hf : finite32 (roundF32 n m e g) = true) (c : Distance) :
    |f32Int (roundF32 n m e g) * 2 ^ g - (if n then -1 else 1) * (m * 2 ^ e : Nat)| ≤
      |f32Int c * 2 ^ g - (if n then -1 else 1) * ((m * 2 ^ e : Nat) : Int)| := by
  unfold roundF32 at *
  by_cases hm : m = 0
  · subst hm
    simp only [if_true]
    rw [f32Int_eq, f32Mag_pack _ (by norm_num), f32Neg_pack _ (by norm_num)]
    simp [magInt]
  · rw [if_neg hm] at *
    have hb : roundMag m e g < 2 ^ 31 := by unfold roundMag; exact lt_of_le_of_lt (Nat.min_le_right _ _) (by norm_num)
    rw [finite32_iff, f32Mag_pack _ hb] at hf
    have key := roundMag_near hm hf (f32Mag c)
    rw [f32Int_eq (f32Pack _ _), f32Mag_pack _ hb, f32Neg_pack _ hb, f32Int_eq c]
    have hX0 : (0 : Int) ≤ ((m * 2 ^ e : Nat) : Int) := Int.natCast_nonneg _
    have hC0 : (0 : Int) ≤ ((magInt (f32Mag c) * 2 ^ g : Nat) : Int) := Int.natCast_nonneg _
    rw [Nat.cast_mul (magInt _), Nat.cast_mul (magInt _), Nat.cast_pow, Nat.cast_ofNat] at key
    rw [Nat.cast_mul (magInt _), Nat.cast_pow, Nat.cast_ofNat] at hC0
    generalize ((m * 2 ^ e : Nat) : Int) = X at *
    cases n <;> cases f32Neg c <;> simp only [Bool.false_eq_true, if_false, if_true, one_mul, neg_mul, sub_neg_eq_add]
    all_goals generalize (magInt (f32Mag c) : Int) * 2 ^ g = C at *
    all_goals generalize (magInt (roundMag m e g) : Int) * 2 ^ g = R at *
    all_goals have far := abs_sub_le_abs_add_of_nonneg hC0 hX0
    · exact key
    · rw [show -C - X = -(C + X) by ring, abs_neg]; exact key.trans far
    · rw [show -R + X = -(R - X) by ring, abs_neg]; exact key.trans far
    · rw [show -R + X = -(R - X) by ring, show -C + X = -(C - X) by ring, abs_neg, abs_neg]; exact key

/-- The last bit of a pattern is that of its magnitude. -/
theorem f32Pack_even (n : Bool) {p : Nat} (h : p % 2 = 0) : (f32Pack n p).getLsbD 0 = false := by
  unfold f32Pack
  rw [BitVec.getLsbD_ofNat]
  cases n <;> simp [Nat.testBit_zero] <;> omega

/-- Where another number is as near to a number as its rounding, that rounding is even. -/
theorem roundF32_tie {n : Bool} {m e g : Nat} (hf : finite32 (roundF32 n m e g) = true) {c : Distance}
    (h : |f32Int (roundF32 n m e g) * 2 ^ g - (if n then -1 else 1) * (m * 2 ^ e : Nat)| =
      |f32Int c * 2 ^ g - (if n then -1 else 1) * ((m * 2 ^ e : Nat) : Int)|)
    (hne : f32Int c ≠ f32Int (roundF32 n m e g)) : (roundF32 n m e g).getLsbD 0 = false := by
  unfold roundF32 at *
  by_cases hm : m = 0
  · rw [if_pos hm]; exact f32Pack_even n rfl
  · rw [if_neg hm] at *
    have hb : roundMag m e g < 2 ^ 31 := by unfold roundMag; exact lt_of_le_of_lt (Nat.min_le_right _ _) (by norm_num)
    rw [finite32_iff, f32Mag_pack _ hb] at hf
    have key := roundMag_near hm hf (f32Mag c)
    refine f32Pack_even n ?_
    -- the magnitudes are as near as the numbers: a number of the other sign is as near only where it is zero
    have hX : (0 : Int) < ((m * 2 ^ e : Nat) : Int) := by exact_mod_cast Nat.mul_pos (Nat.pos_of_ne_zero hm) (by positivity)
    have hC0 : (0 : Int) ≤ ((magInt (f32Mag c) * 2 ^ g : Nat) : Int) := Int.natCast_nonneg _
    rw [f32Int_eq (f32Pack _ _), f32Mag_pack _ hb, f32Neg_pack _ hb, f32Int_eq c] at h hne
    have main : |((magInt (roundMag m e g) * 2 ^ g : Nat) : Int) - (m * 2 ^ e : Nat)| =
        |((magInt (f32Mag c) * 2 ^ g : Nat) : Int) - (m * 2 ^ e : Nat)| ∧
        (magInt (f32Mag c) ≠ magInt (roundMag m e g)) := by
      have zero : |((magInt (roundMag m e g) * 2 ^ g : Nat) : Int) - (m * 2 ^ e : Nat)| =
          ((magInt (f32Mag c) * 2 ^ g : Nat) : Int) + (m * 2 ^ e : Nat) →
          magInt (f32Mag c) = 0 ∧ |((magInt (roundMag m e g) * 2 ^ g : Nat) : Int) - (m * 2 ^ e : Nat)| =
            |((magInt (f32Mag c) * 2 ^ g : Nat) : Int) - (m * 2 ^ e : Nat)| := by
        intro hz
        rw [hz] at key ⊢
        have h0 : ((magInt (f32Mag c) * 2 ^ g : Nat) : Int) = 0 := by
          rcases le_abs.mp key with k | k <;> linarith
        refine ⟨?_, by rw [h0, zero_add, zero_sub, abs_neg, abs_of_pos hX]⟩
        have : magInt (f32Mag c) * 2 ^ g = 0 := by exact_mod_cast h0
        exact (Nat.mul_eq_zero.mp this).resolve_right (by positivity)
      have push : ∀ k : Nat, ((k * 2 ^ g : Nat) : Int) = (k : Int) * 2 ^ g := fun k => by push_cast; rfl
      rw [push, push] at zero ⊢
      rw [push] at hC0
      generalize ((m * 2 ^ e : Nat) : Int) = X at *
      generalize f32Neg c = sc at h hne
      cases n <;> cases sc <;>
        simp only [Bool.false_eq_true, if_false, if_true, one_mul, neg_mul, sub_neg_eq_add] at h hne
      · exact ⟨h, fun q => hne (by rw [q])⟩
      · obtain ⟨z, w⟩ := zero (h.trans (by rw [show -((magInt (f32Mag c) : Int) * 2 ^ g) - X =
          -((magInt (f32Mag c) : Int) * 2 ^ g + X) by ring, abs_neg, abs_of_nonneg (by linarith)]))
        exact ⟨w, fun q => hne (by rw [← q, z]; rfl)⟩
      · rw [show -((magInt (roundMag m e g) : Int) * 2 ^ g) + X = -((magInt (roundMag m e g) : Int) * 2 ^ g - X) by ring,
          abs_neg] at h
        obtain ⟨z, w⟩ := zero (h.trans (abs_of_nonneg (by linarith)))
        exact ⟨w, fun q => hne (by rw [← q, z]; rfl)⟩
      · rw [show -((magInt (roundMag m e g) : Int) * 2 ^ g) + X = -((magInt (roundMag m e g) : Int) * 2 ^ g - X) by ring,
          show -((magInt (f32Mag c) : Int) * 2 ^ g) + X = -((magInt (f32Mag c) : Int) * 2 ^ g - X) by ring,
          abs_neg, abs_neg] at h
        exact ⟨h, fun q => hne (by rw [q])⟩
    exact roundMag_tie hm hf main.1 main.2

theorem f32_finite_not_special {w : Distance} (h : finite32 w = true) : f32IsNaN w = false ∧ f32IsInf w = false := by
  rw [finite32_iff] at h
  unfold f32IsNaN f32IsInf
  exact ⟨by simpa using h.le, by simpa using h.ne⟩

theorem f32Int_abs (w : Distance) : f32Int w = (if f32Neg w then -1 else 1) * (f32Sig w * 2 ^ f32Exp w : Nat) := by
  unfold f32Int; split <;> simp

theorem magInt_strictMono {p q : Nat} (h : p < q) : magInt p < magInt q := by
  have hd : p / 2 ^ 23 ≤ q / 2 ^ 23 := Nat.div_le_div_right h.le
  rcases hd.lt_or_eq with hlt | heq
  · refine lt_of_lt_of_le (magInt_lt p) ?_
    unfold magInt
    rw [if_neg (by omega)]
    calc 2 ^ (23 + p / 2 ^ 23) ≤ 2 ^ 23 * 2 ^ (q / 2 ^ 23 - 1) := by
          rw [← pow_add]; exact Nat.pow_le_pow_right (by norm_num) (by omega)
      _ ≤ _ := Nat.mul_le_mul_right _ (by omega)
  · unfold magInt
    rw [heq]
    split
    · exact h
    · exact Nat.mul_lt_mul_of_pos_right (by omega) (by positivity)

theorem magInt_lt_iff {p q : Nat} : magInt p < magInt q ↔ p < q := by
  constructor
  · intro h; by_contra hn
    rcases (Nat.not_lt.mp hn).lt_or_eq with h' | h'
    · exact absurd (magInt_strictMono h') (by omega)
    · rw [h'] at h; exact lt_irrefl _ h
  · exact magInt_strictMono

/-- The order of finite patterns is the order of their values. -/
theorem f32Lt_iff {a b : Distance} (ha : finite32 a = true) (hb : finite32 b = true) :
    f32Lt a b = true ↔ f32Int a < f32Int b := by
  have z : ∀ p, magInt p = 0 ↔ p = 0 := by
    intro p
    constructor
    · intro h
      by_contra hp
      have := magInt_strictMono (Nat.pos_of_ne_zero hp)
      rw [h] at this; simp [magInt] at this
    · rintro rfl; simp [magInt]
  have h0 : f32Lt a b = true ↔ f32Key a < f32Key b := by
    unfold f32Lt; rw [(f32_finite_not_special ha).1, (f32_finite_not_special hb).1]; simp
  rw [h0, f32Int_eq, f32Int_eq]
  unfold f32Key
  have m1 := @magInt_lt_iff (f32Mag a) (f32Mag b)
  have m2 := @magInt_lt_iff (f32Mag b) (f32Mag a)
  have za := z (f32Mag a)
  have zb := z (f32Mag b)
  generalize magInt (f32Mag a) = A at *
  generalize magInt (f32Mag b) = B at *
  generalize f32Mag a = p at *
  generalize f32Mag b = q at *
  cases f32Neg a <;> cases f32Neg b <;>
    simp only [Bool.false_eq_true, if_false, if_true, Int.ofNat_eq_natCast] <;> omega

theorem f32Value_lt {a b : Distance} : f32Value a < f32Value b ↔ f32Int a < f32Int b := by
  unfold f32Value
  rw [div_lt_div_iff_of_pos_right (by positivity)]; exact_mod_cast Iff.rfl

/-! ### No NaN and no infinity where the operands are finite -/

theorem f32Pack_not_nan (n : Bool) {p : Nat} (h : p ≤ 0x7F800000) : f32IsNaN (f32Pack n p) = false := by
  unfold f32IsNaN; rw [f32Mag_pack _ (by omega)]; simp; omega

theorem roundF32_not_nan (n : Bool) (m e g : Nat) : f32IsNaN (roundF32 n m e g) = false := by
  unfold roundF32; split
  · exact f32Pack_not_nan n (by norm_num)
  · exact f32Pack_not_nan n (by unfold roundMag; exact Nat.min_le_right _ _)

theorem f32Sub_not_nan {a b : Distance} (ha : f32IsNaN a = false) (hb : finite32 b = true) :
    f32IsNaN (f32Sub a b) = false := by
  unfold f32Sub
  rw [ha, (f32_finite_not_special hb).1, (f32_finite_not_special hb).2]
  simp only [Bool.or_false, Bool.false_and, Bool.false_eq_true, if_false]
  split
  · exact ha
  · split
    · exact f32Pack_not_nan _ (by norm_num)
    · exact roundF32_not_nan ..

theorem f32Mul_not_nan {a b : Distance} (ha : finite32 a = true) (hb : finite32 b = true) :
    f32IsNaN (f32Mul a b) = false := by
  unfold f32Mul
  rw [(f32_finite_not_special ha).1, (f32_finite_not_special ha).2, (f32_finite_not_special hb).1, (f32_finite_not_special hb).2]
  exact roundF32_not_nan ..

/-- No raw sample overflows (rule R113). -/
theorem f32OfU32_finite (r : Word) : finite32 (f32OfU32 r) = true := by
  by_cases hr : r.toNat = 0
  · have : r = 0#32 := BitVec.eq_of_toNat_eq hr
    subst this; decide
  · have hL : Nat.log2 r.toNat < 32 := by rw [Nat.log2_lt hr]; exact r.isLt
    obtain ⟨u, sig, hu, hs, h1, h2, h3, -, -⟩ := roundMag_spec (e := 149) (g := 0) hr
    have hp : roundMag r.toNat 149 0 = u * 2 ^ 23 + sig := by omega
    unfold f32OfU32 roundF32
    rw [if_neg hr, hp, finite32_iff, f32Mag_pack _ (by omega)]; omega

end Sys2Proof.Machine
end

