-- ==== Sys2Proof/Laws/PerInstr.lean ====
section
/-! SUPPORT. Statements made once per instruction. -/

namespace Sys2Proof.Laws.Port

/-- The first byte of an instruction's encoding tells the port it belongs to: the bus opcodes and the host codes are
disjoint (rule R60), so a decoder needs no other bit to choose between them (rule R66). -/
def Statement (i : Instr) : Prop :=
  ∃ first rest, encode i = first :: rest ∧ isBusOpcode first = i.isFrame ∧ decide (first.toNat < 0x10) = i.isFrame ∧
    first.getLsbD 7 = !i.isFrame

theorem wdata (address : Byte) (data : List Byte) : Statement (.wdata address data) :=
  ⟨0x02#8, _, rfl, rfl, rfl, rfl⟩

theorem rdata (address : Byte) (count : Nat) : Statement (.rdata address count) :=
  ⟨0x03#8, _, rfl, rfl, rfl, rfl⟩

theorem rstatus (rest : List Byte) : Statement (.rstatus rest) :=
  ⟨0x05#8, _, rfl, rfl, rfl, rfl⟩

theorem winstr (code : Byte) : Statement (.winstr code) :=
  ⟨0x07#8, _, rfl, rfl, rfl, rfl⟩

theorem rdataf (rest : List Byte) : Statement (.rdataf rest) :=
  ⟨0x09#8, _, rfl, rfl, rfl, rfl⟩

theorem wdataf (rest : List Byte) : Statement (.wdataf rest) :=
  ⟨0x0B#8, _, rfl, rfl, rfl, rfl⟩

theorem construct (sel : Byte) (offset : Distance) : Statement (.construct sel offset) :=
  ⟨0x80#8, _, rfl, rfl, rfl, rfl⟩

theorem readReg (address : Byte) (count : Byte) : Statement (.readReg address count) :=
  ⟨0x81#8, _, rfl, rfl, rfl, rfl⟩

theorem writeReg (address : Byte) (data : List Byte) : Statement (.writeReg address data) :=
  ⟨0x82#8, _, rfl, rfl, rfl, rfl⟩

theorem writeInstr (code : Byte) : Statement (.writeInstr code) :=
  ⟨0x83#8, _, rfl, rfl, rfl, rfl⟩

theorem lock : Statement .lock :=
  ⟨0x84#8, _, rfl, rfl, rfl, rfl⟩

theorem unlock : Statement .unlock :=
  ⟨0x85#8, _, rfl, rfl, rfl, rfl⟩

theorem classify (code : Byte) (isValid : Byte) (prev : Byte) : Statement (.classify code isValid prev) :=
  ⟨0x86#8, _, rfl, rfl, rfl, rfl⟩

theorem getRaw : Statement .getRaw :=
  ⟨0x87#8, _, rfl, rfl, rfl, rfl⟩

theorem toPhys (raw : Word) (offset : Distance) : Statement (.toPhys raw offset) :=
  ⟨0x88#8, _, rfl, rfl, rfl, rfl⟩

theorem getPos : Statement .getPos :=
  ⟨0x89#8, _, rfl, rfl, rfl, rfl⟩

theorem getStatus : Statement .getStatus :=
  ⟨0x8A#8, _, rfl, rfl, rfl, rfl⟩

theorem getVersion : Statement .getVersion :=
  ⟨0x8B#8, _, rfl, rfl, rfl, rfl⟩

theorem getRevision : Statement .getRevision :=
  ⟨0x8C#8, _, rfl, rfl, rfl, rfl⟩

end Sys2Proof.Laws.Port
end

