-- ==== Sys2Proof/Laws/Trace.lean ====
section
/-! SUPPORT. How the readers of a trace (Safety.lean: whole frames, opcode bytes, counts) go through each kind of
frame. -/

namespace Sys2Proof.Machine

/-- A data phase: transfers and nothing else. -/
def Transfers (calls : List TransportCall) : Prop := ∀ c ∈ calls, ∃ out ins, c = .transferByte out ins

theorem transfers_sent (bs : List Byte) : Transfers (bs.map sent) := by
  intro c hc
  obtain ⟨b, -, rfl⟩ := List.mem_map.mp hc
  exact ⟨_, _, rfl⟩

theorem transfers_received (bs : List Byte) : Transfers (bs.map received) := by
  intro c hc
  obtain ⟨b, -, rfl⟩ := List.mem_map.mp hc
  exact ⟨_, _, rfl⟩

/-! ### Whole frames -/

theorem scanFrames_transfers (line : Byte) {xs : List TransportCall} (h : Transfers xs) (rest : List TransportCall) :
    scanFrames line .selected (xs ++ rest) = scanFrames line .selected rest := by
  induction xs with
  | nil => rfl
  | cons x xs ih =>
    obtain ⟨o, i, rfl⟩ := h x (by simp)
    simpa [scanFrames] using ih fun y hy => h y (by simp [hy])

theorem scanFrames_rdata (line a : Byte) (bs : List Byte) (rest : List TransportCall) :
    scanFrames line .idle (rdataCalls line a bs ++ rest) = scanFrames line .idle rest := by
  simp only [rdataCalls, openCalls, closeCalls, sent, List.append_assoc, List.cons_append, List.nil_append, scanFrames]
  rw [scanFrames_transfers _ (transfers_received bs)]
  simp [scanFrames]

theorem scanFrames_wdata (line a : Byte) (vs : List Byte) (rest : List TransportCall) :
    scanFrames line .idle (wdataCalls line a vs ++ rest) = scanFrames line .idle rest := by
  have h := transfers_sent vs
  simp only [wdataCalls, openCalls, closeCalls, List.append_assoc, List.cons_append, List.nil_append, scanFrames, sent]
    at h ⊢
  rw [scanFrames_transfers _ h]
  simp [scanFrames]

theorem scanFrames_winstr (line c : Byte) (rest : List TransportCall) :
    scanFrames line .idle (winstrCalls line c ++ rest) = scanFrames line .idle rest := by
  simp [winstrCalls, openCalls, closeCalls, scanFrames, sent]

/-! ### Opcode bytes -/

theorem opcodesOf_transfers {xs : List TransportCall} (h : Transfers xs) (rest : List TransportCall) :
    opcodesOf (xs ++ rest) = opcodesOf rest := by
  induction xs with
  | nil => rfl
  | cons x xs ih =>
    obtain ⟨o, i, rfl⟩ := h x (by simp)
    simpa [opcodesOf] using ih fun y hy => h y (by simp [hy])

theorem opcodesOf_rdata (line a : Byte) (bs : List Byte) (rest : List TransportCall) :
    opcodesOf (rdataCalls line a bs ++ rest) = 0x03#8 :: opcodesOf rest := by
  simp only [rdataCalls, openCalls, closeCalls, sent, List.append_assoc, List.cons_append, List.nil_append, opcodesOf]
  rw [opcodesOf_transfers (transfers_received bs)]
  simp [opcodesOf]

theorem opcodesOf_wdata (line a : Byte) (vs : List Byte) (rest : List TransportCall) :
    opcodesOf (wdataCalls line a vs ++ rest) = 0x02#8 :: opcodesOf rest := by
  have h := transfers_sent vs
  simp only [wdataCalls, openCalls, closeCalls, sent, List.append_assoc, List.cons_append, List.nil_append, opcodesOf]
    at h ⊢
  rw [opcodesOf_transfers h]
  simp [opcodesOf]

theorem opcodesOf_winstr (line c : Byte) (rest : List TransportCall) :
    opcodesOf (winstrCalls line c ++ rest) = 0x07#8 :: opcodesOf rest := by
  simp [winstrCalls, openCalls, closeCalls, opcodesOf, sent]

/-! ### Counts (rule R126) -/

theorem frameCount_append (a b : List TransportCall) : frameCount (a ++ b) = frameCount a + frameCount b := by
  simp [frameCount]

theorem byteCount_append (a b : List TransportCall) : byteCount (a ++ b) = byteCount a + byteCount b := by
  simp [byteCount]

theorem counts_transfers {xs : List TransportCall} (h : Transfers xs) : frameCount xs = 0 ∧ byteCount xs = xs.length := by
  induction xs with
  | nil => exact ⟨rfl, rfl⟩
  | cons x xs ih =>
    obtain ⟨o, i, rfl⟩ := h x (by simp)
    simpa [frameCount, byteCount] using ih fun y hy => h y (by simp [hy])

theorem counts_rdata (line a : Byte) (bs : List Byte) :
    frameCount (rdataCalls line a bs) = 1 ∧ byteCount (rdataCalls line a bs) = 2 + bs.length := by
  have h := counts_transfers (transfers_received bs)
  simp only [rdataCalls, frameCount_append, byteCount_append, h.1, h.2]
  simp [frameCount, byteCount, openCalls, closeCalls, sent]

theorem counts_wdata (line a : Byte) (vs : List Byte) :
    frameCount (wdataCalls line a vs) = 1 ∧ byteCount (wdataCalls line a vs) = 2 + vs.length := by
  have h := counts_transfers (transfers_sent vs)
  simp only [wdataCalls, frameCount_append, byteCount_append, h.1, h.2]
  simp [frameCount, byteCount, openCalls, closeCalls, sent]

theorem counts_winstr (line c : Byte) : frameCount (winstrCalls line c) = 1 ∧ byteCount (winstrCalls line c) = 2 := by
  simp [winstrCalls, frameCount, byteCount, openCalls, closeCalls, sent]

theorem counts_writeBack (form : LockWriteForm) (line c : Byte) : frameCount (writeBackCalls form line c) = 1 ∧
    byteCount (writeBackCalls form line c) = if form = .instr then 2 else 3 := by
  cases form
  · exact counts_winstr line c
  · exact counts_wdata line _ _

end Sys2Proof.Machine
end

