-- ==== Sys2Proof/Laws/Run.lean ====
section
/-! SUPPORT. What holds of the body of every instruction (`Ran`), one lemma per part of the state, and the inversion of a
step. -/

namespace Sys2Proof.Machine

variable {i : Instr} {s t : State}

/-! ### The bodies, part by part -/

/-- Every body gives exactly one answer, a host operation's a result (rules R62, R130). -/
theorem Ran.responses (r : Ran i s t) :
    ∃ x, t.responses = s.responses ++ [x] ∧ (i.isFrame = false → ∃ bs, x = .result bs) := by
  cases i <;> simp only [Ran] at r
  all_goals (try obtain ⟨-, r⟩ := r)
  all_goals (try obtain ⟨-, r⟩ := r)
  all_goals (try obtain ⟨-, r⟩ := r)
  all_goals (try subst r)
  all_goals (refine ⟨_, by simp; rfl, ?_⟩; simp [Instr.isFrame])

/-- No body touches the inputs or the parameters. -/
theorem Ran.pending_params (r : Ran i s t) : t.pending = s.pending ∧ t.params = s.params := by
  cases i <;> simp only [Ran] at r
  all_goals (try obtain ⟨-, r⟩ := r)
  all_goals (try obtain ⟨-, r⟩ := r)
  all_goals (try obtain ⟨-, r⟩ := r)
  all_goals (try subst r)
  all_goals simp

/-- The select line stays deasserted between operations (rules R25, R79). -/
theorem Ran.select (r : Ran i s t) (h : s.select = false) : t.select = false := by
  cases i <;> simp only [Ran] at r
  all_goals (try obtain ⟨-, r⟩ := r)
  all_goals (try obtain ⟨-, r⟩ := r)
  all_goals (try obtain ⟨-, r⟩ := r)
  all_goals (try subst r)
  all_goals simp [h]

theorem wf_readComposite (h : Memory.wf s.rr = true) : Memory.wf (readComposite s).2.rr = true := by
  rw [readComposite_snd]
  exact wf_memRead _ (wf_memRead _ (wf_memRead _ (wf_memRead _ h _ _) _ _) _ _) _ _

theorem wf_classifyBank (h : Memory.wf s.rr = true) : Memory.wf (classifyBank s).rr = true := by
  simp only [classifyBank, State.drawn_rr, State.setStatus_rr]
  exact wf_memRead _ (wf_memRead _ h _ _) _ _

/-- A poll keeps the canonical form of the register file. -/
theorem wf_poll (h : Memory.wf s.rr = true) : Memory.wf (poll s).rr = true := by
  simp only [poll]
  refine wf_applyInstrMask _ ?_ _ _
  rw [commit_rr]
  exact wf_classifyBank (wf_readComposite (wf_applyInstrMask _ h _ _))

/-- Every body keeps the canonical form of the register file. -/
theorem Ran.wf (r : Ran i s t) (h : Memory.wf s.rr = true) : Memory.wf t.rr = true := by
  cases i <;> simp only [Ran] at r
  all_goals (try obtain ⟨-, r⟩ := r)
  all_goals (try obtain ⟨-, r⟩ := r)
  all_goals (try obtain ⟨-, r⟩ := r)
  all_goals (try subst r)
  all_goals (try rw [State.replyFrame_rr])
  all_goals (try rw [State.reply_rr])
  case wdata => exact wf_memWrite _ h _ _
  case writeReg => exact wf_memWrite _ h _ _
  case rdata => exact wf_memRead _ h _ _
  case readReg => exact wf_memRead _ h _ _
  case getVersion => exact wf_memRead _ h _ _
  case getRevision => exact wf_memRead _ h _ _
  case winstr => exact wf_instrWrite _ h _
  case writeInstr => exact wf_instrWrite _ h _
  case lock => exact wf_applyInstrMask _ h _ _
  case unlock => exact wf_applyInstrMask _ h _ _
  case getRaw => exact wf_poll h
  case getPos => exact wf_poll h
  all_goals exact h

/-! ### The calls of a body -/

/-- One whole frame on a select line. -/
def IsFrame (line : Byte) (f : List TransportCall) : Prop :=
  (∃ a bs, f = rdataCalls line a bs) ∨ (∃ a vs, f = wdataCalls line a vs) ∨ ∃ c, f = winstrCalls line c

/-- The calls from one state to another are whole frames, one after the other. -/
def FramesBetween (s t : State) : Prop :=
  ∃ fs : List (List TransportCall), t.bus = s.bus ++ fs.flatten ∧ ∀ f ∈ fs, IsFrame s.sel f

theorem isFrame_writeBack (form : LockWriteForm) (line c : Byte) : IsFrame line (writeBackCalls form line c) := by
  cases form
  · exact .inr (.inr ⟨c, rfl⟩)
  · exact .inr (.inl ⟨_, _, rfl⟩)

theorem FramesBetween.none (h : t.bus = s.bus) : FramesBetween s t := ⟨[], by simp [h], by simp⟩

theorem FramesBetween.one {f : List TransportCall} (h : t.bus = s.bus ++ f) (hf : IsFrame s.sel f) : FramesBetween s t :=
  ⟨[f], by simp [h], by simpa using hf⟩

theorem framesBetween_applyInstrMask (s : State) (m : Byte) (j : MaskIntent) : FramesBetween s (applyInstrMask m j s) := by
  refine ⟨[rdataCalls s.sel 0xF4#8 [(memReadByte 0xF4#8 s).1],
    writeBackCalls s.params.lockWriteForm s.sel (maskedByte m j (memReadByte 0xF4#8 s).1)], ?_, ?_⟩
  · rw [(applyInstrMask_effect s m j).1]; simp
  · intro f hf
    simp only [List.mem_cons, List.not_mem_nil, or_false] at hf
    rcases hf with rfl | rfl
    · exact .inl ⟨_, _, rfl⟩
    · exact isFrame_writeBack _ _ _

theorem framesBetween_poll (s : State) : FramesBetween s (poll s) := by
  obtain ⟨m, iv, b0, b1, b2, b3, esc, val, uv, nm, hb, -⟩ := poll_effect s
  refine ⟨[rdataCalls s.sel 0xF4#8 [iv], writeBackCalls s.params.lockWriteForm s.sel (iv ||| 0x40#8),
    rdataCalls s.sel 0x00#8 [b0], rdataCalls s.sel 0x01#8 [b1], rdataCalls s.sel 0x02#8 [b2],
    rdataCalls s.sel 0x03#8 [b3], rdataCalls s.sel 0xF0#8 [esc], rdataCalls s.sel 0xF1#8 [val],
    rdataCalls s.sel 0xF4#8 [uv], writeBackCalls s.params.lockWriteForm s.sel (uv &&& 0xBF#8)], ?_, ?_⟩
  · rw [hb]; simp [pollCalls]
  · intro f hf
    simp only [List.mem_cons, List.not_mem_nil, or_false] at hf
    rcases hf with rfl | rfl | rfl | rfl | rfl | rfl | rfl | rfl | rfl | rfl
    all_goals first | exact isFrame_writeBack _ _ _ | exact .inl ⟨_, _, rfl⟩

/-- Every body puts whole frames on the bus. -/
theorem Ran.frames (r : Ran i s t) : FramesBetween s t := by
  cases i <;> simp only [Ran] at r
  all_goals (try obtain ⟨-, r⟩ := r)
  all_goals (try obtain ⟨-, r⟩ := r)
  all_goals (try obtain ⟨-, r⟩ := r)
  all_goals (try subst r)
  case wdata => exact .one (memWrite_bus s _ _) (.inr (.inl ⟨_, _, rfl⟩))
  case writeReg => exact .one (memWrite_bus s _ _) (.inr (.inl ⟨_, _, rfl⟩))
  case rdata => exact .one (memRead_bus s _ _) (.inl ⟨_, _, rfl⟩)
  case readReg => exact .one (memRead_bus s _ _) (.inl ⟨_, _, rfl⟩)
  case winstr => exact .one (instrWrite_bus s _) (.inr (.inr ⟨_, rfl⟩))
  case writeInstr => exact .one (instrWrite_bus s _) (.inr (.inr ⟨_, rfl⟩))
  case getVersion => exact .one (by rw [State.reply_bus]; exact memReadByte_bus s _) (.inl ⟨_, _, rfl⟩)
  case getRevision => exact .one (by rw [State.reply_bus]; exact memReadByte_bus s _) (.inl ⟨_, _, rfl⟩)
  case lock => exact framesBetween_applyInstrMask s _ _
  case unlock => exact framesBetween_applyInstrMask s _ _
  case getRaw => exact framesBetween_poll s
  case getPos => exact framesBetween_poll s
  all_goals exact .none (by simp)

/-! ### Reads under the lock, and what a write frame can unlock -/

theorem memRead_rr_of_locked (h : s.locked = true) (a : Byte) (n : Nat) : (memRead a n s).2.rr = s.rr :=
  (memRead_keeps s a 0#8 n).1 h

theorem memReadByte_rr_of_locked (h : s.locked = true) (a : Byte) : (memReadByte a s).2.rr = s.rr :=
  (memReadByte_keeps s a 0#8).1 h

/-- A write data phase unlocks the bank only by a byte for 0xF4 with bit 6 clear (rule R85). -/
theorem writeBytes_unlocks {vs : List Byte} {a : Byte} (hl : s.locked = true)
    (h : (writeBytes a vs s).locked = false) :
    ∃ k < vs.length, a + BitVec.ofNat 8 k = 0xF4#8 ∧ (vs.getD k 0#8).getLsbD 6 = false := by
  induction vs generalizing a s with
  | nil => simp [writeBytes, hl] at h
  | cons v vs ih =>
    by_cases hk : (writeByte a v s).locked = true
    · obtain ⟨k, k1, k2, k3⟩ := ih hk h
      exact ⟨k + 1, by simp; omega, by rw [address_add_succ]; exact k2, by simpa using k3⟩
    · have ha : a = 0xF4#8 := by
        by_contra ha
        exact hk (writeByte_locked hl ha)
      subst ha
      refine ⟨0, by simp, by simp, ?_⟩
      rw [locked_eq, writeByte_rr] at hk
      have e : Memory.read (Memory.write (moved s s.nextMove) (BitVec.toNat 0xF4#8) v) 0xF4 = v :=
        Memory.read_write_same _ _ _
      rw [e] at hk
      simpa using hk

/-! ### Steps -/

/-- A packet is refused by name or runs the instruction it decodes to. -/
theorem runPacket_cases (bytes : List Byte) (s : State) :
    (∃ w, decodePacket bytes = .error w ∧ runPacket bytes s = .next (s.refuse w)) ∨
    ∃ i, decodePacket bytes = .ok i ∧ runPacket bytes s = exec i s := by
  unfold runPacket
  cases decodePacket bytes with
  | error w => exact .inl ⟨w, rfl, rfl⟩
  | ok i => exact .inr ⟨i, rfl, rfl⟩

/-- Where a step goes on to: idle, a reset of the controller, a refusal of a packet, or the body of an instruction. -/
theorem step_next (h : step s = .next t) :
    (s.pending = [] ∧ t = s.refreshPoint) ∨
    (∃ rest, s.pending = .controllerReset :: rest ∧ t = s.dropInput.controllerReset) ∨
    (∃ w, s.pending ≠ [] ∧ t = s.dropInput.refuse w) ∨
    ∃ i, s.pending ≠ [] ∧ Ran i s.dropInput t := by
  unfold step at h
  split at h
  · cases h; exact .inl ⟨‹_›, rfl⟩
  · rename_i input rest hp
    have hne : s.pending ≠ [] := by simp [hp]
    have fin : ∀ i, exec i s.dropInput = .next t →
        (∃ w, s.pending ≠ [] ∧ t = s.dropInput.refuse w) ∨ ∃ i, s.pending ≠ [] ∧ Ran i s.dropInput t := by
      intro i hx
      rcases exec_next hx with ⟨w, e⟩ | r
      · exact .inl ⟨w, hne, e⟩
      · exact .inr ⟨i, hne, r⟩
    cases input with
    | packet bytes =>
      rcases runPacket_cases bytes s.dropInput with ⟨w, -, e⟩ | ⟨i, -, e⟩
      · simp only [runInput, e] at h; cases h; exact .inr (.inr (.inl ⟨w, hne, rfl⟩))
      · simp only [runInput, e] at h; exact .inr (.inr (fin i h))
    | frame bytes =>
      simp only [runInput, runFrame] at h
      split at h
      · exact .inr (.inr (fin _ h))
      · cases h
    | controllerReset => cases h; exact .inr (.inl ⟨rest, hp, rfl⟩)

end Sys2Proof.Machine
end

