-- ==== Sys2Proof/Tests/Slice0.lean ====
section
/-! SUPPORT. The model's own tests: well-formedness, words written out from the spec's encodings, single steps against the
vectors of 95_test_vectors.md (V<n>, S<n>, P<n>: the number of the row or program), and one witness for every statement
with hypotheses (and for each clause of a statement with several). -/

namespace Sys2Proof.Machine

/-! ### Helpers -/

/-- The parameters with the example value of `CONV_FAC` that the vectors use, 2^-18 (rule R117: not the hardware's). -/
def testParams : Params := { Config.params with convFac := 0x36800000#32 }

/-- A handle on line 10 with offset 0 and `RAW` 7, a register file, no refresh step at the next 64 points. -/
def testState (rr : Memory) (inputs : List PortInput) : State :=
  { State.launch rr testParams inputs (List.replicate 64 none) with init := true, sel := 10#8, raw := 7#32 }

/-- The register file of program P1, with the version and revision bytes of V74 and V75. -/
def testRegs : Memory :=
  [(0x00, 0x78#8), (0x01, 0x56#8), (0x02, 0x34#8), (0x03, 0x12#8), (0xEA, 0x05#8), (0xEB, 0x83#8), (0xF1, 0x02#8),
    (0xF4, 0x21#8)]

/-- The same with the bank locked. -/
def lockedRegs : Memory :=
  [(0x00, 0x78#8), (0x01, 0x56#8), (0x02, 0x34#8), (0x03, 0x12#8), (0xF1, 0x02#8), (0xF4, 0x61#8)]

/-- The state a step goes on to. -/
def after (s : State) : Option State :=
  match step s with
  | .next t => some t
  | .fault _ => none
  | .refused _ => none

/-- The answer that a step gives. -/
def answerOf (s : State) : Option Response := (after s).bind fun t => t.responses.getLast?

/-- The answer to one packet on the register file of P1. -/
def ask (packet : List Byte) : Option Response := answerOf (testState testRegs [.packet packet])

/-- A register after one packet on the register file of P1. -/
def registerAfter (packet : List Byte) (a : Nat) : Option Byte :=
  (after (testState testRegs [.packet packet])).map fun t => Memory.read t.rr a

/-- The calls on the transport of one packet on the register file of P1. -/
def callsOf (packet : List Byte) : Option (List TransportCall) :=
  (after (testState testRegs [.packet packet])).map fun t => t.bus

/-- A poll of a quiet chip: the status before, the bank, the status byte and the validity byte; then status and `RAW`. -/
def pollOf (before : Status) (b0 b1 b2 b3 esc val : Byte) : Option (Status × Word) :=
  (after { testState (Memory.write (Memory.write (Memory.write (Memory.write (Memory.write (Memory.write [] 0xF1 val) 0xF0 esc)
    3 b3) 2 b2) 1 b1) 0 b0) [.packet [0x87#8]] with status := before }).map fun t => (t.status, t.raw)

/-! ### Well-formedness: each check refuses (rules R51, R61) -/

theorem test_wf_wdata_no_data : wellFormed (.wdata 0#8 []) = false := by decide
theorem test_wf_wdata_too_long : wellFormed (.wdata 0#8 (List.replicate 256 0#8)) = false := by
  rw [wellFormed, List.length_replicate]; decide
theorem test_wf_rdata_no_data : wellFormed (.rdata 0#8 0) = false := by decide
theorem test_wf_rdata_too_long : wellFormed (.rdata 0#8 5) = false := by decide
theorem test_wf_construct_infinity : wellFormed (.construct 0#8 0x7F800000#32) = false := by decide
theorem test_wf_readReg_zero : wellFormed (.readReg 0#8 0#8) = false := by decide
theorem test_wf_readReg_five : wellFormed (.readReg 0#8 5#8) = false := by decide
theorem test_wf_writeReg_no_data : wellFormed (.writeReg 0#8 []) = false := by decide
theorem test_wf_writeReg_too_long : wellFormed (.writeReg 0#8 (List.replicate 256 0#8)) = false := by
  rw [wellFormed, List.length_replicate]; decide
theorem test_wf_classify_isValid : wellFormed (.classify 0#8 2#8 0#8) = false := by decide
theorem test_wf_classify_prev : wellFormed (.classify 0#8 1#8 4#8) = false := by decide
theorem test_wf_toPhys_raw : wellFormed (.toPhys 0x04000000#32 0#32) = false := by decide
theorem test_wf_toPhys_nan : wellFormed (.toPhys 0#32 0x7FC00000#32) = false := by decide

/-! ### Decoding: words written out from the tables of rules R51, R52 and R60 -/

theorem test_decode_wdata :
    decodeFrame [0x02#8, 0xC2#8, 0x12#8, 0x34#8] = .ok (.wdata 0xC2#8 [0x12#8, 0x34#8]) := by decide
theorem test_decode_rdata : decodeFrame [0x03#8, 0xC2#8, 0x00#8, 0x00#8] = .ok (.rdata 0xC2#8 2) := by decide
theorem test_decode_rstatus : decodeFrame [0x05#8, 0xAA#8] = .ok (.rstatus [0xAA#8]) := by decide
theorem test_decode_winstr : decodeFrame [0x07#8, 0x61#8] = .ok (.winstr 0x61#8) := by decide
theorem test_decode_rdataf : decodeFrame [0x09#8] = .ok (.rdataf []) := by decide
theorem test_decode_wdataf : decodeFrame [0x0B#8, 0x01#8] = .ok (.wdataf [0x01#8]) := by decide
theorem test_decode_construct :
    decodePacket [0x80#8, 0x0A#8, 0x3F#8, 0xC0#8, 0x00#8, 0x00#8] = .ok (.construct 10#8 0x3FC00000#32) := by decide
theorem test_decode_readReg : decodePacket [0x81#8, 0xC2#8, 0x02#8] = .ok (.readReg 0xC2#8 2#8) := by decide
theorem test_decode_writeReg :
    decodePacket [0x82#8, 0xC2#8, 0x02#8, 0x12#8, 0x34#8] = .ok (.writeReg 0xC2#8 [0x12#8, 0x34#8]) := by decide
theorem test_decode_writeInstr : decodePacket [0x83#8, 0x40#8] = .ok (.writeInstr 0x40#8) := by decide
theorem test_decode_lock : decodePacket [0x84#8] = .ok .lock := by decide
theorem test_decode_unlock : decodePacket [0x85#8] = .ok .unlock := by decide
theorem test_decode_classify : decodePacket [0x86#8, 0x02#8, 0x01#8, 0x03#8] = .ok (.classify 2#8 1#8 3#8) := by decide
theorem test_decode_getRaw : decodePacket [0x87#8] = .ok .getRaw := by decide
theorem test_decode_toPhys :
    decodePacket [0x88#8, 0x00#8, 0xC8#8, 0x00#8, 0x00#8, 0x3F#8, 0xC0#8, 0x00#8, 0x00#8]
      = .ok (.toPhys 13107200#32 0x3FC00000#32) := by decide
theorem test_decode_getPos : decodePacket [0x89#8] = .ok .getPos := by decide
theorem test_decode_getStatus : decodePacket [0x8A#8] = .ok .getStatus := by decide
theorem test_decode_getVersion : decodePacket [0x8B#8] = .ok .getVersion := by decide
theorem test_decode_getRevision : decodePacket [0x8C#8] = .ok .getRevision := by decide
/-- V76, V78. -/
theorem test_decode_unknown : decodePacket [0x8D#8] = .error .unknownCommand ∧
    decodePacket [0x03#8, 0xF4#8, 0x00#8] = .error .unknownCommand := by decide
/-- V77. -/
theorem test_decode_short : decodePacket [0x81#8, 0x00#8] = .error .badPacketLength := by decide
theorem test_decode_frame_unknown : decodeFrame [0x04#8] = .error .unknownOpcode := by decide
theorem test_decode_frame_fill : decodeFrame [0x03#8, 0xF4#8, 0x01#8] = .error .fillByte := by decide

/-- The word of an opcode-table row runs as the first instruction after reset. -/
theorem test_withFetchWord : after (State.reset.withFetchWord 8 0x84)
    = some { State.reset with responses := [.refused .notConstructed] } := by rfl

/-! ### Bus frames at their own port -/

/-- V10, as a bare frame. -/
theorem test_wdata : (after (testState [] [.frame [0x02#8, 0xC2#8, 0x12#8, 0x34#8]])).map (fun t => (t.rr, t.bus))
    = some ([(0xC2, 0x12#8), (0xC3, 0x34#8)], wdataCalls 10#8 0xC2#8 [0x12#8, 0x34#8]) := by decide
/-- V6: the address wraps. -/
theorem test_rdata_wraps :
    answerOf (testState [(0x00, 0xCD#8), (0xFF, 0xAB#8)] [.frame [0x03#8, 0xFF#8, 0x00#8, 0x00#8]])
      = some (.frameBytes [0xAB#8, 0xCD#8]) := by decide
/-- V13. -/
theorem test_winstr : (after (testState testRegs [.frame [0x07#8, 0x40#8]])).map (fun t => Memory.read t.rr 0xF4)
    = some 0x40#8 := by decide
/-- V15, on a bare frame: nothing on the bus before construct. -/
theorem test_frame_before_construct : (after (State.launch testRegs testParams [.frame [0x07#8, 0x40#8]] [])).map
    (fun t => (t.rr, t.bus, t.responses)) = some (testRegs, [], [.refused .notConstructed]) := by decide
theorem test_rstatus_stops : step (testState [] [.frame [0x05#8]]) = .refused (.frameNotInSource 0x05#8) := by rfl

/-! ### Register access -/

/-- V3: the first byte received is the most significant. -/
theorem test_readReg : ask [0x81#8, 0x00#8, 0x04#8] = some (.result [0x78#8, 0x56#8, 0x34#8, 0x12#8]) := by decide
/-- V5: three bytes, zero-extended. -/
theorem test_readReg_three : answerOf (testState [(0, 0x80#8), (2, 0x01#8)] [.packet [0x81#8, 0x00#8, 0x03#8]])
    = some (.result [0x00#8, 0x80#8, 0x00#8, 0x01#8]) := by decide
/-- V11: an ordinary write of 0xF4 overwrites the whole byte. -/
theorem test_writeReg : registerAfter [0x82#8, 0xF4#8, 0x01#8, 0x40#8] 0xF4 = some 0x40#8 := by decide
/-- V12. -/
theorem test_writeReg_empty : ask [0x82#8, 0xC0#8, 0x00#8] = some (.refused .badLength) := by decide
/-- V14. -/
theorem test_writeInstr : registerAfter [0x83#8, 0x00#8] 0xF4 = some 0x00#8 := by decide
/-- V74. -/
theorem test_getVersion : ask [0x8B#8] = some (.result [0x83#8]) ∧ callsOf [0x8B#8] = some (rdataCalls 10#8 0xEB#8 [0x83#8])
    := by decide
/-- V75. -/
theorem test_getRevision : ask [0x8C#8] = some (.result [0x05#8]) ∧
    callsOf [0x8C#8] = some (rdataCalls 10#8 0xEA#8 [0x05#8]) := by decide

/-! ### The bank lock -/

/-- V17. -/
theorem test_lock : registerAfter [0x84#8] 0xF4 = some 0x61#8 ∧
    callsOf [0x84#8] = some (rdataCalls 10#8 0xF4#8 [0x21#8] ++ winstrCalls 10#8 0x61#8) := by decide
/-- V19d: the other write-back frame. -/
theorem test_lock_data_form :
    (after { testState testRegs [.packet [0x84#8]] with params := { testParams with lockWriteForm := .data } }).map
      (fun t => (Memory.read t.rr 0xF4, t.bus))
    = some (0x61#8, rdataCalls 10#8 0xF4#8 [0x21#8] ++ wdataCalls 10#8 0xF4#8 [0x61#8]) := by decide
/-- V19a. -/
theorem test_unlock : (after (testState lockedRegs [.packet [0x85#8]])).map (fun t => Memory.read t.rr 0xF4)
    = some 0x21#8 := by decide
/-- V19c. -/
theorem test_unlock_other_bits : (after (testState [(0xF4, 0xFF#8)] [.packet [0x85#8]])).map (fun t => Memory.read t.rr 0xF4)
    = some 0xBF#8 := by decide

/-! ### The classifier -/

/-- V23 and V25, as packets. -/
theorem test_classify : ask [0x86#8, 0x02#8, 0x01#8, 0x00#8] = some (.result [0x03#8]) ∧
    ask [0x86#8, 0x01#8, 0x01#8, 0x03#8] = some (.result [0x02#8]) := by decide
/-- The rows of rule R94 for code 0, 1, 2 and a code without a rule. -/
theorem test_classify_table :
    [Status.noErrors, .invalidCrc, .encoderWarning, .encoderAlarm].map
        (fun p => ([0#8, 1#8, 2#8, 9#8].map (fun c => classify .rule4 p c true p), classify .rule4 p 2#8 false p))
      = [([.noErrors, .encoderWarning, .encoderAlarm, .noErrors], .invalidCrc),
         ([.noErrors, .encoderWarning, .encoderAlarm, .invalidCrc], .invalidCrc),
         ([.noErrors, .encoderWarning, .encoderAlarm, .encoderWarning], .invalidCrc),
         ([.encoderAlarm, .encoderWarning, .encoderAlarm, .encoderAlarm], .encoderAlarm)] := by decide

/-! ### Polls -/

/-- V60: a clean poll; program P1: its ten frames. -/
theorem test_getRaw : ask [0x87#8] = some (.result [0x00#8, 0x8D#8, 0x15#8, 0x9E#8]) ∧
    callsOf [0x87#8] = some (pollCalls .instr 10#8 0x21#8 0x78#8 0x56#8 0x34#8 0x12#8 0x00#8 0x02#8 0x61#8) := by decide
/-- V62, V63, V66, V68. -/
theorem test_getRaw_status : pollOf .noErrors 0x78#8 0x56#8 0x34#8 0x12#8 0#8 3#8 = some (.invalidCrc, 7#32) ∧
    pollOf .noErrors 0x78#8 0x56#8 0x34#8 0x12#8 1#8 2#8 = some (.encoderWarning, 7#32) ∧
    pollOf .encoderWarning 0#8 0#8 0#8 0#8 0#8 2#8 = some (.noErrors, 0#32) ∧
    pollOf .invalidCrc 0x78#8 0x56#8 0x34#8 0x12#8 9#8 2#8 = some (.invalidCrc, 7#32) := by decide
/-- V31, V36, V38. -/
theorem test_candidate : candidate 0xFFFFFFFF#32 = 67108863#32 ∧ candidate 0xF0000000#32 = 0#32 ∧
    candidate (packSample [0x12#8, 0x34#8, 0x56#8, 0x78#8]) = 34966788#32 := by decide
theorem test_getStatus :
    answerOf { testState [] [.packet [0x8A#8]] with status := .encoderWarning } = some (.result [0x02#8]) := by decide

/-! ### Distances (`CONV_FAC` = 2^-18) -/

/-- V42. -/
theorem test_toPhys : ask [0x88#8, 0x00#8, 0xC8#8, 0x00#8, 0x00#8, 0x3F#8, 0xC0#8, 0x00#8, 0x00#8]
    = some (.result [0x42#8, 0x42#8, 0x00#8, 0x00#8]) := by decide
/-- V40, V41, V45 to V49. -/
theorem test_toPhysical : toPhysical (binary32 0x36800000#32) 0#32 0#32 = 0#32 ∧
    toPhysical (binary32 0x36800000#32) 67108863#32 0#32 = 0x43800000#32 ∧
    toPhysical (binary32 0x36800000#32) 0#32 0x40A00000#32 = 0xC0A00000#32 ∧
    toPhysical (binary32 0x36800000#32) 16777217#32 0#32 = 0x42800000#32 ∧
    toPhysical (binary32 0x36800000#32) 33554434#32 0#32 = 0x43000000#32 ∧
    toPhysical (binary32 0x36800000#32) 33554438#32 0#32 = 0x43000002#32 ∧
    toPhysical (binary32 0x36800000#32) 9246110#32 0#32 = 0x420D159E#32 := by decide
/-- V50, V51, V53 to V58, V59b. -/
theorem test_correct : correct (binary32 0x36800000#32) 0x42480000#32 = 0xC20E6666#32 ∧
    correct (binary32 0x36800000#32) 0x43430000#32 = 0xC0A00000#32 ∧
    correct (binary32 0x36800000#32) 0x41200000#32 = 0x41200000#32 ∧
    correct (binary32 0x36800000#32) 0x41200001#32 = 0xC2973333#32 ∧
    correct (binary32 0x36800000#32) 0x42C7FFFF#32 = 0x41666660#32 ∧
    correct (binary32 0x36800000#32) 0x42C80000#32 = 0x42C80000#32 ∧
    correct (binary32 0x36800000#32) 0x433E0000#32 = 0x433E0000#32 ∧
    correct (binary32 0x36800000#32) 0x433E0001#32 = 0xC11FFFF0#32 ∧
    correct (binary32 0x36800000#32) 0x437A0000#32 = 0x42480000#32 := by decide
/-- Program P3, calls 1 and 3: 50.0 is corrected; a stale 51118080 gives 195.0, corrected to -5.0. -/
theorem test_getPos :
    answerOf (testState [(2, 0x20#8), (3, 0x03#8), (0xF1, 2#8)] [.packet [0x89#8]])
      = some (.result [0xC2#8, 0x0E#8, 0x66#8, 0x66#8]) ∧
    answerOf { testState [(2, 0x50#8)] [.packet [0x89#8]] with raw := 51118080#32 }
      = some (.result [0xC0#8, 0xA0#8, 0x00#8, 0x00#8]) := by decide

/-! ### The handle -/

/-- V70. -/
theorem test_construct : (after (State.launch [] testParams [.packet [0x80#8, 0x0A#8, 0#8, 0#8, 0#8, 0#8]] [])).map
    (fun t => (t.sel, t.offset, t.status, t.init, t.bus)) = some (10#8, 0#32, .noErrors, true, []) := by decide
/-- V71, V72. -/
theorem test_construct_refused : ask [0x80#8, 0x0A#8, 0#8, 0#8, 0#8, 0#8] = some (.refused .alreadyConstructed) ∧
    answerOf (State.launch [] testParams [.packet [0x80#8, 0x03#8, 0x7F#8, 0xC0#8, 0#8, 0#8]] [])
      = some (.refused .badOffset) := by decide

/-! ### Memory -/

/-- Writing what an unlisted register reads as removes the entry. -/
theorem test_memory_canonical : Memory.write [(3, 5#8), (9, 1#8)] 3 0#8 = [(9, 1#8)] ∧
    Memory.write [(3, 5#8), (9, 1#8)] 4 7#8 = [(3, 5#8), (4, 7#8), (9, 1#8)] := by decide

/-! ### Witnesses: a concrete state and operands for the hypotheses of each statement -/

/-- A handle on an unlocked bank, and one on a locked bank. -/
def openState : State := testState testRegs []
def heldState : State := testState lockedRegs []

/-- A launch whose first input is a bare frame. -/
def bareLaunch : State := State.launch [] testParams [.frame [0x03#8, 0xF4#8, 0x00#8]] []

theorem witness_DecodeOfEncode : (wellFormed (.rdata 0xFF#8 4) = true ∧ (Instr.rdata 0xFF#8 4).isFrame = true) ∧
    wellFormed (.classify 0xFF#8 1#8 3#8) = true ∧ (Instr.classify 0xFF#8 1#8 3#8).isFrame = false := by decide
theorem witness_EncodeOfDecode : (∃ i, decodePacket [0x82#8, 0#8, 0#8] = .ok i) ∧
    ∃ i, decodeFrame [0x03#8, 0#8, 0#8] = .ok i := ⟨⟨_, rfl⟩, _, rfl⟩
/-- Every branch, at its ends: a code below, between and above; each length; `len` 0, 1 and a `len` that is not met. -/
theorem witness_PacketsThatDecode : decodePacket [0x7F#8] = .error .unknownCommand ∧
    decodePacket [0x8D#8] = .error .unknownCommand ∧
    decodePacket [0x80#8, 1#8, 0#8, 0#8, 0#8, 0#8] = .ok (.construct 1#8 0#32) ∧
    decodePacket [0x82#8, 7#8, 0#8] = .ok (.writeReg 7#8 []) ∧
    decodePacket [0x82#8, 7#8, 1#8, 9#8] = .ok (.writeReg 7#8 [9#8]) ∧
    decodePacket [0x82#8, 7#8, 2#8, 9#8] = .error .badPacketLength ∧
    decodePacket [0x82#8, 7#8] = .error .badPacketLength ∧
    decodePacket [0x89#8] = .ok .getPos ∧ decodePacket [0x8C#8, 0#8] = .error .badPacketLength := by decide
theorem witness_FramesThatDecode : (∃ i, decodeFrame [0x02#8, 0#8, 1#8] = .ok i) ∧
    decodeFrame [0x02#8, 0#8] = .error .frameLength ∧
    (∃ i, decodeFrame (0x02#8 :: 0#8 :: List.replicate 255 1#8) = .ok i) ∧
    (∃ i, decodeFrame [0x03#8, 0#8, 0#8, 0#8, 0#8, 0#8] = .ok i) ∧
    decodeFrame [0x03#8, 0#8, 0#8, 0#8, 0#8, 0#8, 0#8] = .error .frameLength ∧
    decodeFrame [0x07#8] = .error .frameLength ∧ (∃ i, decodeFrame [0x0B#8] = .ok i) ∧
    decodeFrame [0x0C#8] = .error .unknownOpcode :=
  ⟨⟨_, rfl⟩, rfl, ⟨_, by simp only [decodeFrame, List.length_replicate]; rfl⟩, ⟨_, rfl⟩, rfl, rfl, ⟨_, rfl⟩, rfl⟩
theorem witness_StepRunsTheDecodedInstruction :
    (testState [] [.packet [0x87#8]]).pending = .packet [0x87#8] :: [] ∧ decodePacket [0x87#8] = .ok .getRaw ∧
    (testState [] [.frame [0x07#8, 1#8]]).pending = .frame [0x07#8, 1#8] :: [] ∧
    decodeFrame [0x07#8, 1#8] = .ok (.winstr 1#8) := by decide
theorem witness_UndecodedPacketIsRefused : (testState [] [.packet [0x8D#8]]).pending = .packet [0x8D#8] :: [] ∧
    decodePacket [0x8D#8] = .error .unknownCommand := by decide
theorem witness_UndecodedFrameStops : (testState [] [.frame [0x00#8]]).pending = .frame [0x00#8] :: [] ∧
    decodeFrame [0x00#8] = .error .unknownOpcode := by decide
/-- A snapshot, no move, and a launch without moves; in the set and outside it, at the ends of its ranges. -/
theorem witness_RefreshReplacesTheSnapshot : ({ openState with moves := [some [(0, 1#8), (0xF1, 3#8)]] } : State).moves
      = some [(0, 1#8), (0xF1, 3#8)] :: [] ∧
    (∃ rest, openState.moves = none :: rest) ∧ (State.launch [] testParams [] []).moves = [] ∧
    openState.locked = false ∧ heldState.locked = true ∧ 0x00#8 ∈ openState.params.frozenSet ∧ 0xF1#8 ∈ openState.params.frozenSet ∧
    0x08#8 ∉ openState.params.frozenSet := by
  refine ⟨rfl, ⟨List.replicate 63 none, rfl⟩, ?_⟩; decide
theorem witness_IdleStepLeavesTheController : openState.pending = [] := by decide
theorem witness_ControllerResetKeepsTheChip :
    (testState lockedRegs [.controllerReset]).pending = .controllerReset :: [] := by decide
theorem witness_InvariantKeptByEveryStep : Inv (testState testRegs [.packet [0x87#8]]) ∧
    ∃ t, step (testState testRegs [.packet [0x87#8]]) = .next t := ⟨by unfold Inv; decide, _, rfl⟩
theorem witness_StepTakesOneInput : (∃ t, step (testState testRegs [.packet [0x87#8]]) = .next t) ∧
    (testState testRegs [.packet []]).pending = .packet [] :: [] := ⟨⟨_, rfl⟩, rfl⟩
/-- The shortest and the longest write. -/
theorem witness_WdataResult : openState.init = true ∧ (1 ≤ [9#8].length ∧ [9#8].length ≤ 255) ∧
    1 ≤ (List.replicate 255 9#8).length ∧ (List.replicate 255 9#8).length ≤ 255 := by
  rw [List.length_replicate]; decide
theorem witness_RdataResult : openState.init = true ∧ (1 ≤ 1 ∧ 1 ≤ 4) ∧ 1 ≤ 4 ∧ 4 ≤ 4 := by decide
theorem witness_WinstrResult : openState.init = true := rfl
theorem witness_FramesWithoutMeaningStop : ([] : List Byte).length = 0 ∧ 255 < (List.replicate 256 9#8).length ∧
    (0 = 0 ∨ 4 < 0) ∧ (5 = 0 ∨ 4 < 5) := by
  rw [List.length_replicate]; decide
/-- The ends of the count, and for the effect: a register that is safe by the lock, one outside the set, a quiet chip. -/
theorem witness_ReadRegisterResult : openState.init = true ∧ (1 ≤ (1#8).toNat ∧ (4#8).toNat ≤ 4) ∧ Safe heldState 0x00#8 ∧
    Safe openState 0xEB#8 ∧ Quiet openState (2 + 4) ∧ 0x00#8 ∉ openState.params.volatileSet :=
  ⟨rfl, by decide, .inl (by decide), .inr (by decide), ⟨List.replicate 58 none, rfl⟩, by decide⟩
theorem witness_FoldIsMostSignificantFirst : ([] : List Byte).length ≤ 4 ∧ [1#8, 2#8, 3#8, 4#8].length ≤ 4 := by decide
theorem witness_WriteRegisterResult : openState.init = true ∧ 1 ≤ [9#8].length ∧ 1 ≤ (List.replicate 255 9#8).length ∧
    (List.replicate 255 9#8).length ≤ 255 ∧ SafeInWrite heldState 0x00#8 2 0x01#8 ∧ SafeInWrite openState 0xC2#8 2 0xC3#8 := by
  rw [List.length_replicate]
  exact ⟨rfl, by decide, by decide, by decide, .inr (by decide), .inl (by decide)⟩
theorem witness_WriteInstructionResult : openState.init = true ∧ Safe heldState 0x00#8 ∧ Quiet openState 2 :=
  ⟨rfl, .inl (by decide), List.replicate 62 none, rfl⟩
theorem witness_VersionAndRevisionResult : openState.init = true := rfl
theorem witness_LockResult : openState.init = true ∧ Safe openState 0xF4#8 ∧ 0xF4#8 ∉ openState.params.volatileSet ∧
    Quiet openState (maskPoints openState.params.lockWriteForm) :=
  ⟨rfl, .inr (by decide), by decide, List.replicate 59 none, rfl⟩
theorem witness_UnlockResult : heldState.init = true ∧ Safe heldState 0xF4#8 := ⟨rfl, .inl (by decide)⟩
/-- Each of its clauses: every instruction it names, and two reads of the longest form that no draw enters. -/
theorem witness_LockFreezesTheBank : heldState.locked = true ∧ (∃ t, exec (.rdata 0#8 4) heldState = .next t) ∧
    (∃ t, exec (.classify 0#8 1#8 0#8) heldState = .next t) ∧ (∃ t, exec (.construct 0#8 0#32) heldState = .next t) ∧
    heldState.init = true ∧ (∀ i < (4#8).toNat, 0#8 + BitVec.ofNat 8 i ∉ heldState.params.volatileSet) ∧
    ∃ t u, exec (.readReg 0#8 4#8) heldState = .next t ∧ exec (.readReg 0#8 4#8) t = .next u :=
  ⟨by decide, ⟨_, rfl⟩, ⟨_, rfl⟩, ⟨_, rfl⟩, rfl, by decide, _, _, rfl, rfl⟩
theorem witness_OnlyAWriteOfF4Unlocks : heldState.locked = true ∧
    (∃ t, exec .unlock heldState = .next t ∧ t.locked = false) ∧
    (∃ t, exec (.winstr 0xBF#8) heldState = .next t ∧ t.locked = false) ∧
    ∃ t, exec (.wdata 0xF3#8 [1#8, 0x21#8]) heldState = .next t ∧ t.locked = false :=
  ⟨by decide, ⟨_, rfl, by decide⟩, ⟨_, rfl, by decide⟩, _, rfl, by decide⟩
theorem witness_LocksDoNotNest : openState.init = true ∧ ∃ a b c d, exec .lock openState = .next a ∧ exec .lock a = .next b ∧
    exec .unlock b = .next c ∧ exec .getRaw b = .next d := ⟨rfl, _, _, _, _, rfl, rfl, rfl, rfl⟩
/-- Both ways in, and every rule: code 3 and code 255 for the case without a rule. -/
theorem witness_ClassifierRules2To5 : Status.noErrors ≠ .encoderAlarm ∧
    (AlarmRecovery.rule4 = .rule4 ∧ true = true ∧ (1#8 : Byte) = 1#8) ∧ (3 ≤ (3#8 : Byte).toNat ∧ 3 ≤ (255#8 : Byte).toNat) ∧
    classify .rule4 .noErrors 2#8 true .noErrors = .encoderAlarm := by decide
theorem witness_ClassifyResult : (0#8 : Byte).toNat ≤ 1 ∧ (1#8 : Byte).toNat ≤ 1 ∧ (0#8 : Byte).toNat ≤ 3 ∧ (3#8 : Byte).toNat ≤ 3 ∧
    openState.params.noMatch = .hold := by decide
theorem witness_AlarmHoldsRaw : ({ openState with status := .encoderAlarm } : State).status = .encoderAlarm ∧
    (∀ l o, Instr.getRaw ≠ .construct l o) ∧ ∃ t, exec .getRaw { openState with status := .encoderAlarm } = .next t :=
  ⟨rfl, by intros; simp, _, rfl⟩
/-- A poll's effect: the register that the lock needs is steady, a quiet chip, no draw. -/
theorem witness_GetRawResult : openState.init = true ∧ Safe openState 0xF4#8 ∧
    Quiet openState (maskPoints openState.params.lockWriteForm) ∧ 0x00#8 ∉ openState.params.volatileSet ∧
    0xF1#8 ∉ openState.params.volatileSet ∧ openState.params.noMatch = .hold :=
  ⟨rfl, .inr (by decide), ⟨List.replicate 59 none, rfl⟩, by decide, by decide, rfl⟩
theorem witness_CompositeIsLeastSignificantFirst : Steady heldState 0#8 ∧ Steady heldState 1#8 ∧ Steady heldState 2#8 ∧ Steady heldState 3#8 :=
  ⟨⟨.inl (by decide), by decide⟩, ⟨.inl (by decide), by decide⟩, ⟨.inl (by decide), by decide⟩,
    .inl (by decide), by decide⟩
/-- A poll that commits and one that keeps. -/
theorem witness_CommitOnNoErrorsOnly : (∃ t, exec .getRaw openState = .next t ∧ t.status = .noErrors) ∧
    ∃ t, exec .getPos (testState [] []) = .next t ∧ t.status ≠ .noErrors := ⟨⟨_, rfl, by decide⟩, _, rfl, by decide⟩
theorem witness_EveryPollUnlocks : (∃ t, exec .getRaw openState = .next t) ∧ ∃ t, exec .getPos heldState = .next t :=
  ⟨⟨_, rfl⟩, _, rfl⟩
/-- A quiet chip between the polls, both forms of the lock's write; and a chip whose samples are never refreshed. -/
theorem witness_PollsOfOneSnapshotAgree : openState.init = true ∧ (∀ x < 4, BitVec.ofNat 8 x ∉ openState.params.volatileSet) ∧
    (∃ a b, Quiet a (maskPoints a.params.lockWriteForm) ∧ exec .getRaw openState = .next a ∧ exec .getRaw a = .next b ∧
      a.status = .noErrors ∧ b.status = .noErrors) ∧ maskPoints .instr = 5 ∧ maskPoints .data = 6 ∧
    ∀ x < 4, BitVec.ofNat 8 x ∉ [0xF0#8, 0xF1#8] :=
  ⟨rfl, by decide, ⟨_, _, ⟨List.replicate 31 none, rfl⟩, rfl, rfl, by decide, by decide⟩, rfl, rfl, by decide⟩
theorem witness_RawChangesOnlyByCommit : (∀ l o, Instr.getRaw ≠ .construct l o) ∧
    ∃ t, exec .getRaw openState = .next t ∧ t.raw ≠ openState.raw := ⟨by intros; simp, _, rfl, by decide⟩
theorem witness_GetStatusResult : openState.init = true := rfl
theorem witness_ToPhysicalResult : (0#32 : Word).toNat < 2 ^ 26 ∧ (67108863#32 : Word).toNat < 2 ^ 26 ∧
    finite32 0x80000000#32 = true ∧ finite32 0xFF7FFFFF#32 = true := by decide
theorem witness_GetPositionResult : openState.init = true := rfl
theorem witness_CorrectorOnExactNumbers : ((10 : Rat) < 101 / 10 ∧ (999 / 10 : Rat) < 100) ∧ (190 : Rat) < 1901 / 10 ∧
    ((10 : Rat) ≤ 10 ∨ False) ∧ ((100 : Rat) ≤ 100 ∧ (190 : Rat) ≤ 190) := by norm_num
/-- The binary32 neighbours of the bounds (V53 to V58), by their integers in units of 2^-149. -/
theorem witness_CorrectorBranchesByValue : finite32 0x41200001#32 = true ∧
    f32Int 0x41200000#32 = 10 * 2 ^ 149 ∧ 10 * 2 ^ 149 < f32Int 0x41200001#32 ∧ f32Int 0x42C7FFFF#32 < 100 * 2 ^ 149 ∧
    f32Int 0x42C80000#32 = 100 * 2 ^ 149 ∧ f32Int 0x433E0000#32 = 190 * 2 ^ 149 ∧
    190 * 2 ^ 149 < f32Int 0x433E0001#32 := by decide
theorem witness_OfU32IsNearest : (0x01000000#32 : Word).toNat ≤ 2 ^ 24 ∧
    (2 ^ 24 < (0x01000001#32 : Word).toNat ∧ (0x01FFFFFF#32 : Word).toNat < 2 ^ 25) ∧
    2 ^ 25 ≤ (0x02000000#32 : Word).toNat ∧ (0x03FFFFFF#32 : Word).toNat < 2 ^ 26 := by decide
/-- Also two ties: 2^24 + 1 between 2^24 and 2^24 + 2, and 4097 * 4097 between 16785408 and 16785410. -/
theorem witness_ArithmeticRoundsToNearest : (finite32 0x42480000#32 = true ∧ finite32 0x42AB3333#32 = true ∧
    finite32 0x00000001#32 = true ∧ finite32 (f32Sub 0x42480000#32 0x42AB3333#32) = true ∧
    finite32 (f32Mul 0x42480000#32 0x42AB3333#32) = true) ∧
    (f32Int 0x4B800001#32 - (f32Int 0x4B800000#32 - f32Int 0xBF800000#32) =
      f32Int 0x4B800000#32 - f32Int 0xBF800000#32 - f32Int (f32Sub 0x4B800000#32 0xBF800000#32)) ∧
    f32Int 0x4B801001#32 * 2 ^ 149 - f32Int 0x45800800#32 * f32Int 0x45800800#32 =
      f32Int 0x45800800#32 * f32Int 0x45800800#32 - f32Int (f32Mul 0x45800800#32 0x45800800#32) * 2 ^ 149 := by
  decide
theorem witness_DistancesAreNumbers : 0 < (0x00000001#32 : Word).toNat ∧ (0x7F7FFFFF#32 : Word).toNat < 0x7F800000 ∧
    finite32 0xFF7FFFFF#32 = true := by decide
theorem witness_ConstructResult : State.reset.init = false ∧ finite32 0xC0A00000#32 = true := by decide
theorem witness_NothingRunsWithoutAHandle : State.reset.init = false ∧ Instr.getRaw.isFrame = false ∧
    (∀ l o, Instr.getRaw ≠ .construct l o) ∧ (∀ c v p, Instr.getRaw ≠ .classify c v p) ∧
    ∀ r o, Instr.getRaw ≠ .toPhys r o := ⟨rfl, rfl, by intros; simp, by intros; simp, by intros; simp⟩
/-- Every refusal, at the ends of its range. -/
theorem witness_OperandRefusals : openState.init = true ∧ State.reset.init = false ∧ finite32 0x7F800000#32 = false ∧
    (0#8 : Byte).toNat = 0 ∧ 4 < (5#8 : Byte).toNat ∧ ([] : List Byte).length = 0 ∧ 1 < (2#8 : Byte).toNat ∧ 3 < (4#8 : Byte).toNat ∧
    2 ^ 26 ≤ (0x04000000#32 : Word).toNat ∧ (0x03FFFFFF#32 : Word).toNat < 2 ^ 26 := by decide
theorem witness_AdmittedOperationsReturn : Instr.getRaw.isFrame = false ∧ wellFormed .getRaw = true ∧ openState.init = true ∧
    (∀ l o, Instr.getRaw ≠ .construct l o) ∧ wellFormed (.construct 1#8 0#32) = true ∧ State.reset.init = false ∧
    wellFormed (.classify 0#8 0#8 0#8) = true ∧ wellFormed (.toPhys 0#32 0#32) = true :=
  ⟨rfl, rfl, rfl, by intros; simp, by decide, rfl, by decide, by decide⟩
theorem witness_HandleFrame : (∀ l o, Instr.lock ≠ .construct l o) ∧ (∃ t, exec .lock openState = .next t) ∧
    Instr.lock ≠ .getRaw ∧ Instr.lock ≠ .getPos := ⟨by intros; simp, ⟨_, rfl⟩, by decide, by decide⟩
theorem witness_BusSeesWholeFrames : (∃ t, exec .getPos openState = .next t) ∧ openState.select = false := ⟨⟨_, rfl⟩, rfl⟩
/-- Both forms of the write-back, and an operation without a frame. -/
theorem witness_FramesPerOperation : (∃ t, exec .getRaw openState = .next t) ∧ openState.params.lockWriteForm = .instr ∧
    wellFormed (.writeReg 0#8 [1#8]) = true ∧ (∃ t, exec .getStatus openState = .next t) ∧ openState.init = true :=
  ⟨⟨_, rfl⟩, rfl, by decide, ⟨_, rfl⟩, rfl⟩
theorem witness_HandleNumbersStayInside : (∃ t, exec .getPos openState = .next t) ∧
    ∃ t, step (testState testRegs [.packet [0x89#8]]) = .next t := ⟨⟨_, rfl⟩, _, rfl⟩
/-- A step before construct that a frame is given to, and the ends of the lengths. -/
theorem witness_NoFrameWithoutAHandle : bareLaunch.init = false ∧ (∃ t, step bareLaunch = .next t) ∧
    bareLaunch.select = false ∧ 1 ≤ [9#8].length ∧ (List.replicate 255 9#8).length ≤ 255 ∧ (1 ≤ 1 ∧ 4 ≤ 4) := by
  rw [List.length_replicate]; exact ⟨rfl, ⟨_, rfl⟩, rfl, by decide, by decide, by decide⟩
/-- A step that leaves `INIT` at 0, and one that constructs the handle. -/
theorem witness_HandleIsUnreadableBeforeConstruct : bareLaunch.init = false ∧ (∃ t, step bareLaunch = .next t) ∧
    ∃ t, step (State.launch [] testParams [.packet [0x80#8, 0x0A#8, 0#8, 0#8, 0#8, 0#8]] []) = .next t ∧ t.init = true :=
  ⟨rfl, ⟨_, rfl⟩, _, rfl, rfl⟩
/-- A register that is read steadily, and an instruction with frames and one without. -/
theorem witness_OneMoveForEveryTransfer : 0x00#8 ∉ openState.params.volatileSet ∧ (∃ t, exec .getPos openState = .next t) ∧
    ∃ t, exec .getStatus openState = .next t := ⟨by decide, ⟨_, rfl⟩, _, rfl⟩

end Sys2Proof.Machine
end

section
/-! PROOFS. When `RAW` changes (rules R12, R104): only a poll that ends with `no_errors` writes it, and what it writes is
a 26-bit candidate. -/

namespace Sys2Proof.Machine

/-- The mask keeps `RAW_BITS` = 26 bits (rule R102). -/
theorem candidate_lt (reading : Word) : (candidate reading).toNat < 2 ^ 26 := by
  rw [candidate, BitVec.toNat_and]
  exact Nat.and_lt_two_pow _ (show Config.rawMask.toNat < 2 ^ 26 by decide)

/-- `RAW` after a poll: the candidate sampled under the lock where the new status is `no_errors`, and otherwise what it
was (rule R104). -/
theorem poll_raw (s : State) : (poll s).raw = if (poll s).status = .noErrors then
    candidate (readComposite (applyInstrMask Config.lockMask .set s)).1 else s.raw := by
  simp [poll, commit_raw]

/-- An instruction that neither creates the handle nor polls keeps every register of the handle. -/
theorem Ran.sameHandle {i : Instr} {s t : State} (h : Ran i s t) (hc : ∀ l o, i ≠ .construct l o)
    (hr : i ≠ .getRaw) (hp : i ≠ .getPos) : SameHandle s t := by
  cases i with
  | construct l o => exact absurd rfl (hc l o)
  | getRaw => exact absurd rfl hr
  | getPos => exact absurd rfl hp
  | rstatus _ | rdataf _ | wdataf _ => exact h.elim
  | wdata _ _ | rdata _ _ | readReg _ _ | writeReg _ _ =>
    obtain ⟨-, -, -, rfl⟩ := h
    simp [SameHandle, SameSetup]
  | classify _ _ _ | toPhys _ _ =>
    obtain ⟨-, -, rfl⟩ := h
    simp [SameHandle, SameSetup]
  | winstr _ | writeInstr _ | lock | unlock | getStatus | getVersion | getRevision =>
    obtain ⟨-, rfl⟩ := h
    simp [SameHandle, SameSetup]

/-- A poll keeps `RAW`, or ends with `no_errors` and a `RAW` of 26 bits. -/
theorem poll_raw_kept_or_committed (s : State) :
    (poll s).raw = s.raw ∨ ((poll s).status = .noErrors ∧ (poll s).raw.toNat < 2 ^ 26) := by
  by_cases hst : (poll s).status = .noErrors
  · exact .inr ⟨hst, by rw [poll_raw, if_pos hst]; exact candidate_lt _⟩
  · exact .inl (by rw [poll_raw, if_neg hst])

/-- Settles O41: by the cases of `exec_next`, where a refusal and every instruction but a poll keep `RAW`. -/
theorem rawChangesOnlyByCommit : Obligations.RawChangesOnlyByCommit := by
  intro i s t hc h
  obtain ⟨w, rfl⟩ | hran := exec_next h
  · exact .inl (State.refuse_raw s w)
  · by_cases hpoll : i = .getRaw ∨ i = .getPos
    · have ht : t.raw = (poll s).raw ∧ t.status = (poll s).status := by
        obtain rfl | rfl := hpoll <;> obtain ⟨-, rfl⟩ := hran <;> exact ⟨rfl, rfl⟩
      rw [ht.1, ht.2]
      exact (poll_raw_kept_or_committed s).imp_right fun hcommit => ⟨hpoll, hcommit⟩
    · obtain ⟨hr, hp⟩ := not_or.mp hpoll
      obtain ⟨-, hraw, -⟩ := hran.sameHandle hc hr hp
      exact .inl hraw

end Sys2Proof.Machine
end

section
/-! PROOFS. What a locked bank gives to a reader (rules R38, R39), and the four bytes of the composite (rules R32,
R101). -/

namespace Sys2Proof.Machine

/-! ### Reads of a locked bank (rule R39) -/

/-- A read frame of a locked bank gives the bytes that the registers of its addresses hold, where none of them is a draw
(rules R37, R39). -/
theorem memRead_fst_of_locked {s : State} (hl : s.locked = true) (a : Address) (n : Nat)
    (hv : ∀ i < n, a + BitVec.ofNat 8 i ∉ s.params.volatileSet) :
    (memRead a n s).1 = (frameAddresses a n).map fun x => Memory.read s.rr x.toNat := by
  refine List.ext_getElem (by simp [frameAddresses]) fun i hi _ => ?_
  have hn : i < n := by simpa using hi
  have hbyte := memRead_value a n i hn ⟨.inl hl, hv i hn⟩
  rw [List.getD_eq_getElem _ _ hi] at hbyte
  simpa [frameAddresses] using hbyte

/-- What a read frame of a locked bank gives is the same in every state with this register file and these parameters. -/
theorem memRead_fst_of_same_bank {s t : State} (hl : s.locked = true) (hrr : t.rr = s.rr) (hp : t.params = s.params)
    (a : Address) (n : Nat) (hv : ∀ i < n, a + BitVec.ofNat 8 i ∉ s.params.volatileSet) :
    (memRead a n t).1 = (memRead a n s).1 := by
  rw [memRead_fst_of_locked hl a n hv, memRead_fst_of_locked ((locked_of_rr hrr).trans hl) a n (by rwa [hp]), hrr]

/-- `readRegister` with a handle and a count in range is one read frame and its answer (rule R74). -/
theorem exec_readReg_next {s : State} (hinit : s.init = true) (a : Address) {count : Byte} (h1 : 1 ≤ count.toNat)
    (h4 : count.toNat ≤ 4) : exec (.readReg a count) s =
      .next ((memRead a count.toNat s).2.reply (bytesOfWord (foldBytes (memRead a count.toNat s).1))) := by
  simp [exec, execReadReg, checkReadReg, hinit, (readLengthOk_iff _).mpr ⟨h1, h4⟩, answer]

/-- The body of an instruction that writes no register leaves the register file of a locked bank as it is. -/
theorem Ran.rr_of_locked {i : Instr} {s t : State} (hran : Ran i s t) (hl : s.locked = true)
    (hi : (∃ a n, i = .rdata a n) ∨ (∃ a n, i = .readReg a n) ∨ i = .getVersion ∨ i = .getRevision ∨ i = .getStatus ∨
      (∃ c v p, i = .classify c v p) ∨ (∃ r o, i = .toPhys r o) ∨ (∃ l o, i = .construct l o)) : t.rr = s.rr := by
  cases i with
  | rdata a _ | readReg a _ =>
    obtain ⟨-, -, -, rfl⟩ := hran
    exact memRead_rr_of_locked hl a _
  | getVersion | getRevision =>
    obtain ⟨-, rfl⟩ := hran
    rw [State.reply_rr, memReadByte_rr_of_locked hl]
  | getStatus =>
    obtain ⟨-, rfl⟩ := hran
    exact State.reply_rr ..
  | classify _ _ _ | toPhys _ _ | construct _ _ =>
    obtain ⟨-, -, rfl⟩ := hran
    simp
  | _ => simp at hi

/-- Settles O27: under the lock every move leaves the register file alone, a read frame is moves only, and what it reads
is a function of the register file. -/
theorem lockFreezesTheBank : Obligations.LockFreezesTheBank := by
  intro s hl
  refine ⟨moved_of_locked hl, ?_, fun i t h hi => ?_, fun a count t u hinit h1 h4 hv ht hu => ?_⟩
  · rw [refreshPoint_rr, moved_of_locked hl]
  · obtain ⟨w, rfl⟩ | hran := exec_next h
    · exact State.refuse_rr s w
    · exact hran.rr_of_locked hl hi
  · rw [exec_readReg_next hinit a h1 h4] at ht
    cases ht
    rw [exec_readReg_next (by simpa using hinit) a h1 h4] at hu
    cases hu
    have hsame (bs : List Byte) :
        (memRead a count.toNat ((memRead a count.toNat s).2.reply bs)).1 = (memRead a count.toNat s).1 :=
      memRead_fst_of_same_bank hl (by rw [State.reply_rr, memRead_rr_of_locked hl]) (by simp) a _ hv
    simp only [State.reply_responses, List.getLast?_concat, hsame]

/-! ### The four sample bytes (rules R32, R101) -/

/-- The number that four sample bytes make: the first read has the least weight (rule R32). -/
theorem packSample_toNat (b0 b1 b2 b3 : Byte) : (packSample [b0, b1, b2, b3]).toNat =
    b0.toNat + b1.toNat * 2 ^ 8 + b2.toNat * 2 ^ 16 + b3.toNat * 2 ^ 24 := by
  have hword := wordOfBytes_toNat b3 b2 b1 b0
  rw [packSample_eq]
  unfold wordOfBytes at hword
  omega

/-- A register that was steady in an earlier state is read as it was there, if only refresh steps came in between. -/
theorem KeepsAt.memReadByte_value {s t : State} {a : Address} (k : KeepsAt s t a) (h : Steady s a) :
    (memReadByte a t).1 = Memory.read s.rr a.toNat :=
  (Machine.memReadByte_value (k.steady h)).trans (k.read h)

/-- Settles O36: the four reads one after the other, each after frames that keep every steady register. -/
theorem compositeIsLeastSignificantFirst : Obligations.CompositeIsLeastSignificantFirst := by
  refine ⟨packSample_toNat, fun s => ⟨_, _, _, _, readComposite_fst s, ?_, ?_⟩⟩
  · simp [readComposite_snd, memReadByte_bus]
  · have k1 := memReadByte_keeps s 0#8
    have k2 := fun x => (k1 x).trans (memReadByte_keeps _ 1#8 x)
    have k3 := fun x => (k2 x).trans (memReadByte_keeps _ 2#8 x)
    exact ⟨memReadByte_value, (k1 _).memReadByte_value, (k2 _).memReadByte_value, (k3 _).memReadByte_value⟩

end Sys2Proof.Machine
end

section
/-! PROOFS. The classifier where rule 1 does not fire: rules 2 to 5 in their order, and then the no-match answer
(rules R90 to R93). -/

namespace Sys2Proof.Machine

/-- Rule 1 does not fire: the previous status is not the alarm, or `rule4` recovery meets its evidence (rule R91). -/
def Rule1Idle (rec : AlarmRecovery) (c : Byte) (v : Bool) (p : Status) : Prop :=
  p ≠ .encoderAlarm ∨ (rec = .rule4 ∧ v = true ∧ c = 1#8)

section Rule1

variable {rec : AlarmRecovery} {noMatch p : Status} {c : Byte} {v : Bool}

theorem evidence4_iff : evidence4 c v = true ↔ v = true ∧ c = 1#8 := by
  simp [evidence4]

/-- Where rule 1 does not fire, the classifier is the chain of rules 2 to 5. -/
theorem Rule1Idle.classify_eq (h : Rule1Idle rec c v p) : classify rec noMatch c v p =
    if c = 0#8 ∧ v = true then .noErrors
    else if v = false then .invalidCrc
    else if c = 1#8 then .encoderWarning
    else if c = 2#8 then .encoderAlarm
    else noMatch := by
  refine if_neg fun ⟨hp, hev⟩ => ?_
  obtain hne | hrec := h
  · exact hne hp
  · exact hev (by rwa [evidence4_iff])

/-- Where rule 1 does not fire, the alarm comes from rule 5 or is the no-match answer, and then the code
is not 1. -/
theorem Rule1Idle.of_classify_eq_alarm (h : Rule1Idle rec c v p)
    (ha : classify rec noMatch c v p = .encoderAlarm) :
    (c = 2#8 ∧ v = true) ∨ (c ≠ 1#8 ∧ noMatch = .encoderAlarm) := by
  rw [h.classify_eq] at ha
  split_ifs at ha with _ hv h1 h2
  · exact .inl ⟨h2, Bool.eq_true_of_not_eq_false hv⟩
  · exact .inr ⟨h1, ha⟩

end Rule1

/-- Settles O31: rules 2 to 5 by the chain of `Rule1Idle.classify_eq`. A held previous status is no alarm, unless rule 4
set aside the latched one, and then the code is 1 and rule 4 answers. -/
theorem classifierRules2To5 : Obligations.ClassifierRules2To5 := by
  intro rec noMatch p c v h
  have hidle : Rule1Idle rec c v p := h
  refine ⟨fun ⟨hc, hv⟩ => ?_, fun hv => ?_, fun ⟨hc, hv⟩ => ?_, fun ⟨hc, hv⟩ => ?_, fun ⟨hc, hv⟩ => ?_,
    fun hhold ha => ?_⟩
  · rw [hidle.classify_eq]
    simp [hc, hv]
  · rw [hidle.classify_eq]
    simp [hv]
  · rw [hidle.classify_eq]
    simp [hc, hv]
  · rw [hidle.classify_eq]
    simp [hc, hv]
  · have hcode : c ≠ 0#8 ∧ c ≠ 1#8 ∧ c ≠ 2#8 := by bv_omega
    rw [hidle.classify_eq]
    simp [hcode, hv]
  · obtain hrule5 | ⟨h1, hnm⟩ := hidle.of_classify_eq_alarm ha
    · exact hrule5
    · obtain hne | ⟨-, -, hc⟩ := h
      · exact absurd (hhold.symm.trans hnm) hne
      · exact absurd hc h1

end Sys2Proof.Machine
end

section
/-! PROOFS. The position pipeline: the candidate of a reading (rule R102), what a poll commits (rule R104), and the lock
and unlock writes of its trace (rules R100, R105). -/

namespace Sys2Proof.Machine

/-! ### The candidate (rule R102) -/

/-- The shift divides by 4, and the mask is a remainder. -/
theorem candidate_toNat (reading : Word) : (candidate reading).toNat = reading.toNat / 4 % 2 ^ 26 := by
  have hmask : Config.rawMask.toNat = 2 ^ 26 - 1 := by decide
  rw [candidate, BitVec.toNat_and, BitVec.toNat_ushiftRight, hmask, Nat.and_two_pow_sub_one_eq_mod,
    Nat.shiftRight_eq_div_pow]
  rfl

/-- The bit form: `READING[27:2]`, widened with zeros. -/
theorem candidate_eq_extract (reading : Word) : candidate reading = (reading.extractLsb' 2 26).zeroExtend 32 := by
  apply BitVec.eq_of_toNat_eq
  rw [candidate_toNat, BitVec.toNat_setWidth_of_le (by decide), BitVec.extractLsb'_toNat,
    Nat.shiftRight_eq_div_pow]

/-- Settles O37: the bit form and the number are the two views of one shift and mask. -/
theorem candidateIsBits27To2 : Obligations.CandidateIsBits27To2 :=
  fun reading => ⟨candidate_eq_extract reading, candidate_toNat reading, candidate_lt reading⟩

/-! ### What the two polling operations are -/

/-- With a handle `getRawPosition` and `getPosition` are one poll and an answer (rules R100, R106). -/
theorem poll_of_exec_next {s t : State} (hinit : s.init = true)
    (h : exec .getRaw s = .next t ∨ exec .getPos s = .next t) : ∃ bs, t = (poll s).reply bs := by
  have hcheck : checkInit s = none := if_pos hinit
  obtain h | h := h
  · rw [exec, execGetRaw, hcheck] at h
    cases h
    exact ⟨_, rfl⟩
  · rw [exec, execGetPos, hcheck] at h
    cases h
    exact ⟨_, rfl⟩

/-- Settles O38: by `poll_raw`, since the answer changes neither `RAW` nor the status. -/
theorem commitOnNoErrorsOnly : Obligations.CommitOnNoErrorsOnly := by
  intro s t hinit h
  obtain ⟨bs, rfl⟩ := poll_of_exec_next hinit h
  rw [State.reply_raw, State.reply_status, poll_raw]
  exact ⟨fun hok => if_pos hok, fun hne => if_neg hne⟩

/-! ### The frames between the lock and the unlock (rules R100, R105) -/

/-- A read frame on its own has the one opcode byte of RDATA. -/
theorem opcodesOf_rdataCalls (line a : Byte) (bs : List Byte) : opcodesOf (rdataCalls line a bs) = [0x03#8] := by
  simpa [opcodesOf] using opcodesOf_rdata line a bs []

/-- The seven read frames of a poll under the lock: the sample, the status and validity bytes, and the read of the
unlock. -/
def lockedReads (line b0 b1 b2 b3 esc val uv : Byte) : List TransportCall :=
  rdataCalls line 0x00#8 [b0] ++ rdataCalls line 0x01#8 [b1] ++ rdataCalls line 0x02#8 [b2] ++
    rdataCalls line 0x03#8 [b3] ++ rdataCalls line 0xF0#8 [esc] ++ rdataCalls line 0xF1#8 [val] ++
    rdataCalls line 0xF4#8 [uv]

/-- None of the frames between the two write-backs writes. -/
theorem opcodesOf_lockedReads (line b0 b1 b2 b3 esc val uv : Byte) :
    opcodesOf (lockedReads line b0 b1 b2 b3 esc val uv) = List.replicate 7 0x03#8 := by
  simp only [lockedReads, List.append_assoc, opcodesOf_rdata, opcodesOf_rdataCalls]
  rfl

/-- The trace of a poll: a read, the lock write, seven reads, the unlock write. -/
theorem pollCalls_eq (form : LockWriteForm) (line iv b0 b1 b2 b3 esc val uv : Byte) :
    pollCalls form line iv b0 b1 b2 b3 esc val uv = rdataCalls line 0xF4#8 [iv] ++
      writeBackCalls form line (iv ||| 0x40#8) ++ lockedReads line b0 b1 b2 b3 esc val uv ++
      writeBackCalls form line (uv &&& 0xBF#8) := by
  simp only [pollCalls, lockedReads, List.append_assoc]

/-- Settles O39: by the ten frames of `poll_effect`; the masks force bit 6 of the two bytes written back. -/
theorem everyPollUnlocks : Obligations.EveryPollUnlocks := by
  intro s t hinit h
  obtain ⟨bs, rfl⟩ := poll_of_exec_next hinit h
  obtain ⟨_, iv, b0, b1, b2, b3, esc, val, uv, _, hbus, -⟩ := poll_effect s
  refine ⟨(locked_of_rr (State.reply_rr ..)).trans (poll_locked s), rdataCalls s.sel 0xF4#8 [iv],
    lockedReads s.sel b0 b1 b2 b3 esc val uv, iv ||| 0x40#8, uv &&& 0xBF#8, ?_, or_lockMask_bit iv,
    and_notLockMask_bit uv, opcodesOf_rdataCalls .., opcodesOf_lockedReads ..⟩
  rw [State.reply_bus, hbus, pollCalls_eq]
  simp only [List.append_assoc]

end Sys2Proof.Machine
end

section
/-! PROOFS. The wraparound corrector (rule R115): its three branches over any numerics record, and what they are over
exact numbers. -/

namespace Sys2Proof.Machine

/-! ### The branches over any record -/

section Branches

variable {F : Type} {N : Numerics F} {d : F}

/-- First rule: strictly between `T_LO` and `T_HI` the strip length is subtracted. -/
theorem correct_of_strip (hlo : N.lt N.tLo d = true) (hhi : N.lt d N.tHi = true) :
    correct N d = N.sub d N.stripLen :=
  if_pos (Bool.and_eq_true_iff.mpr ⟨hlo, hhi⟩)

/-- Second rule: where the first does not match, above `T_WRAP` the wrap constant is subtracted. -/
theorem correct_of_wrap (hstrip : N.lt N.tLo d = false ∨ N.lt d N.tHi = false) (hwrap : N.lt N.tWrap d = true) :
    correct N d = N.sub d N.wrapConst := by
  have hfirst : (N.lt N.tLo d && N.lt d N.tHi) = false := Bool.and_eq_false_iff.mpr hstrip
  simp [correct, hfirst, hwrap]

/-- Where neither rule matches the distance stays. -/
theorem correct_of_noMatch (hstrip : N.lt N.tLo d = false ∨ N.lt d N.tHi = false) (hwrap : N.lt N.tWrap d = false) :
    correct N d = d := by
  have hfirst : (N.lt N.tLo d && N.lt d N.tHi) = false := Bool.and_eq_false_iff.mpr hstrip
  simp [correct, hfirst, hwrap]

end Branches

/-! ### Exact numbers -/

section Exact

variable {convFac a b : Rat}

theorem exactNumerics_lt_eq_true (h : a < b) : (exactNumerics convFac).lt a b = true :=
  decide_eq_true h

theorem exactNumerics_lt_eq_false (h : b ≤ a) : (exactNumerics convFac).lt a b = false :=
  decide_eq_false (not_lt.mpr h)

end Exact

/-- Settles O45: the three ranges select the three branches of the corrector. Above 190 the first rule fails at its
upper bound; outside both ranges it fails at 10 or at 100. -/
theorem correctorOnExactNumbers : Obligations.CorrectorOnExactNumbers := by
  intro convFac d
  refine ⟨fun ⟨hlo, hhi⟩ => ?strip, fun hwrap => ?wrap, fun hout => ?unchanged⟩
  case strip =>
    exact correct_of_strip (exactNumerics_lt_eq_true hlo) (exactNumerics_lt_eq_true hhi)
  case wrap =>
    have hhi : 100 ≤ d := by linarith
    exact correct_of_wrap (.inr (exactNumerics_lt_eq_false hhi)) (exactNumerics_lt_eq_true hwrap)
  case unchanged =>
    obtain hlo | ⟨hhi, hwrap⟩ := hout
    · have hwrap : d ≤ 190 := by linarith
      exact correct_of_noMatch (.inl (exactNumerics_lt_eq_false hlo)) (exactNumerics_lt_eq_false hwrap)
    · exact correct_of_noMatch (.inr (exactNumerics_lt_eq_false hhi)) (exactNumerics_lt_eq_false hwrap)

end Sys2Proof.Machine
end

section
/-! PROOFS. Every admitted host operation runs to its end (rule R130): its check passes, and its body ends in a result
(rules R62, R134). -/

namespace Sys2Proof.Machine

/-- The outcome is a next state whose answers are those of `s` and one more, a result (rule R62). -/
def Returns (s : State) (outcome : Host.Outcome State Fault Refusal) : Prop :=
  ∃ (t : State) (bytes : List Byte), outcome = .next t ∧ t.responses = s.responses ++ [.result bytes]

/-! ### Where the checks pass (rules R15, R61, R134) -/

section Checks

variable {s : State}

theorem checkInit_eq_none (hinit : s.init = true) : checkInit s = none :=
  if_pos hinit

theorem checkWriteReg_eq_none (hinit : s.init = true) {data : List Byte} (hlen : writeLengthOk data.length = true) :
    checkWriteReg s data = none :=
  (if_pos hinit).trans (if_pos hlen)

theorem checkConstruct_eq_none (hinit : s.init = false) {offset : Distance} (ho : finite32 offset = true) :
    checkConstruct s offset = none :=
  (if_neg (ne_true_of_eq_false hinit)).trans (if_pos ho)

theorem checkClassify_eq_none {isValid prev : Byte} (hvalid : isValid.toNat ≤ 1) (hprev : prev.toNat ≤ 3) :
    checkClassify isValid prev = none :=
  if_pos ⟨hvalid, hprev⟩

theorem checkToPhys_eq_none {raw : Word} (hraw : raw.toNat < 2 ^ Config.rawBits) {offset : Distance}
    (ho : finite32 offset = true) : checkToPhys raw offset = none :=
  (if_pos hraw).trans (if_pos ho)

end Checks

/-! ### What returns a result -/

section Results

variable {s : State}

/-- An outcome that ends in a reply returns its bytes, where the state before the reply has no new answer. -/
theorem returns_of_eq_reply {outcome : Host.Outcome State Fault Refusal} {body : State} {bytes : List Byte}
    (h : outcome = .next (body.reply bytes)) (hbody : body.responses = s.responses) : Returns s outcome :=
  ⟨body.reply bytes, bytes, h, by rw [State.reply_responses, hbody]⟩

/-- An operation whose check passes returns its result, where its body before the result gives no answer. -/
theorem answer_returns {why : Option PacketRefusal} {body : State} {bytes : List Byte} (hcheck : why = none)
    (hbody : body.responses = s.responses) : Returns s (answer why s (body.reply bytes)) :=
  returns_of_eq_reply (by rw [hcheck, answer]) hbody

theorem exec_construct_returns (hinit : s.init = false) (sel : Byte) {offset : Distance}
    (hwf : wellFormed (.construct sel offset) = true) : Returns s (exec (.construct sel offset) s) :=
  answer_returns (checkConstruct_eq_none hinit hwf) (State.constructed_responses ..)

theorem exec_classify_returns (s : State) {code isValid prev : Byte}
    (hwf : wellFormed (.classify code isValid prev) = true) : Returns s (exec (.classify code isValid prev) s) := by
  obtain ⟨hvalid, hprev⟩ : isValid.toNat ≤ 1 ∧ prev.toNat ≤ 3 := by simpa [wellFormed] using hwf
  exact answer_returns (checkClassify_eq_none hvalid hprev) (State.drawn_responses ..)

theorem exec_toPhys_returns (s : State) {raw : Word} {offset : Distance}
    (hwf : wellFormed (.toPhys raw offset) = true) : Returns s (exec (.toPhys raw offset) s) := by
  obtain ⟨hraw, ho⟩ : raw.toNat < 2 ^ Config.rawBits ∧ finite32 offset = true := by simpa [wellFormed] using hwf
  exact answer_returns (checkToPhys_eq_none hraw ho) rfl

/-- With a handle every host operation but `construct` returns a result: the frames of its body give no answer. -/
theorem exec_returns_of_init (hinit : s.init = true) {i : Instr} (hhost : i.isFrame = false)
    (hwf : wellFormed i = true) (hc : ∀ l o, i ≠ .construct l o) : Returns s (exec i s) := by
  have hcheck : checkInit s = none := checkInit_eq_none hinit
  cases i with
  | wdata _ _ | rdata _ _ | rstatus _ | winstr _ | rdataf _ | wdataf _ => cases hhost
  | construct l o => exact absurd rfl (hc l o)
  | classify _ _ _ => exact exec_classify_returns s hwf
  | toPhys _ _ => exact exec_toPhys_returns s hwf
  | readReg a count =>
    obtain ⟨h1, h4⟩ := (readLengthOk_iff _).mp hwf
    exact returns_of_eq_reply (exec_readReg_next hinit a h1 h4) (memRead_responses ..)
  | writeReg _ _ => exact answer_returns (checkWriteReg_eq_none hinit hwf) (memWrite_responses ..)
  | writeInstr _ => exact answer_returns hcheck (instrWrite_responses ..)
  | lock | unlock => exact answer_returns hcheck (applyInstrMask_responses ..)
  | getRaw | getPos => exact answer_returns hcheck (poll_responses ..)
  | getStatus => exact answer_returns hcheck rfl
  | getVersion | getRevision => exact answer_returns hcheck (memReadByte_responses ..)

end Results

/-- Settles O53: by the four ways an operation is admitted; and no step faults, since `Fault` has no constructor. -/
theorem admittedOperationsReturn : Obligations.AdmittedOperationsReturn := by
  refine ⟨fun i s hhost hwf hadmit => ?_, fun _ f => nomatch f⟩
  obtain ⟨⟨l, o, rfl⟩, hinit⟩ | ⟨c, v, p, rfl⟩ | ⟨r, o, rfl⟩ | ⟨hc, hinit⟩ := hadmit
  · exact exec_construct_returns hinit l hwf
  · exact exec_classify_returns s hwf
  · exact exec_toPhys_returns s hwf
  · exact exec_returns_of_init hinit hhost hwf hc

end Sys2Proof.Machine
end

section
/-! PROOFS. The two decoders and the encoder undo each other (rules R51 to R63, R66): each packet is the whole encoding of
what it decodes to or is refused by its length, and each frame that decodes is the encoding of a well-formed frame. -/

namespace Sys2Proof

/-! ### Decoding what was encoded -/

/-- A well-formed frame decodes from its own bytes. -/
theorem decodeFrame_encode {i : Instr} (hframe : i.isFrame = true) (hwf : wellFormed i = true) :
    decodeFrame (encode i) = .ok i := by
  cases i with
  | wdata a data => exact if_pos (show writeLengthOk data.length = true from hwf)
  | rdata a n =>
    have hlen : readLengthOk (List.replicate n 0x00#8).length = true := by rwa [List.length_replicate]
    have hfill : (List.replicate n 0x00#8).all (fun b => b == Config.readFill) = true := by
      simp [Config.readFill]
    refine ((if_pos hlen).trans (if_pos hfill)).trans ?_
    rw [List.length_replicate]
  | rstatus _ | winstr _ | rdataf _ | wdataf _ => rfl
  | _ => cases hframe

/-- A well-formed host operation decodes from its own packet: at most 255 data bytes are a length that the `len` byte of
a `writeRegister` can name. -/
theorem decodePacket_encode {i : Instr} (hhost : i.isFrame = false) (hwf : wellFormed i = true) :
    decodePacket (encode i) = .ok i := by
  cases i with
  | wdata _ _ | rdata _ _ | rstatus _ | winstr _ | rdataf _ | wdataf _ => cases hhost
  | construct sel offset =>
    obtain ⟨a, b, c, d, -, rfl⟩ := wordOfBytes_surjective offset
    rw [encode, bytesOfWord_wordOfBytes]
    rfl
  | toPhys raw offset =>
    obtain ⟨a, b, c, d, -, rfl⟩ := wordOfBytes_surjective raw
    obtain ⟨e, f, g, h, -, rfl⟩ := wordOfBytes_surjective offset
    rw [encode, bytesOfWord_wordOfBytes, bytesOfWord_wordOfBytes]
    rfl
  | writeReg a data =>
    obtain ⟨-, h255⟩ := (writeLengthOk_iff _).mp hwf
    have hlen : data.length = (BitVec.ofNat 8 data.length).toNat := by
      rw [BitVec.toNat_ofNat, Nat.mod_eq_of_lt (by omega)]
    exact if_pos hlen
  | _ => rfl

/-- Settles O2: by the port the instruction belongs to. -/
theorem decodeOfEncode : Obligations.DecodeOfEncode := by
  intro i hwf
  split
  · exact decodeFrame_encode ‹_› hwf
  · exact decodePacket_encode (Bool.eq_false_iff.mpr ‹_›) hwf

/-! ### What a packet decodes to (rules R60, R61) -/

/-- The number of operand bytes is the one that the command defines (rule R60). -/
def PacketComplete (c : Byte) (rest : List Byte) : Prop :=
  (c.toNat = 0x80 ∧ rest.length = 5) ∨ (c.toNat = 0x81 ∧ rest.length = 2) ∨
    (c.toNat = 0x82 ∧ 2 ≤ rest.length ∧ rest.length = 2 + (rest.getD 1 0#8).toNat) ∨
    (c.toNat = 0x83 ∧ rest.length = 1) ∨ (c.toNat = 0x84 ∧ rest = []) ∨ (c.toNat = 0x85 ∧ rest = []) ∨
    (c.toNat = 0x86 ∧ rest.length = 3) ∨ (c.toNat = 0x87 ∧ rest = []) ∨ (c.toNat = 0x88 ∧ rest.length = 8) ∨
    (0x89 ≤ c.toNat ∧ rest = [])

/-- The two things that can come of a packet with a known command: it is the encoding of the host operation it decodes
to, or it is refused by its length. -/
def DecodesWhole (c : Byte) (rest : List Byte) : Prop :=
  (PacketComplete c rest ∧ ∃ i, decodePacket (c :: rest) = .ok i ∧ encode i = c :: rest ∧ i.isFrame = false) ∨
    (¬ PacketComplete c rest ∧ decodePacket (c :: rest) = .error .badPacketLength)

section Commands

variable (rest : List Byte)

theorem construct_decodesWhole : DecodesWhole 0x80#8 rest := by
  match rest with
  | [sel, a, b, c, d] =>
    exact .inl ⟨by simp [PacketComplete], _, rfl, by rw [encode, bytesOfWord_wordOfBytes], rfl⟩
  | [] | [_] | [_, _] | [_, _, _] | [_, _, _, _] | _ :: _ :: _ :: _ :: _ :: _ :: _ =>
    exact .inr ⟨by simp [PacketComplete], rfl⟩

theorem readReg_decodesWhole : DecodesWhole 0x81#8 rest := by
  match rest with
  | [a, n] => exact .inl ⟨by simp [PacketComplete], _, rfl, rfl, rfl⟩
  | [] | [_] | _ :: _ :: _ :: _ => exact .inr ⟨by simp [PacketComplete], rfl⟩

theorem writeReg_decodesWhole : DecodesWhole 0x82#8 rest := by
  match rest with
  | a :: len :: data =>
    by_cases hlen : data.length = len.toNat
    · have hcomplete : PacketComplete 0x82#8 (a :: len :: data) := by simp [PacketComplete]; omega
      refine .inl ⟨hcomplete, _, if_pos hlen, ?_, rfl⟩
      rw [encode, hlen, BitVec.ofNat_toNat, BitVec.setWidth_eq]
    · exact .inr ⟨by simp [PacketComplete]; omega, if_neg hlen⟩
  | [] | [_] => exact .inr ⟨by simp [PacketComplete], rfl⟩

theorem writeInstr_decodesWhole : DecodesWhole 0x83#8 rest := by
  match rest with
  | [c] => exact .inl ⟨by simp [PacketComplete], _, rfl, rfl, rfl⟩
  | [] | _ :: _ :: _ => exact .inr ⟨by simp [PacketComplete], rfl⟩

theorem classify_decodesWhole : DecodesWhole 0x86#8 rest := by
  match rest with
  | [c, v, p] => exact .inl ⟨by simp [PacketComplete], _, rfl, rfl, rfl⟩
  | [] | [_] | [_, _] | _ :: _ :: _ :: _ :: _ => exact .inr ⟨by simp [PacketComplete], rfl⟩

theorem toPhys_decodesWhole : DecodesWhole 0x88#8 rest := by
  match rest with
  | [a, b, c, d, e, f, g, h] =>
    refine .inl ⟨by simp [PacketComplete], _, rfl, ?_, rfl⟩
    rw [encode, bytesOfWord_wordOfBytes, bytesOfWord_wordOfBytes]
    rfl
  | [] | [_] | [_, _] | [_, _, _] | [_, _, _, _] | [_, _, _, _, _] | [_, _, _, _, _, _] | [_, _, _, _, _, _, _]
  | _ :: _ :: _ :: _ :: _ :: _ :: _ :: _ :: _ :: _ =>
    exact .inr ⟨by simp [PacketComplete], rfl⟩

/-- A command without operands decodes alone and is refused with any byte after it. -/
theorem bare_decodesWhole {c : Byte} {i : Instr} (hc : PacketComplete c rest ↔ rest = [])
    (hdec : decodePacket (c :: rest) = decodeBare i rest) (henc : encode i = [c]) (hhost : i.isFrame = false) :
    DecodesWhole c rest := by
  unfold DecodesWhole
  rw [hc, hdec]
  cases rest with
  | nil => exact .inl ⟨rfl, i, rfl, henc, hhost⟩
  | cons _ _ => exact .inr ⟨List.cons_ne_nil _ _, rfl⟩

end Commands

/-- The thirteen command bytes of rule R60. -/
theorem command_cases {c : Byte} (hlo : 0x80 ≤ c.toNat) (hhi : c.toNat ≤ 0x8C) :
    c = 0x80#8 ∨ c = 0x81#8 ∨ c = 0x82#8 ∨ c = 0x83#8 ∨ c = 0x84#8 ∨ c = 0x85#8 ∨ c = 0x86#8 ∨ c = 0x87#8 ∨
      c = 0x88#8 ∨ c = 0x89#8 ∨ c = 0x8A#8 ∨ c = 0x8B#8 ∨ c = 0x8C#8 := by
  bv_omega

/-- Every packet with a known command is decoded whole or refused by its length. -/
theorem packet_decodesWhole {c : Byte} (hlo : 0x80 ≤ c.toNat) (hhi : c.toNat ≤ 0x8C) (rest : List Byte) :
    DecodesWhole c rest := by
  obtain rfl | rfl | rfl | rfl | rfl | rfl | rfl | rfl | rfl | rfl | rfl | rfl | rfl := command_cases hlo hhi
  · exact construct_decodesWhole rest
  · exact readReg_decodesWhole rest
  · exact writeReg_decodesWhole rest
  · exact writeInstr_decodesWhole rest
  · exact bare_decodesWhole rest (i := .lock) (by simp [PacketComplete]) rfl rfl rfl
  · exact bare_decodesWhole rest (i := .unlock) (by simp [PacketComplete]) rfl rfl rfl
  · exact classify_decodesWhole rest
  · exact bare_decodesWhole rest (i := .getRaw) (by simp [PacketComplete]) rfl rfl rfl
  · exact toPhys_decodesWhole rest
  · exact bare_decodesWhole rest (i := .getPos) (by simp [PacketComplete]) rfl rfl rfl
  · exact bare_decodesWhole rest (i := .getStatus) (by simp [PacketComplete]) rfl rfl rfl
  · exact bare_decodesWhole rest (i := .getVersion) (by simp [PacketComplete]) rfl rfl rfl
  · exact bare_decodesWhole rest (i := .getRevision) (by simp [PacketComplete]) rfl rfl rfl

/-- A command byte outside 0x80 to 0x8C is unknown, whatever follows (rule R63). -/
theorem decodePacket_unknown {c : Byte} (h : c.toNat < 0x80 ∨ 0x8C < c.toNat) (rest : List Byte) :
    decodePacket (c :: rest) = .error .unknownCommand := by
  have hne (k : Byte) (hk : 0x80 ≤ k.toNat ∧ k.toNat ≤ 0x8C) : c ≠ k := by bv_omega
  simp only [decodePacket]
  repeat rw [if_neg (hne _ (by decide))]

/-- Settles O4: by the range of the command byte, and for a known one by what its packet decodes to. -/
theorem packetsThatDecode : Obligations.PacketsThatDecode := by
  refine ⟨rfl, fun c rest => ?_⟩
  split
  case isTrue hout => exact decodePacket_unknown hout rest
  case isFalse hin =>
    obtain ⟨hlo, hhi⟩ := not_or.mp hin
    obtain ⟨hcomplete, i, hi, -⟩ | ⟨hshort, herr⟩ := packet_decodesWhole (not_lt.mp hlo) (not_lt.mp hhi) rest
    · exact (if_pos hcomplete).mpr ⟨i, hi⟩
    · exact (if_neg hshort).mpr herr

/-- A packet that decodes is the encoding of a host operation. -/
theorem encode_of_decodePacket {p : List Byte} {i : Instr} (h : decodePacket p = .ok i) :
    encode i = p ∧ i.isFrame = false := by
  cases p with
  | nil => cases h
  | cons c rest =>
    by_cases hout : c.toNat < 0x80 ∨ 0x8C < c.toNat
    · rw [decodePacket_unknown hout] at h
      cases h
    · obtain ⟨hlo, hhi⟩ := not_or.mp hout
      obtain ⟨-, j, hj, henc⟩ | ⟨-, herr⟩ := packet_decodesWhole (not_lt.mp hlo) (not_lt.mp hhi) rest
      · cases h.symm.trans hj
        exact henc
      · cases h.symm.trans herr

/-! ### What a frame decodes to (rules R51 to R56) -/

/-- The decoded instruction is a well-formed frame with these bytes. -/
def FrameOf (f : List Byte) (i : Instr) : Prop :=
  encode i = f ∧ i.isFrame = true ∧ wellFormed i = true

section Opcodes

variable {rest : List Byte} {i : Instr}

theorem frameOf_wdata (h : decodeFrame (0x02#8 :: rest) = .ok i) : FrameOf (0x02#8 :: rest) i := by
  cases rest with
  | nil => cases h
  | cons a data =>
    by_cases hlen : writeLengthOk data.length = true
    · cases (if_pos hlen).symm.trans h
      exact ⟨rfl, rfl, hlen⟩
    · cases (if_neg hlen).symm.trans h

theorem frameOf_rdata (h : decodeFrame (0x03#8 :: rest) = .ok i) : FrameOf (0x03#8 :: rest) i := by
  cases rest with
  | nil => cases h
  | cons a fills =>
    by_cases hlen : readLengthOk fills.length = true
    · replace h := (if_pos hlen).symm.trans h
      by_cases hfill : fills.all (fun b => b == Config.readFill) = true
      · cases (if_pos hfill).symm.trans h
        have hrep : List.replicate fills.length 0x00#8 = fills :=
          (List.eq_replicate_of_mem fun b hb => by simpa [Config.readFill] using List.all_eq_true.mp hfill b hb).symm
        exact ⟨by rw [encode, hrep], rfl, hlen⟩
      · cases (if_neg hfill).symm.trans h
    · cases (if_neg hlen).symm.trans h

theorem frameOf_winstr (h : decodeFrame (0x07#8 :: rest) = .ok i) : FrameOf (0x07#8 :: rest) i := by
  match rest with
  | [c] =>
    cases h
    exact ⟨rfl, rfl, rfl⟩
  | [] | _ :: _ :: _ => cases h

end Opcodes

/-- Bytes that decode as a frame are the encoding of a well-formed frame. -/
theorem frameOf_of_decodeFrame {f : List Byte} {i : Instr} (h : decodeFrame f = .ok i) : FrameOf f i := by
  cases f with
  | nil => cases h
  | cons o rest =>
    obtain rfl | rfl | rfl | rfl | rfl | rfl := decodeFrame_opcode h
    · exact frameOf_wdata h
    · exact frameOf_rdata h
    · cases h
      exact ⟨rfl, rfl, rfl⟩
    · exact frameOf_winstr h
    · cases h
      exact ⟨rfl, rfl, rfl⟩
    · cases h
      exact ⟨rfl, rfl, rfl⟩

/-- Settles O3: by the two inversions. -/
theorem encodeOfDecode : Obligations.EncodeOfDecode :=
  ⟨fun _ _ h => encode_of_decodePacket h, fun _ _ h => frameOf_of_decodeFrame h⟩

/-- Bytes decode as a frame exactly when they are the encoding of a well-formed frame. -/
theorem decodeFrame_ok_iff (f : List Byte) : (∃ i, decodeFrame f = .ok i) ↔ ∃ i, FrameOf f i := by
  refine ⟨fun ⟨i, h⟩ => ⟨i, frameOf_of_decodeFrame h⟩, fun ⟨i, henc, hframe, hwf⟩ => ⟨i, ?_⟩⟩
  rw [← henc]
  exact decodeFrame_encode hframe hwf

/-- Settles O5: one way by the bytes of each well-formed frame, the other by naming the frame that has these bytes. -/
theorem framesThatDecode : Obligations.FramesThatDecode := by
  intro o rest
  rw [decodeFrame_ok_iff]
  constructor
  · rintro ⟨i, henc, hframe, hwf⟩
    cases i with
    | wdata a data =>
      cases henc
      obtain ⟨h1, h255⟩ := (writeLengthOk_iff _).mp hwf
      exact .inl ⟨rfl, by simp; omega, by simp; omega⟩
    | rdata a n =>
      cases henc
      obtain ⟨h1, h4⟩ := (readLengthOk_iff _).mp hwf
      exact .inr (.inl ⟨rfl, by simp; omega, by simp; omega, fun b hb => List.eq_of_mem_replicate hb⟩)
    | winstr c =>
      cases henc
      exact .inr (.inr (.inl ⟨rfl, rfl⟩))
    | rstatus r | rdataf r | wdataf r =>
      cases henc
      simp
    | _ => cases hframe
  · rintro (⟨rfl, h2, h256⟩ | ⟨rfl, h2, h5, hfill⟩ | ⟨rfl, h1⟩ | rfl | rfl | rfl)
    · obtain ⟨a, data, rfl⟩ := List.exists_cons_of_length_pos (by omega : 0 < rest.length)
      simp only [List.length_cons] at h2 h256
      exact ⟨.wdata a data, rfl, rfl, (writeLengthOk_iff _).mpr (by omega)⟩
    · obtain ⟨a, fills, rfl⟩ := List.exists_cons_of_length_pos (by omega : 0 < rest.length)
      simp only [List.length_cons] at h2 h5
      have hrep : fills = List.replicate fills.length 0x00#8 := List.eq_replicate_of_mem hfill
      exact ⟨.rdata a fills.length, by rw [encode, ← hrep], rfl, (readLengthOk_iff _).mpr (by omega)⟩
    · obtain ⟨c, rfl⟩ := List.length_eq_one_iff.mp h1
      exact ⟨.winstr c, rfl, rfl, rfl⟩
    · exact ⟨.rstatus rest, rfl, rfl, rfl⟩
    · exact ⟨.rdataf rest, rfl, rfl, rfl⟩
    · exact ⟨.wdataf rest, rfl, rfl, rfl⟩

/-- Settles O1: each word is decoded by evaluation. -/
theorem specWordsDecode : Obligations.SpecWordsDecode := by
  unfold Obligations.SpecWordsDecode
  decide

end Sys2Proof
end

section
/-! PROOFS. Who writes the handle (rules R27, R120), and the invariant that every step keeps (rules R30, R79, R117). -/

namespace Sys2Proof.Machine

/-! ### The handle over every instruction -/

section Handle

variable {i : Instr} {s t : State}

theorem SameHandle.refuse (s : State) (w : PacketRefusal) : SameHandle s (s.refuse w) :=
  ⟨⟨rfl, rfl, rfl, rfl, rfl⟩, rfl, rfl⟩

/-- A poll writes no register of the handle but `RAW` and `STATUS`. -/
theorem poll_sameSetup (s : State) : SameSetup s (poll s) := by
  simp [SameSetup]

theorem SameSetup.reply (h : SameSetup s t) (bs : List Byte) : SameSetup s (t.reply bs) := h

/-- The body of either polling operation is a poll and an answer. -/
theorem Ran.eq_poll_reply (hran : Ran i s t) (hi : i = .getRaw ∨ i = .getPos) :
    ∃ bs, t = (poll s).reply bs := by
  obtain rfl | rfl := hi
  · exact ⟨_, hran.2⟩
  · exact ⟨_, hran.2⟩

/-- No body but that of `construct` writes `SEL`, `OFFSET` or `INIT`. -/
theorem Ran.sameSetup (hran : Ran i s t) (hc : ∀ l o, i ≠ .construct l o) : SameSetup s t := by
  by_cases hpoll : i = .getRaw ∨ i = .getPos
  · obtain ⟨bs, rfl⟩ := hran.eq_poll_reply hpoll
    exact (poll_sameSetup s).reply bs
  · obtain ⟨hr, hp⟩ := not_or.mp hpoll
    exact (hran.sameHandle hc hr hp).1

/-- Settles O54: a refusal keeps the handle, and so does every body but for what `construct` and the polls write. -/
theorem handleFrame : Obligations.HandleFrame := by
  intro i s t hc h
  obtain ⟨w, rfl⟩ | hran := exec_next h
  · exact ⟨(SameHandle.refuse s w).1, fun _ _ => SameHandle.refuse s w⟩
  · exact ⟨hran.sameSetup hc, hran.sameHandle hc⟩

/-- A body keeps the offset of an existing handle finite, and makes a handle with a finite one only (rule R120). -/
theorem Ran.finite_offset (hran : Ran i s t) (h : s.init = true → finite32 s.offset = true) (ht : t.init = true) :
    finite32 t.offset = true := by
  by_cases hc : ∃ l o, i = .construct l o
  · obtain ⟨l, o, rfl⟩ := hc
    obtain ⟨-, hfin, rfl⟩ := hran
    exact hfin
  · obtain ⟨-, hoff, hinit, -, -⟩ := hran.sameSetup fun l o e => hc ⟨l, o, e⟩
    rw [hoff]
    exact h (hinit ▸ ht)

end Handle

/-! ### The invariant -/

theorem wf_refreshPoint {s : State} (h : Memory.wf s.rr = true) : Memory.wf s.refreshPoint.rr = true := by
  rw [refreshPoint_rr]
  exact wf_moved h _

/-- The body of every instruction keeps the invariant. -/
theorem Ran.inv {i : Instr} {s t : State} (hran : Ran i s t) (h : Inv s) : Inv t := by
  obtain ⟨hwf, hsel, hparams, hoff⟩ := h
  exact ⟨hran.wf hwf, hran.select hsel, by rw [hran.pending_params.2]; exact hparams, hran.finite_offset hoff⟩

/-- Settles O14: by the four things a step can do. -/
theorem invariantKeptByEveryStep : Obligations.InvariantKeptByEveryStep := by
  intro s t hinv h
  obtain ⟨-, rfl⟩ | ⟨_, -, rfl⟩ | ⟨w, -, rfl⟩ | ⟨i, -, hran⟩ := step_next h
  case inr.inr.inr =>
    have hdrop : Inv s.dropInput := hinv
    exact hran.inv hdrop
  all_goals obtain ⟨hwf, hsel, hparams, hoff⟩ := hinv
  · exact ⟨wf_refreshPoint hwf, by simpa using hsel, by simpa using hparams, by simpa using hoff⟩
  · exact ⟨hwf, rfl, hparams, fun hinit => by simp at hinit⟩
  · exact ⟨hwf, hsel, hparams, hoff⟩

/-- `CONV_FAC` is finite and positive, whatever was drawn (rule R117). -/
theorem params_wf : Config.params.wf = true := by
  obtain ⟨hpos, hfin⟩ : 0 < Config.convFac.toNat ∧ Config.convFac.toNat < 0x7F800000 := by
    unfold Config.convFac
    split
    · assumption
    · decide
  exact Bool.and_eq_true_iff.mpr ⟨decide_eq_true hpos, decide_eq_true hfin⟩

/-- Settles O13: nothing is listed in the register file at reset, and there is no handle. -/
theorem invariantAtReset : Obligations.InvariantAtReset :=
  ⟨Memory.wf_nil, rfl, params_wf, fun hinit => by cases hinit⟩

/-- Settles O12: by evaluation of the reset state. -/
theorem resetState : Obligations.ResetState := by
  refine ⟨rfl, rfl, rfl, rfl, rfl, rfl, rfl, rfl, rfl, rfl, ?_⟩
  decide

end Sys2Proof.Machine
end

section
/-! PROOFS. One step (rules R43, R164): which input it takes, what it answers, and the point at which the refresh agent
may step (rules R38, R39). -/

namespace Sys2Proof.Machine

/-! ### The input that a step takes -/

section Input

variable {s : State} {rest : List PortInput}

theorem dropInput_of_pending {input : PortInput} (h : s.pending = input :: rest) :
    s.dropInput = { s with pending := rest } := by
  rw [State.dropInput, h, List.tail_cons]

/-- A step with an input runs it in the state without it. -/
theorem step_of_pending {input : PortInput} (h : s.pending = input :: rest) :
    step s = runInput input { s with pending := rest } := by
  rw [← dropInput_of_pending h, step, h]

/-- A step without an input is a point at which the refresh agent may step. -/
theorem step_of_no_input (h : s.pending = []) : step s = .next s.refreshPoint := by
  rw [step, h]
  rfl

/-- Settles O6: the decoders are total, so `runPacket` and `runFrame` are `exec` where they give an instruction. -/
theorem stepRunsTheDecodedInstruction : Obligations.StepRunsTheDecodedInstruction := by
  intro s bytes rest i
  refine ⟨fun hp hd => ?_, fun hp hd => ?_⟩
  · rw [step_of_pending hp, runInput, runPacket, hd]
  · rw [step_of_pending hp, runInput, runFrame, hd]

/-- Settles O7: the refusal of the decoder is the answer. -/
theorem undecodedPacketIsRefused : Obligations.UndecodedPacketIsRefused := by
  intro s bytes rest why hp hd
  rw [step_of_pending hp, runInput, runPacket, hd]
  rfl

/-- Settles O8: the error of the decoder is the reason of the stop. -/
theorem undecodedFrameStops : Obligations.UndecodedFrameStops := by
  intro s bytes rest why hp hd
  rw [step_of_pending hp, runInput, runFrame, hd]

/-- Settles O11: by the fields that `State.controllerReset` writes. -/
theorem controllerResetKeepsTheChip : Obligations.ControllerResetKeepsTheChip := by
  intro s rest hp
  exact ⟨_, step_of_pending hp, rfl, rfl, rfl, rfl, rfl, rfl, rfl, rfl⟩

end Input

/-! ### What a step takes and gives -/

/-- The body of an instruction takes nothing back from the trace. -/
theorem Ran.bus_prefix {i : Instr} {s t : State} (hran : Ran i s t) : s.bus <+: t.bus := by
  obtain ⟨frames, hbus, -⟩ := hran.frames
  exact ⟨frames.flatten, hbus.symm⟩

/-- Where an instruction goes on it gives one answer. -/
theorem exec_responses {i : Instr} {s t : State} (h : exec i s = .next t) :
    ∃ r : Response, t.responses = s.responses ++ [r] := by
  obtain ⟨w, rfl⟩ | hran := exec_next h
  · exact ⟨_, State.refuse_responses s w⟩
  · obtain ⟨r, hr, -⟩ := hran.responses
    exact ⟨r, hr⟩

/-- A packet is always answered: a refusal by the decoder, or the one answer of a host operation. -/
theorem runPacket_answers (bytes : List Byte) (s : State) :
    ∃ (t : State) (r : Response), runPacket bytes s = .next t ∧ t.responses = s.responses ++ [r] := by
  obtain ⟨w, -, hrun⟩ | ⟨i, hdec, hrun⟩ := runPacket_cases bytes s
  · exact ⟨_, _, hrun, State.refuse_responses s w⟩
  · obtain ⟨t, ht⟩ := exec_host_next (encode_of_decodePacket hdec).2 s
    obtain ⟨r, hr⟩ := exec_responses ht
    exact ⟨t, r, hrun.trans ht, hr⟩

/-- Settles O15: the first part by the four things a step can do, the second since a packet is always answered. -/
theorem stepTakesOneInput : Obligations.StepTakesOneInput := by
  refine ⟨fun s t h => ?_, fun s bytes rest hp => ?_⟩
  · obtain ⟨hp, rfl⟩ | ⟨_, -, rfl⟩ | ⟨w, -, rfl⟩ | ⟨i, -, hran⟩ := step_next h
    · simp [hp]
    · exact ⟨rfl, rfl, List.prefix_rfl, .inl rfl⟩
    · exact ⟨rfl, rfl, List.prefix_rfl, .inr ⟨_, rfl⟩⟩
    · obtain ⟨r, hr, -⟩ := hran.responses
      obtain ⟨hpend, hparams⟩ := hran.pending_params
      exact ⟨hpend, hparams, hran.bus_prefix, .inr ⟨r, hr⟩⟩
  · rw [step_of_pending hp]
    exact runPacket_answers bytes _

/-! ### The point at which the refresh agent may step -/

section Refresh

variable (s : State)

theorem refreshPoint_sameHandle : SameHandle s s.refreshPoint := by
  simp [SameHandle, SameSetup]

theorem refreshPoint_registersKept : RegistersKept s s.refreshPoint :=
  .of_keeps (refreshPoint_keeps s)

/-- A register after a snapshot: the snapshot's if the bank is unlocked and the register is in `FROZEN_SET`, and otherwise
what it was (rules R38, R39). -/
theorem read_moved_some (snapshot : Memory) (x : Address) : Memory.read (moved s (some snapshot)) x.toNat =
    if s.locked = false ∧ x ∈ s.params.frozenSet then Memory.read snapshot x.toNat
    else Memory.read s.rr x.toNat := by
  by_cases h : s.locked = false ∧ x ∈ s.params.frozenSet
  · obtain ⟨hl, hx⟩ := h
    rw [if_pos ⟨hl, hx⟩]
    simpa [moved, hl] using Memory.read_refreshed_inside s.rr snapshot hx
  · rw [if_neg h]
    refine read_moved ?_ _
    rw [← Bool.not_eq_false]
    exact not_and_or.mp h

/-- Settles O9: by the cases of the move that comes next. -/
theorem refreshReplacesTheSnapshot : Obligations.RefreshReplacesTheSnapshot := by
  refine fun s => ⟨fun move rest hm => ?_, fun hm => ?_, refreshPoint_sameHandle s, refreshPoint_bus s,
    refreshPoint_select s, refreshPoint_responses s⟩
  · have hnext : s.nextMove = move := by rw [State.nextMove, hm]
    rw [refreshPoint_moves, hm, refreshPoint_rr, hnext]
    refine ⟨rfl, fun x => ?_, fun hkept => ?_⟩
    · cases move with
      | none => rfl
      | some snapshot => exact read_moved_some s snapshot x
    · obtain rfl | hl := hkept
      · rfl
      · exact moved_of_locked hl move
  · exact ⟨by rw [refreshPoint_moves, hm, List.tail_nil], refreshPoint_registersKept s⟩

/-- Settles O10: a step without an input is one such point. -/
theorem idleStepLeavesTheController : Obligations.IdleStepLeavesTheController := by
  intro s hp
  exact ⟨s.refreshPoint, step_of_no_input hp, rfl, refreshPoint_moves s, refreshPoint_sameHandle s,
    refreshPoint_registersKept s, refreshPoint_bus s, refreshPoint_select s, refreshPoint_responses s⟩

end Refresh

end Sys2Proof.Machine
end

section
/-! PROOFS. The operations that are one frame or one read-modify-write complete with a handle (rules R71 to R77, R81, R82,
R122, R123): the check passes, and the effect is that of the shared operation, which the answer does not change. -/

namespace Sys2Proof.Machine

variable {s : State}

/-- An operation whose check passes is its body. -/
theorem answer_eq_next {why : Option PacketRefusal} {body : State} (h : why = none) :
    answer why s body = .next body := by
  rw [h, answer]

/-! ### The bare frames -/

/-- WDATA of an admitted length is one write frame (rule R72). -/
theorem exec_wdata_eq (a : Address) {data : List Byte} (hlen : writeLengthOk data.length = true) :
    exec (.wdata a data) s = answer (checkInit s) s ((memWrite a data s).replyFrame []) :=
  if_pos hlen

/-- RDATA of an admitted length is one read frame (rule R71). -/
theorem exec_rdata_eq (a : Address) {n : Nat} (hlen : readLengthOk n = true) :
    exec (.rdata a n) s = answer (checkInit s) s ((memRead a n s).2.replyFrame (memRead a n s).1) :=
  if_pos hlen

/-- WDATA of any other length stops by name (log entry 23). -/
theorem exec_wdata_refused (a : Address) {data : List Byte} (hlen : ¬ writeLengthOk data.length = true) :
    exec (.wdata a data) s = .refused .frameLength :=
  if_neg hlen

/-- RDATA of any other length stops by name (log entry 23). -/
theorem exec_rdata_refused (a : Address) {n : Nat} (hlen : ¬ readLengthOk n = true) :
    exec (.rdata a n) s = .refused .frameLength :=
  if_neg hlen

/-- Settles O16: by the effect of a write frame. -/
theorem wdataResult : Obligations.WdataResult := by
  intro a data s hinit h1 h255
  have hexec := exec_wdata_eq (s := s) a ((writeLengthOk_iff _).mpr ⟨h1, h255⟩)
  rw [answer_eq_next (checkInit_eq_none hinit)] at hexec
  exact ⟨_, hexec, (memWrite_effect s a data h255).congr rfl rfl, memWrite_handle s a data, rfl, by simp⟩

/-- Settles O17: by the effect of a read frame. -/
theorem rdataResult : Obligations.RdataResult := by
  intro a count s hinit h1 h4
  have hexec := exec_rdata_eq (s := s) a ((readLengthOk_iff _).mpr ⟨h1, h4⟩)
  rw [answer_eq_next (checkInit_eq_none hinit)] at hexec
  exact ⟨_, (memRead a count s).1, hexec, memRead_length s a count, (memRead_effect s a count).congr rfl rfl,
    memRead_handle s a count, rfl, by simp⟩

/-- Settles O18: by the effect of an instruction write. -/
theorem winstrResult : Obligations.WinstrResult := by
  intro c s hinit
  exact ⟨_, answer_eq_next (checkInit_eq_none hinit), (instrWrite_effect s c).congr rfl rfl, instrWrite_handle s c, rfl,
    by simp⟩

/-- Settles O19: the three opcodes by definition, the lengths since the length check fails. -/
theorem framesWithoutMeaningStop : Obligations.FramesWithoutMeaningStop := by
  intro rest a data n s
  refine ⟨rfl, rfl, rfl, fun hlen => ?_, fun hlen => ?_⟩
  · exact exec_wdata_refused a fun hok => by rw [writeLengthOk_iff] at hok; omega
  · exact exec_rdata_refused a fun hok => by rw [readLengthOk_iff] at hok; omega

/-! ### Register access by the host -/

/-- Up to four bytes, most significant first, behind zeros to four in all (rules R59, R73). -/
theorem bytesOfWord_foldBytes {bs : List Byte} (h : bs.length ≤ 4) :
    bytesOfWord (foldBytes bs) = List.replicate (4 - bs.length) 0x00#8 ++ bs := by
  obtain ⟨a, b, c, d, hbytes, hfold⟩ := foldBytes_eq bs h
  rw [hbytes, hfold, bytesOfWord_wordOfBytes]

/-- Settles O20: by the effect of a read frame and the bytes of the fold. -/
theorem readRegisterResult : Obligations.ReadRegisterResult := by
  intro a count s hinit h1 h4
  refine ⟨_, (memRead a count.toNat s).1, exec_readReg_next hinit a h1 h4, memRead_length s a _,
    (memRead_effect s a _).congr rfl rfl, memRead_handle s a _, rfl, ?_⟩
  rw [State.reply_responses, memRead_responses, bytesOfWord_foldBytes (by rwa [memRead_length])]

/-- A base-256 number of `n` digits after a leading part is below the next leading part's. -/
theorem foldl_base256_lt (bs : List Byte) (acc : Nat) :
    bs.foldl (fun acc b => acc * 256 + b.toNat) acc < (acc + 1) * 256 ^ bs.length := by
  induction bs generalizing acc with
  | nil => simp
  | cons b bs ih =>
    have hb : b.toNat < 256 := b.isLt
    calc bs.foldl (fun acc b => acc * 256 + b.toNat) (acc * 256 + b.toNat)
        < (acc * 256 + b.toNat + 1) * 256 ^ bs.length := ih _
      _ ≤ ((acc + 1) * 256) * 256 ^ bs.length := Nat.mul_le_mul_right _ (by omega)
      _ = (acc + 1) * 256 ^ (b :: bs).length := by rw [List.length_cons, Nat.pow_succ']; ring

/-- Leading zeros do not change a base-256 number. -/
theorem foldl_base256_zeros (k : Nat) (bs : List Byte) :
    (List.replicate k 0x00#8 ++ bs).foldl (fun acc b => acc * 256 + b.toNat) 0 =
      bs.foldl (fun acc b => acc * 256 + b.toNat) 0 := by
  induction k with
  | zero => rfl
  | succ k ih => exact ih

/-- Settles O21: the fold is the word of the bytes behind zeros, and such a word is a base-256 number. -/
theorem foldIsMostSignificantFirst : Obligations.FoldIsMostSignificantFirst := by
  intro bs h
  have hnum : (foldBytes bs).toNat = bs.foldl (fun acc b => acc * 256 + b.toNat) 0 := by
    obtain ⟨a, b, c, d, hbytes, hfold⟩ := foldBytes_eq bs h
    rw [← foldl_base256_zeros (4 - bs.length), hbytes, hfold, wordOfBytes_toNat]
    simp
  refine ⟨hnum, ?_⟩
  rw [hnum]
  simpa using foldl_base256_lt bs 0

/-- Settles O22: by the effect of a write frame. -/
theorem writeRegisterResult : Obligations.WriteRegisterResult := by
  intro a data s hinit h1 h255
  exact ⟨_, answer_eq_next (checkWriteReg_eq_none hinit ((writeLengthOk_iff _).mpr ⟨h1, h255⟩)),
    (memWrite_effect s a data h255).congr rfl rfl, memWrite_handle s a data, rfl, by simp⟩

/-- Settles O23: by the effect of an instruction write. -/
theorem writeInstructionResult : Obligations.WriteInstructionResult := by
  intro c s hinit
  exact ⟨_, answer_eq_next (checkInit_eq_none hinit), (instrWrite_effect s c).congr rfl rfl, instrWrite_handle s c, rfl,
    by simp⟩

/-- Settles O24: both are a one-byte read frame, whose byte is the answer. -/
theorem versionAndRevisionResult : Obligations.VersionAndRevisionResult := by
  intro s hinit
  have hcheck := checkInit_eq_none hinit
  constructor
  · exact ⟨_, _, answer_eq_next hcheck, (memReadByte_effect s Config.addrVersion).congr rfl rfl,
      memRead_handle s Config.addrVersion 1, rfl, by simp⟩
  · exact ⟨_, _, answer_eq_next hcheck, (memReadByte_effect s Config.addrRevision).congr rfl rfl,
      memRead_handle s Config.addrRevision 1, rfl, by simp⟩

/-! ### The bank lock -/

/-- Settles O25: by the effect of the read-modify-write that sets the mask. -/
theorem lockResult : Obligations.LockResult := by
  intro s hinit
  have heff := applyInstrMask_effect s Config.lockMask .set
  rw [maskedByte_set] at heff
  exact ⟨_, _, answer_eq_next (checkInit_eq_none hinit), heff.congr rfl rfl, applyInstrMask_set_locked s,
    applyInstrMask_handle s _ _, applyInstrMask_select s _ _, by simp⟩

/-- Settles O26: by the effect of the read-modify-write that clears the mask. -/
theorem unlockResult : Obligations.UnlockResult := by
  intro s hinit
  have heff := applyInstrMask_effect s Config.lockMask .clear
  rw [maskedByte_clear] at heff
  exact ⟨_, _, answer_eq_next (checkInit_eq_none hinit), heff.congr rfl rfl, applyInstrMask_clear_locked s,
    applyInstrMask_handle s _ _, applyInstrMask_select s _ _, by simp⟩

end Sys2Proof.Machine
end

section
/-! PROOFS. The operations that put nothing on the bus, and the refusals (rules R90, R108, R112, R120, R134, R136). -/

namespace Sys2Proof.Machine

variable {s : State}

/-! ### Results without a frame -/

/-- Settles O42: the check passes and the status code is the answer. -/
theorem getStatusResult : Obligations.GetStatusResult := by
  intro s hinit
  exact answer_eq_next (checkInit_eq_none hinit)

/-- Settles O43: the machine's arithmetic is binary32 with its own `CONV_FAC`. -/
theorem toPhysicalResult : Obligations.ToPhysicalResult := by
  intro raw offset s hraw hfin
  exact ⟨_, rfl, answer_eq_next (checkToPhys_eq_none hraw hfin)⟩

/-- Settles O50: by the fields that `State.constructed` writes. -/
theorem constructResult : Obligations.ConstructResult := by
  intro sel offset s hinit hfin
  exact ⟨_, answer_eq_next (checkConstruct_eq_none hinit hfin), rfl, rfl, rfl, rfl, rfl, rfl, ⟨rfl, rfl, rfl, rfl⟩,
    by simp⟩

/-- The status of an admitted code, as a table (rule R13). -/
theorem statusOfCode_eq {prev : Byte} (h : prev.toNat ≤ 3) : statusOfCode prev =
    [Status.noErrors, .invalidCrc, .encoderWarning, .encoderAlarm].getD prev.toNat .noErrors := by
  obtain rfl | rfl | rfl | rfl : prev = 0#8 ∨ prev = 1#8 ∨ prev = 2#8 ∨ prev = 3#8 := by bv_omega
  all_goals rfl

/-- Settles O33: the check passes, and the answer is the code of the classification with the machine's parameters. -/
theorem classifyResult : Obligations.ClassifyResult := by
  intro c isValid prev s hvalid hprev
  refine ⟨_, statusOfCode prev, s.noMatchAnswer (statusOfCode prev),
    answer_eq_next (checkClassify_eq_none hvalid hprev), ⟨⟨rfl, rfl, rfl, rfl, rfl⟩, rfl, rfl⟩, ⟨rfl, rfl, rfl, rfl⟩,
    statusOfCode_eq hprev, fun hhold => by rw [State.noMatchAnswer, hhold], ?_⟩
  exact State.reply_responses ..

/-! ### Refusals -/

/-- An operation that a check refuses gives the refusal and nothing else. -/
theorem answer_eq_refuse {why : Option PacketRefusal} {w : PacketRefusal} {body : State} (h : why = some w) :
    answer why s body = .next (s.refuse w) := by
  rw [h, answer]

theorem checkInit_eq_some (hinit : s.init = false) : checkInit s = some .notConstructed :=
  if_neg (ne_true_of_eq_false hinit)

theorem checkReadReg_eq_some (hinit : s.init = false) (count : Byte) :
    checkReadReg s count = some .notConstructed :=
  if_neg (ne_true_of_eq_false hinit)

theorem checkWriteReg_eq_some (hinit : s.init = false) (data : List Byte) :
    checkWriteReg s data = some .notConstructed :=
  if_neg (ne_true_of_eq_false hinit)

/-- Settles O51: every other host operation looks at `INIT` first. -/
theorem nothingRunsWithoutAHandle : Obligations.NothingRunsWithoutAHandle := by
  intro i s hinit hhost hconstruct hclassify htoPhys
  have hcheck := checkInit_eq_some hinit
  cases i with
  | wdata _ _ | rdata _ _ | rstatus _ | winstr _ | rdataf _ | wdataf _ => cases hhost
  | construct l o => exact absurd rfl (hconstruct l o)
  | classify c v p => exact absurd rfl (hclassify c v p)
  | toPhys r o => exact absurd rfl (htoPhys r o)
  | readReg _ count => exact answer_eq_refuse (checkReadReg_eq_some hinit count)
  | writeReg _ data => exact answer_eq_refuse (checkWriteReg_eq_some hinit data)
  | writeInstr _ | lock | unlock | getRaw | getPos | getStatus | getVersion | getRevision =>
    exact answer_eq_refuse hcheck

/-- Settles O52: each of the checks gives the reason named, by its first condition that fails. -/
theorem operandRefusals : Obligations.OperandRefusals := by
  intro a b data offset raw c v p s
  refine ⟨fun hinit => answer_eq_refuse ?_, fun hinit hfin => answer_eq_refuse ?_,
    fun hinit hcount => answer_eq_refuse ?_, fun hinit hlen => answer_eq_refuse ?_, fun hrange => answer_eq_refuse ?_,
    fun hraw => answer_eq_refuse ?_, fun hraw hfin => answer_eq_refuse ?_⟩
  · exact if_pos hinit
  · exact (if_neg (ne_true_of_eq_false hinit)).trans (if_neg (ne_true_of_eq_false hfin))
  · exact (if_pos hinit).trans (if_neg fun hok => by rw [readLengthOk_iff] at hok; omega)
  · exact (if_pos hinit).trans (if_neg fun hok => by rw [writeLengthOk_iff] at hok; omega)
  · exact if_neg (by omega)
  · exact if_neg (not_lt.mpr hraw)
  · exact (if_pos hraw).trans (if_neg (ne_true_of_eq_false hfin))

end Sys2Proof.Machine
end

section
/-! PROOFS. What can take a set lock bit away (rule R85), and that locks do not nest (rule R84). -/

namespace Sys2Proof.Machine

@[simp] theorem State.reply_locked (s : State) (bs : List Byte) : (s.reply bs).locked = s.locked := rfl

@[simp] theorem State.replyFrame_locked (s : State) (bs : List Byte) : (s.replyFrame bs).locked = s.locked := rfl

section Unlock

variable {i : Instr} {s t : State}

/-- A write frame unlocks a locked bank only by a byte for 0xF4 with bit 6 clear. -/
theorem memWrite_unlocks {a : Address} {data : List Byte} (hl : s.locked = true)
    (h : (memWrite a data s).locked = false) :
    ∃ k < data.length, a + BitVec.ofNat 8 k = 0xF4#8 ∧ (data.getD k 0#8).getLsbD 6 = false := by
  have hhead : (frameHead Config.opcWdata (some a) s).locked = true := by
    rw [locked_of_rr ((frameHead_keeps s _ _ 0#8).1 hl)]
    exact hl
  exact writeBytes_unlocks hhead h

/-- After an instruction write the lock is bit 6 of the byte written (rules R21, R77). -/
theorem instrWrite_locked (s : State) (c : Byte) : (instrWrite c s).locked = c.getLsbD 6 := by
  obtain ⟨-, hbyte, -⟩ := instrWrite_effect s c
  rw [locked_eq, hbyte]

/-- The instructions whose body can unlock a locked bank. -/
theorem Ran.unlocks (hran : Ran i s t) (hl : s.locked = true) (ht : t.locked = false) :
    i = .unlock ∨ i = .getRaw ∨ i = .getPos ∨
    (∃ c : Byte, (i = .writeInstr c ∨ i = .winstr c) ∧ c.getLsbD 6 = false) ∨
    (∃ (a : Address) (data : List Byte) (k : Nat), (i = .writeReg a data ∨ i = .wdata a data) ∧ k < data.length ∧
      a + BitVec.ofNat 8 k = 0xF4#8 ∧ (data.getD k 0#8).getLsbD 6 = false) := by
  have hkept (h : t.rr = s.rr) : False := by
    rw [locked_of_rr h, hl] at ht
    cases ht
  cases i with
  | unlock | getRaw | getPos => simp
  | lock =>
    obtain ⟨-, rfl⟩ := hran
    simp at ht
  | winstr c | writeInstr c =>
    obtain ⟨-, rfl⟩ := hran
    exact .inr (.inr (.inr (.inl ⟨c, by simp, by simpa [instrWrite_locked] using ht⟩)))
  | wdata a data | writeReg a data =>
    obtain ⟨-, -, -, rfl⟩ := hran
    obtain ⟨k, hk, haddr, hbit⟩ := memWrite_unlocks hl (by simpa using ht)
    exact .inr (.inr (.inr (.inr ⟨a, data, k, by simp, hk, haddr, hbit⟩)))
  | rstatus _ | rdataf _ | wdataf _ => exact hran.elim
  | rdata _ _ | readReg _ _ | getVersion | getRevision | getStatus | classify _ _ _ | toPhys _ _ | construct _ _ =>
    exact (hkept (hran.rr_of_locked hl (by simp))).elim

/-- Settles O28: a refusal keeps the register file, and a body unlocks by one of the writes named. -/
theorem onlyAWriteOfF4Unlocks : Obligations.OnlyAWriteOfF4Unlocks := by
  intro i s t hl h ht
  obtain ⟨w, rfl⟩ | hran := exec_next h
  · exact absurd ((locked_of_rr (State.refuse_rr s w)).trans hl) (ne_true_of_eq_false ht)
  · exact hran.unlocks hl ht

end Unlock

/-- With a handle `lock` locks the bank and keeps the handle. -/
theorem locked_of_exec_lock {s t : State} (hinit : s.init = true) (h : exec .lock s = .next t) :
    t.locked = true ∧ t.init = true := by
  cases (answer_eq_next (checkInit_eq_none hinit)).symm.trans h
  simpa using hinit

/-- Settles O29: a lock and an unlock write bit 6 whatever it was, and a poll ends with an unlock. -/
theorem locksDoNotNest : Obligations.LocksDoNotNest := by
  intro s a b c d hinit hlock₁ hlock₂ hunlock hpoll
  obtain ⟨hla, hia⟩ := locked_of_exec_lock hinit hlock₁
  obtain ⟨hlb, hib⟩ := locked_of_exec_lock hia hlock₂
  cases (answer_eq_next (checkInit_eq_none hib)).symm.trans hunlock
  obtain ⟨bs, rfl⟩ := poll_of_exec_next hib (.inl hpoll)
  exact ⟨hla, hlb, by simp, by simp⟩

end Sys2Proof.Machine
end

section
/-! PROOFS. The polls complete (rules R100 to R106, R114), the latched alarm (rule R109), and two polls of one snapshot
(rule R107). -/

namespace Sys2Proof.Machine

/-! ### Results -/

/-- An answer changes nothing that the effect of a poll speaks of. -/
theorem PollEffect.reply {s t : State} (h : PollEffect s t) (bs : List Byte) : PollEffect s (t.reply bs) := h

/-- Settles O35: the effect of a poll, and the answer is `RAW` as it then stands. -/
theorem getRawResult : Obligations.GetRawResult := by
  intro s hinit
  refine ⟨_, answer_eq_next (checkInit_eq_none hinit), ?_, ?_, ?_, ?_⟩
  · exact (poll_effect s).reply _
  · exact (poll_sameSetup s).reply _
  · rw [State.reply_select, poll_select]
  · rw [State.reply_responses, poll_responses, State.reply_raw, bytesOfWord]

/-- The conversion in binary32 (rule R112). -/
theorem toPhysical_binary32 (convFac : Distance) (raw : Word) (offset : Distance) :
    toPhysical (binary32 convFac) raw offset = f32Sub (f32Mul (f32OfU32 raw) convFac) offset := by
  rw [toPhysical, binary32]

/-- The corrected distance in the machine's arithmetic (rules R112, R114). -/
theorem position_eq (s : State) (raw : Word) : s.position raw = correct (binary32 s.params.convFac)
    (f32Sub (f32Mul (f32OfU32 raw) s.params.convFac) s.offset) := by
  rw [State.position, State.numerics, toPhysical_binary32]

/-- Settles O44: the effect of a poll, which changes neither the parameters nor the offset that the conversion uses. -/
theorem getPositionResult : Obligations.GetPositionResult := by
  intro s hinit
  refine ⟨_, (poll s).position (poll s).raw, answer_eq_next (checkInit_eq_none hinit), ?_, ?_, ?_, ?_, ?_⟩
  · exact (poll_effect s).reply _
  · exact (poll_sameSetup s).reply _
  · rw [State.reply_select, poll_select]
  · rw [position_eq, poll_params, poll_offset, State.reply_raw]
  · rw [State.reply_responses, poll_responses, bytesOfWord]

/-! ### The latched alarm -/

/-- Settles O32: rule 1 fires unless `rule4` meets its evidence, and then rule 4 is the first that matches. -/
theorem alarmIsSticky : Obligations.AlarmIsSticky := by
  intro rec noMatch c v
  by_cases hrec : rec = .rule4 ∧ v = true ∧ c = 1#8
  · obtain ⟨rfl, rfl, rfl⟩ := hrec
    rfl
  · rw [if_neg hrec]
    exact if_pos ⟨rfl, by rwa [evidence4_iff]⟩

/-- A poll from a latched alarm keeps `RAW`, and gives the alarm or, under `rule4`, a warning. -/
theorem poll_of_alarm {s : State} (ha : s.status = .encoderAlarm) : (poll s).raw = s.raw ∧
    ((poll s).status = .encoderAlarm ∨ (s.params.alarmRecovery = .rule4 ∧ (poll s).status = .encoderWarning)) := by
  obtain ⟨_, _, _, _, _, _, esc, val, _, noMatch, -, -, -, -, -, -, -, -, -, -, hstatus, hraw, -⟩ := poll_effect s
  rw [ha, alarmIsSticky] at hstatus
  by_cases hrec : s.params.alarmRecovery = .rule4 ∧ (val == 2#8) = true ∧ esc = 1#8
  · rw [if_pos hrec] at hstatus
    rw [hstatus, if_neg (by decide)] at hraw
    exact ⟨hraw, .inr ⟨hrec.1, hstatus⟩⟩
  · rw [if_neg hrec] at hstatus
    rw [hstatus, if_neg (by decide)] at hraw
    exact ⟨hraw, .inl hstatus⟩

/-- Settles O34: only the polls write `RAW` and `STATUS`, and they classify a latched alarm by rule 1. -/
theorem alarmHoldsRaw : Obligations.AlarmHoldsRaw := by
  intro i s t ha hc h
  obtain ⟨w, rfl⟩ | hran := exec_next h
  · exact ⟨rfl, .inl ha⟩
  · by_cases hpoll : i = .getRaw ∨ i = .getPos
    · obtain ⟨bs, rfl⟩ := hran.eq_poll_reply hpoll
      rw [State.reply_raw, State.reply_status]
      exact poll_of_alarm ha
    · obtain ⟨hr, hp⟩ := not_or.mp hpoll
      obtain ⟨-, hraw, hstatus⟩ := hran.sameHandle hc hr hp
      exact ⟨hraw, .inl (hstatus.trans ha)⟩

/-! ### Two polls of one snapshot -/

/-- The candidate of the four sample registers of a register file (rules R101, R102). -/
def sampleOf (m : Memory) : Word :=
  ((Memory.read m 0x03 ++ Memory.read m 0x02 ++ Memory.read m 0x01 ++ Memory.read m 0x00) >>> 2) &&& 0x03FFFFFF#32

/-- The four sample registers are no draws. -/
def SamplesReadable (s : State) : Prop := ∀ x : Address, x.toNat < 4 → x ∉ s.params.volatileSet

/-- The sample registers of two register files agree. -/
def SameSamples (m n : Memory) : Prop := ∀ x : Address, x.toNat < 4 → Memory.read n x.toNat = Memory.read m x.toNat

theorem SameSamples.sampleOf_eq {m n : Memory} (h : SameSamples m n) : sampleOf n = sampleOf m := by
  have h0 : Memory.read n 0x00 = Memory.read m 0x00 := h 0x00#8 (by decide)
  have h1 : Memory.read n 0x01 = Memory.read m 0x01 := h 0x01#8 (by decide)
  have h2 : Memory.read n 0x02 = Memory.read m 0x02 := h 0x02#8 (by decide)
  have h3 : Memory.read n 0x03 = Memory.read m 0x03 := h 0x03#8 (by decide)
  rw [sampleOf, sampleOf, h0, h1, h2, h3]

/-- What `getRawPosition` commits is the sample of the register file that its lock froze: the poll leaves the sample
registers as they are there, and they are those of the start where no refresh step can come before the lock. -/
theorem getRaw_sample {s t : State} (hinit : s.init = true) (hv : SamplesReadable s) (h : exec .getRaw s = .next t) :
    t.init = true ∧ t.params = s.params ∧ ∃ m : Memory, (t.status = .noErrors → t.raw = sampleOf m) ∧
      SameSamples m t.rr ∧
      ((Quiet s (maskPoints s.params.lockWriteForm) ∨ ∀ x : Address, x.toNat < 4 → x ∉ s.params.frozenSet) →
        SameSamples s.rr m) := by
  obtain ⟨bs, rfl⟩ := poll_of_exec_next hinit (.inl h)
  obtain ⟨m, _, b0, b1, b2, b3, _, _, _, _, -, h0, h1, h2, h3, -, -, -, -, -, -, hraw, -, hafter, hbefore⟩ :=
    (poll_effect s).reply bs
  have hne {x : Address} (hx : x.toNat < 4) : x ≠ 0xF4#8 := by bv_omega
  refine ⟨by simpa using hinit, by simp, m, fun hok => ?_, fun x hx => hafter x (hne hx),
    fun hquiet x hx => hbefore x (hne hx) ?_⟩
  · rw [hraw, if_pos hok, h0 (hv _ (by decide)), h1 (hv _ (by decide)), h2 (hv _ (by decide)), h3 (hv _ (by decide)),
      sampleOf]
  · exact hquiet.symm.imp (fun hout => .inr (hout x hx)) id

/-- Settles O40: each poll commits the sample of the register file that its lock froze; the first leaves those four
registers as they are there, and the second's lock finds them so. -/
theorem pollsOfOneSnapshotAgree : Obligations.PollsOfOneSnapshotAgree := by
  intro s a b hinit hv hquiet ha hb hsa hsb
  obtain ⟨hinit', hp, m, hcommit, hleft, -⟩ := getRaw_sample hinit hv ha
  obtain ⟨-, -, n, hcommit', -, hfound⟩ := getRaw_sample (s := a) hinit' (by rwa [SamplesReadable, hp]) hb
  have hsame : SameSamples m n := fun x hx => (hfound (by rwa [hp] at hquiet ⊢) x hx).trans (hleft x hx)
  rw [hcommit hsa, hcommit' hsb, hsame.sampleOf_eq]

end Sys2Proof.Machine
end

section
/-! PROOFS. Distances in binary32 (rules R110 to R115): the branch of the corrector by value, the conversion of integers,
the rounding of differences and products, and that no distance is a NaN. -/

namespace Sys2Proof.Machine

/-! ### The corrector's branches by value (rule R115) -/

section Corrector

variable {a b : Distance}

/-- Less-than on finite patterns is less-than on their values. -/
theorem f32Lt_eq_decide (ha : finite32 a = true) (hb : finite32 b = true) :
    f32Lt a b = decide (f32Value a < f32Value b) := by
  rw [Bool.eq_iff_iff, f32Lt_iff ha hb, decide_eq_true_eq, f32Value_lt]

/-- A pattern whose integer is `v` units of one has the value `v`. -/
theorem f32Value_of_int {w : Distance} {v : Int} (h : f32Int w = v * 2 ^ 149) : f32Value w = v := by
  rw [f32Value, h]
  push_cast
  exact mul_div_cancel_right₀ _ (by positivity)

theorem f32Value_tLo : f32Value Config.tLo = 10 := by
  exact_mod_cast f32Value_of_int (show f32Int Config.tLo = 10 * 2 ^ 149 by decide)

theorem f32Value_tHi : f32Value Config.tHi = 100 := by
  exact_mod_cast f32Value_of_int (show f32Int Config.tHi = 100 * 2 ^ 149 by decide)

theorem f32Value_tWrap : f32Value Config.tWrap = 190 := by
  exact_mod_cast f32Value_of_int (show f32Int Config.tWrap = 190 * 2 ^ 149 by decide)

end Corrector

/-- Settles O46: the three comparisons of the corrector are comparisons with 10, 100 and 190. -/
theorem correctorBranchesByValue : Obligations.CorrectorBranchesByValue := by
  intro convFac d hd
  have hlo : (binary32 convFac).lt Config.tLo d = decide (10 < f32Value d) := by
    rw [← f32Value_tLo]
    exact f32Lt_eq_decide (by decide) hd
  have hhi : (binary32 convFac).lt d Config.tHi = decide (f32Value d < 100) := by
    rw [← f32Value_tHi]
    exact f32Lt_eq_decide hd (by decide)
  have hwrap : (binary32 convFac).lt Config.tWrap d = decide (190 < f32Value d) := by
    rw [← f32Value_tWrap]
    exact f32Lt_eq_decide (by decide) hd
  refine ⟨fun ⟨h10, h100⟩ => ?strip, fun h190 => ?wrap, fun hout => ?unchanged⟩
  case strip => exact correct_of_strip (hlo.trans (decide_eq_true h10)) (hhi.trans (decide_eq_true h100))
  case wrap =>
    have h100 : ¬ f32Value d < 100 := by linarith
    exact correct_of_wrap (.inr (hhi.trans (decide_eq_false h100))) (hwrap.trans (decide_eq_true h190))
  case unchanged =>
    have h190 : ¬ 190 < f32Value d := by
      obtain h10 | ⟨-, h190⟩ := hout <;> linarith
    refine correct_of_noMatch ?_ (hwrap.trans (decide_eq_false h190))
    exact hout.imp (fun h10 => hlo.trans (decide_eq_false (not_lt.mpr h10)))
      fun h100 => hhi.trans (decide_eq_false (not_lt.mpr h100.1))

/-! ### The conversion of integers (rule R113) -/

/-- The conversion of a positive integer is a significand of at most 24 bits with its unit: the integer itself where it
has at most 24 bits, and otherwise rounded to a multiple of the unit. -/
theorem f32Int_ofU32 {r : Word} (hr : r.toNat ≠ 0) : ∃ u sig : Nat, u = 126 + Nat.log2 r.toNat ∧
    sig = (if 149 ≤ u then roundShift r.toNat (u - 149) else r.toNat * 2 ^ (149 - u)) ∧
    f32Int (f32OfU32 r) = (sig * 2 ^ u : Nat) := by
  have hlog : Nat.log2 r.toNat < 32 := (Nat.log2_lt hr).mpr r.isLt
  obtain ⟨u, sig, hu, hsig, hround, h24, h23, -, -⟩ := roundMag_spec (e := 149) (g := 0) hr
  have hmag : roundMag r.toNat 149 0 = u * 2 ^ 23 + sig := by omega
  have hint : f32Int (f32OfU32 r) = (magInt (u * 2 ^ 23 + sig) : Int) := by
    rw [f32OfU32, roundF32, if_neg hr, hmag, f32Int_eq, f32Mag_pack _ (by omega), f32Neg_pack _ (by omega)]
    rfl
  exact ⟨u, sig, by omega, hsig, by rw [hint, magInt_pattern h24 h23]⟩

/-- An integer of at most 24 bits is converted exactly. -/
theorem f32Value_ofU32_exact {r : Word} (h : r.toNat < 2 ^ 24) : f32Value (f32OfU32 r) = r.toNat := by
  refine f32Value_of_int (v := r.toNat) ?_
  by_cases hr : r.toNat = 0
  · rw [BitVec.eq_of_toNat_eq (y := 0#32) hr]
    decide
  · have hlog : Nat.log2 r.toNat < 24 := (Nat.log2_lt hr).mpr h
    obtain ⟨u, sig, hu, hsig, hint⟩ := f32Int_ofU32 hr
    have hexact : sig = r.toNat * 2 ^ (149 - u) := by
      split at hsig
      · obtain rfl : u = 149 := by omega
        simpa [roundShift, Nat.mod_one] using hsig
      · exact hsig
    rw [hint, hexact, mul_assoc, ← pow_add, show 149 - u + u = 149 by omega]
    push_cast
    rfl

/-- Rounding goes up above half a unit, and at half a unit from an odd quotient. -/
theorem roundShift_cases (m k : Nat) :
    (roundShift m k = m / 2 ^ k + 1 ∧
      (2 ^ k < 2 * (m % 2 ^ k) ∨ (2 * (m % 2 ^ k) = 2 ^ k ∧ m / 2 ^ k % 2 = 1))) ∨
    (roundShift m k = m / 2 ^ k ∧
      ¬ (2 ^ k < 2 * (m % 2 ^ k) ∨ (2 * (m % 2 ^ k) = 2 ^ k ∧ m / 2 ^ k % 2 = 1))) := by
  simp only [roundShift]
  split
  · exact .inl ⟨rfl, ‹_›⟩
  · exact .inr ⟨rfl, ‹_›⟩

/-- An integer of `k` bits more than 24 is converted to its rounding to a multiple of `2 ^ k`. -/
theorem f32Value_ofU32_rounded {r : Word} {k : Nat} (hlo : 2 ^ (23 + k) ≤ r.toNat) (hhi : r.toNat < 2 ^ (24 + k)) :
    f32Value (f32OfU32 r) = (2 ^ k * roundShift r.toNat k : Nat) := by
  have hr : r.toNat ≠ 0 := by
    have := Nat.two_pow_pos (23 + k)
    omega
  have hlog : Nat.log2 r.toNat = 23 + k := (Nat.log2_eq_iff hr).mpr ⟨hlo, by rwa [show 23 + k + 1 = 24 + k by omega]⟩
  obtain ⟨u, sig, hu, hsig, hint⟩ := f32Int_ofU32 hr
  obtain rfl : u = 149 + k := by omega
  rw [if_pos (by omega), Nat.add_sub_cancel_left] at hsig
  have hval := f32Value_of_int (v := (2 ^ k * roundShift r.toNat k : Nat)) (w := f32OfU32 r)
    (by rw [hint, hsig]; push_cast; ring)
  exact_mod_cast hval

/-- Settles O47: below 2^24 the conversion is exact, and above it rounds to a multiple of 2 or of 4 by the remainder. -/
theorem ofU32IsNearest : Obligations.OfU32IsNearest := by
  intro r
  refine ⟨fun h => ?_, fun hlo hhi => ⟨_, f32Value_ofU32_rounded (k := 1) hlo.le hhi, ?_⟩,
    fun hlo hhi => ⟨_, f32Value_ofU32_rounded (k := 2) hlo hhi, ?_⟩⟩
  · obtain hlt | heq := h.lt_or_eq
    · exact f32Value_ofU32_exact hlt
    · rw [f32Value_ofU32_rounded (k := 1) heq.ge (by omega), heq]
      rfl
  · obtain ⟨hup, hrem⟩ | ⟨hdown, hrem⟩ := roundShift_cases r.toNat 1 <;> omega
  · obtain ⟨hup, hrem⟩ | ⟨hdown, hrem⟩ := roundShift_cases r.toNat 2 <;> omega

/-! ### Rounding of differences and products (rule R110) -/

section Rounding

variable {a b c : Distance}

/-- A distance between values is one between their integers. -/
theorem abs_f32Value_sub (w : Distance) (x : Int) (k : Nat) :
    |f32Value w - (x : Rat) / 2 ^ (149 + k)| = (|f32Int w * 2 ^ k - x| : Int) / 2 ^ (149 + k) := by
  have hval : f32Value w - (x : Rat) / 2 ^ (149 + k) = ((f32Int w * 2 ^ k - x : Int) : Rat) / 2 ^ (149 + k) := by
    rw [f32Value, pow_add]
    push_cast
    field_simp
  rw [hval, abs_div, abs_of_pos (show (0 : Rat) < 2 ^ (149 + k) by positivity), Int.cast_abs]

/-- The result is a nearest finite number to the exact one, and where another is as near it is even: the two clauses of
rounding to nearest, ties to even. -/
def IsNearestEven (result : Distance) (exact : Rat) : Prop :=
  ∀ c : Distance, |f32Value result - exact| ≤ |f32Value c - exact| ∧
    (|f32Value result - exact| = |f32Value c - exact| → f32Value c ≠ f32Value result → result.getLsbD 0 = false)

/-- A finite rounding is the nearest number to what is rounded, ties to even. -/
theorem roundF32_isNearestEven {n : Bool} {m e g : Nat} (hf : finite32 (roundF32 n m e g) = true) :
    IsNearestEven (roundF32 n m e g) ((((if n then -1 else 1) * (m * 2 ^ e : Nat) : Int) : Rat) / 2 ^ (149 + g)) := by
  intro c
  have hpos : (0 : Rat) < 2 ^ (149 + g) := by positivity
  rw [abs_f32Value_sub, abs_f32Value_sub]
  refine ⟨?_, fun htie hne => roundF32_tie hf (c := c) ?_ fun h => hne ?_⟩
  · exact div_le_div_of_nonneg_right (by exact_mod_cast roundF32_near hf c) hpos.le
  · exact_mod_cast (div_left_inj' hpos.ne').mp htie
  · rw [f32Value, f32Value, h]

/-- Nothing else is as near as a result that is exact. -/
theorem isNearestEven_of_exact {w : Distance} {x : Rat} (h : f32Value w = x) : IsNearestEven w x := by
  intro c
  rw [h, sub_self, abs_zero]
  exact ⟨abs_nonneg _, fun htie hne => absurd (sub_eq_zero.mp (abs_eq_zero.mp htie.symm)) hne⟩

/-- Subtraction of finite numbers: zero for an exact zero, and otherwise one rounding. -/
theorem f32Sub_eq (ha : finite32 a = true) (hb : finite32 b = true) : f32Sub a b =
    if f32Int a - f32Int b = 0 then f32Pack (f32Neg a && !f32Neg b && f32Mag a == 0) 0
    else roundF32 (decide (f32Int a - f32Int b < 0)) (f32Int a - f32Int b).natAbs 0 0 := by
  obtain ⟨hna, hia⟩ := f32_finite_not_special ha
  obtain ⟨hnb, hib⟩ := f32_finite_not_special hb
  simp [f32Sub, hna, hia, hnb, hib]

/-- Multiplication of finite numbers is one rounding of the product of the significands. -/
theorem f32Mul_eq (ha : finite32 a = true) (hb : finite32 b = true) : f32Mul a b =
    roundF32 (f32Neg a != f32Neg b) (f32Sig a * f32Sig b) (f32Exp a + f32Exp b) 149 := by
  obtain ⟨hna, hia⟩ := f32_finite_not_special ha
  obtain ⟨hnb, hib⟩ := f32_finite_not_special hb
  simp [f32Mul, hna, hia, hnb, hib]

theorem f32Sub_isNearestEven (ha : finite32 a = true) (hb : finite32 b = true) (hf : finite32 (f32Sub a b) = true) :
    IsNearestEven (f32Sub a b) (f32Value a - f32Value b) := by
  have hexact : f32Value a - f32Value b = ((f32Int a - f32Int b : Int) : Rat) / 2 ^ 149 := by
    rw [f32Value, f32Value]
    push_cast
    ring
  rw [f32Sub_eq ha hb] at hf ⊢
  by_cases hd : f32Int a - f32Int b = 0
  · rw [if_pos hd, hexact, hd]
    refine isNearestEven_of_exact ?_
    rw [f32Value, f32Int_eq, f32Mag_pack _ (by decide)]
    simp [magInt]
  · rw [if_neg hd] at hf ⊢
    have hsign : (if decide (f32Int a - f32Int b < 0) = true then -1 else 1) *
        (((f32Int a - f32Int b).natAbs * 2 ^ 0 : Nat) : Int) = f32Int a - f32Int b := by
      simp only [decide_eq_true_eq]
      split_ifs <;> omega
    have hround := roundF32_isNearestEven hf
    rwa [hsign, ← hexact] at hround

theorem f32Mul_isNearestEven (ha : finite32 a = true) (hb : finite32 b = true) (hf : finite32 (f32Mul a b) = true) :
    IsNearestEven (f32Mul a b) (f32Value a * f32Value b) := by
  rw [f32Mul_eq ha hb] at hf ⊢
  have hexact : f32Value a * f32Value b = ((f32Int a * f32Int b : Int) : Rat) / 2 ^ (149 + 149) := by
    rw [f32Value, f32Value, pow_add]
    push_cast
    ring
  have hsign : (if (f32Neg a != f32Neg b) = true then -1 else 1) *
      ((f32Sig a * f32Sig b * 2 ^ (f32Exp a + f32Exp b) : Nat) : Int) = f32Int a * f32Int b := by
    rw [f32Int_abs a, f32Int_abs b]
    cases f32Neg a <;> cases f32Neg b <;> push_cast <;> simp <;> ring
  have hround := roundF32_isNearestEven hf
  rwa [hsign, ← hexact] at hround

end Rounding

/-- Settles O48: both operations round the exact result once. -/
theorem arithmeticRoundsToNearest : Obligations.ArithmeticRoundsToNearest :=
  fun _ _ c ha hb _ => ⟨fun hf => f32Sub_isNearestEven ha hb hf c, fun hf => f32Mul_isNearestEven ha hb hf c⟩

/-! ### Distances are numbers (rules R110, R112) -/

/-- Subtracting a finite number keeps a distance a number, so the corrector does. -/
theorem correct_not_nan (convFac : Distance) {d : Distance} (hd : f32IsNaN d = false) :
    f32IsNaN (correct (binary32 convFac) d) = false := by
  unfold correct
  split_ifs
  · exact f32Sub_not_nan hd (show finite32 Config.stripLen = true by decide)
  · exact f32Sub_not_nan hd (show finite32 Config.wrapConst = true by decide)
  · exact hd

/-- A finite positive pattern has no sign and is finite (rule R117). -/
theorem finite32_of_convFac {w : Distance} (h : w.toNat < 0x7F800000) : finite32 w = true ∧ f32Neg w = false := by
  refine ⟨(finite32_iff w).mpr ?_, ?_⟩
  · rw [f32Mag]
    omega
  · rw [f32Neg_eq]
    exact decide_eq_false (by omega)

/-- Settles O49: zero times a positive number is +0, and neither operation makes a NaN of such operands. -/
theorem distancesAreNumbers : Obligations.DistancesAreNumbers := by
  intro convFac raw offset _ hfin hoff
  obtain ⟨hcf, hpos⟩ := finite32_of_convFac hfin
  have hnum : f32IsNaN (toPhysical (binary32 convFac) raw offset) = false :=
    f32Sub_not_nan (f32Mul_not_nan (f32OfU32_finite raw) hcf) hoff
  refine ⟨?_, hnum, correct_not_nan convFac hnum⟩
  have hzero : f32OfU32 0#32 = 0#32 := by decide
  have hprod : f32Mul 0#32 convFac = 0#32 := by
    rw [f32Mul_eq (by decide) hcf, hpos]
    simp [roundF32, f32Sig, f32Mag, f32Neg, expField, f32Pack]
  rw [toPhysical_binary32, hzero, hprod]
  decide

end Sys2Proof.Machine
end

section
/-! PROOFS. What the bus sees of every instruction (rules R43, R70, R79, R126), and the moves of the refresh agent that it
takes (rule R38). -/

namespace Sys2Proof.Machine

/-! ### Whole frames, one after the other -/

section Frames

variable {line : Byte} {f : List TransportCall}

/-- A reader between frames goes through a whole frame. -/
theorem IsFrame.scanFrames (h : IsFrame line f) (rest : List TransportCall) :
    Machine.scanFrames line .idle (f ++ rest) = Machine.scanFrames line .idle rest := by
  obtain ⟨a, bs, rfl⟩ | ⟨a, vs, rfl⟩ | ⟨c, rfl⟩ := h
  · exact scanFrames_rdata line a bs rest
  · exact scanFrames_wdata line a vs rest
  · exact scanFrames_winstr line c rest

/-- The controller's opcode bytes (rule R52, decision D30). -/
def EmittedOpcode (o : Byte) : Prop := o = 0x02#8 ∨ o = 0x03#8 ∨ o = 0x07#8

/-- A whole frame begins with one opcode byte of the controller's. -/
theorem IsFrame.opcodesOf (h : IsFrame line f) : ∃ o, EmittedOpcode o ∧
    ∀ rest, Machine.opcodesOf (f ++ rest) = o :: Machine.opcodesOf rest := by
  obtain ⟨a, bs, rfl⟩ | ⟨a, vs, rfl⟩ | ⟨c, rfl⟩ := h
  · exact ⟨0x03#8, .inr (.inl rfl), opcodesOf_rdata line a bs⟩
  · exact ⟨0x02#8, .inl rfl, opcodesOf_wdata line a vs⟩
  · exact ⟨0x07#8, .inr (.inr rfl), opcodesOf_winstr line c⟩

theorem wholeFrames_flatten {fs : List (List TransportCall)} (h : ∀ f ∈ fs, IsFrame line f) :
    wholeFrames line fs.flatten = true := by
  induction fs with
  | nil => rfl
  | cons f fs ih =>
    obtain ⟨hf, hfs⟩ := List.forall_mem_cons.mp h
    rw [wholeFrames, List.flatten_cons, hf.scanFrames]
    exact ih hfs

theorem emittedOpcode_flatten {fs : List (List TransportCall)} (h : ∀ f ∈ fs, IsFrame line f) :
    ∀ o ∈ opcodesOf fs.flatten, EmittedOpcode o := by
  induction fs with
  | nil => simp [opcodesOf]
  | cons f fs ih =>
    obtain ⟨hf, hfs⟩ := List.forall_mem_cons.mp h
    obtain ⟨o, ho, hopc⟩ := hf.opcodesOf
    rw [List.flatten_cons, hopc]
    exact List.forall_mem_cons.mpr ⟨ho, ih hfs⟩

end Frames

/-- Settles O55: a refusal calls nothing, and a body puts whole frames on the bus. -/
theorem busSeesWholeFrames : Obligations.BusSeesWholeFrames := by
  intro i s t h
  obtain ⟨w, rfl⟩ | hran := exec_next h
  · exact ⟨[], (List.append_nil _).symm, rfl, id, by simp [opcodesOf]⟩
  · obtain ⟨frames, hbus, hframes⟩ := hran.frames
    exact ⟨frames.flatten, hbus, wholeFrames_flatten hframes, hran.select, emittedOpcode_flatten hframes⟩

/-! ### Counts of frames, bytes and moves -/

/-- The calls from one state to another have this many frames and bytes, and each byte took one move. -/
def Traced (s t : State) (frames bytes : Nat) : Prop :=
  ∃ calls : List TransportCall, t.bus = s.bus ++ calls ∧ frameCount calls = frames ∧ byteCount calls = bytes ∧
    t.moves = s.moves.drop bytes

section Traced

variable (s : State)

theorem Traced.reply {s t : State} {frames bytes : Nat} (h : Traced s t frames bytes) (bs : List Byte) :
    Traced s (t.reply bs) frames bytes := h

theorem Traced.replyFrame {s t : State} {frames bytes : Nat} (h : Traced s t frames bytes) (bs : List Byte) :
    Traced s (t.replyFrame bs) frames bytes := h

/-- Nothing on the bus and no move taken. -/
theorem Traced.none {s t : State} (hbus : t.bus = s.bus) (hmoves : t.moves = s.moves) : Traced s t 0 0 :=
  ⟨[], by rw [hbus, List.append_nil], rfl, rfl, hmoves⟩

theorem memRead_traced (a : Address) (n : Nat) : Traced s (memRead a n s).2 1 (2 + n) := by
  obtain ⟨hframes, hbytes⟩ := counts_rdata s.sel a (memRead a n s).1
  rw [memRead_length] at hbytes
  exact ⟨_, memRead_bus s a n, hframes, hbytes, memRead_moves s a n⟩

theorem memReadByte_traced (a : Address) : Traced s (memReadByte a s).2 1 3 := memRead_traced s a 1

theorem memWrite_traced (a : Address) (vs : List Byte) : Traced s (memWrite a vs s) 1 (2 + vs.length) := by
  obtain ⟨hframes, hbytes⟩ := counts_wdata s.sel a vs
  exact ⟨_, memWrite_bus s a vs, hframes, hbytes, memWrite_moves s a vs⟩

theorem instrWrite_traced (c : Byte) : Traced s (instrWrite c s) 1 2 := by
  obtain ⟨hframes, hbytes⟩ := counts_winstr s.sel c
  exact ⟨_, instrWrite_bus s c, hframes, hbytes, instrWrite_moves s c⟩

/-- The bytes of a read-modify-write are its points (rule R80): three of the read and those of the write-back. -/
theorem maskPoints_eq (form : LockWriteForm) : maskPoints form = 3 + if form = .instr then 2 else 3 := by
  cases form <;> rfl

theorem applyInstrMask_traced (m : Byte) (j : MaskIntent) :
    Traced s (applyInstrMask m j s) 2 (maskPoints s.params.lockWriteForm) := by
  refine ⟨_, (applyInstrMask_bus s m j).trans (List.append_assoc ..), ?_, ?_, applyInstrMask_moves s m j⟩
  · simp only [frameCount_append, counts_rdata, counts_writeBack]
  · simp only [byteCount_append, counts_rdata, counts_writeBack, maskPoints_eq, List.length_singleton]

theorem poll_traced : Traced s (poll s) 10 (18 + 2 * maskPoints s.params.lockWriteForm) := by
  obtain ⟨_, _, _, _, _, _, _, _, _, _, hbus, -⟩ := poll_effect s
  refine ⟨_, hbus, ?_, ?_, poll_moves s⟩
  · simp only [pollCalls, frameCount_append, counts_rdata, counts_writeBack]
  · simp only [pollCalls, byteCount_append, counts_rdata, counts_writeBack, maskPoints_eq, List.length_singleton]
    omega

end Traced

/-- The frames of an instruction's body (rule R126). -/
def framesOf : Instr → Nat
  | .construct _ _ | .classify _ _ _ | .toPhys _ _ | .getStatus => 0
  | .lock | .unlock => 2
  | .getRaw | .getPos => 10
  | _ => 1

/-- The bytes on the wire of an instruction's body (rule R126). -/
def bytesOf (form : LockWriteForm) : Instr → Nat
  | .rdata _ count => 2 + count
  | .readReg _ count => 2 + count.toNat
  | .wdata _ data | .writeReg _ data => 2 + data.length
  | .winstr _ | .writeInstr _ => 2
  | .getVersion | .getRevision => 3
  | .lock | .unlock => maskPoints form
  | .getRaw | .getPos => 18 + 2 * maskPoints form
  | _ => 0

/-- Every body has the frames and bytes of the table, and took one move for each byte. -/
theorem Ran.traced {i : Instr} {s t : State} (hran : Ran i s t) :
    Traced s t (framesOf i) (bytesOf s.params.lockWriteForm i) := by
  cases i with
  | rstatus _ | rdataf _ | wdataf _ => exact hran.elim
  | wdata a data =>
    obtain ⟨-, -, -, rfl⟩ := hran
    exact (memWrite_traced s a data).replyFrame _
  | writeReg a data =>
    obtain ⟨-, -, -, rfl⟩ := hran
    exact (memWrite_traced s a data).reply _
  | rdata a n =>
    obtain ⟨-, -, -, rfl⟩ := hran
    exact (memRead_traced s a n).replyFrame _
  | readReg a n =>
    obtain ⟨-, -, -, rfl⟩ := hran
    exact (memRead_traced s a n.toNat).reply _
  | winstr c =>
    obtain ⟨-, rfl⟩ := hran
    exact (instrWrite_traced s c).replyFrame _
  | writeInstr c =>
    obtain ⟨-, rfl⟩ := hran
    exact (instrWrite_traced s c).reply _
  | getVersion | getRevision =>
    obtain ⟨-, rfl⟩ := hran
    exact (memReadByte_traced s _).reply _
  | lock | unlock =>
    obtain ⟨-, rfl⟩ := hran
    exact (applyInstrMask_traced s _ _).reply _
  | getRaw | getPos =>
    obtain ⟨-, rfl⟩ := hran
    exact (poll_traced s).reply _
  | construct _ _ | classify _ _ _ | toPhys _ _ =>
    obtain ⟨-, -, rfl⟩ := hran
    exact .none rfl rfl
  | getStatus =>
    obtain ⟨-, rfl⟩ := hran
    exact .none rfl rfl

/-- With a handle a well-formed host operation other than `construct` is not refused. -/
theorem ran_of_exec_next {i : Instr} {s t : State} (hhost : i.isFrame = false) (hwf : wellFormed i = true)
    (hinit : s.init = true) (hc : ∀ l o, i ≠ .construct l o) (h : exec i s = .next t) : Ran i s t := by
  obtain ⟨w, rfl⟩ | hran := exec_next h
  · obtain ⟨u, bytes, hu, hresp⟩ := exec_returns_of_init hinit hhost hwf hc
    cases hu.symm.trans h
    simp at hresp
  · exact hran

/-- Settles O56: `construct` is refused with a handle, and every other operation runs its body. -/
theorem framesPerOperation : Obligations.FramesPerOperation := by
  intro i s t hhost hwf hinit h
  by_cases hc : ∃ l o, i = .construct l o
  · obtain ⟨l, o, rfl⟩ := hc
    cases (answer_eq_refuse (if_pos hinit : checkConstruct s o = _)).symm.trans h
    exact ⟨[], (List.append_nil _).symm, rfl, rfl⟩
  · have hran := ran_of_exec_next hhost hwf hinit (fun l o e => hc ⟨l, o, e⟩) h
    obtain ⟨calls, hbus, hframes, hbytes, -⟩ := hran.traced
    refine ⟨calls, hbus, hframes.trans ?_, hbytes.trans ?_⟩
    · cases i with
      | wdata _ _ | rdata _ _ | rstatus _ | winstr _ | rdataf _ | wdataf _ => cases hhost
      | _ => rfl
    · cases i with
      | wdata _ _ | rdata _ _ | rstatus _ | winstr _ | rdataf _ | wdataf _ => cases hhost
      | lock | unlock | getRaw | getPos => cases s.params.lockWriteForm <;> rfl
      | _ => rfl

/-! ### One move for each byte -/

/-- A byte read is the register after the move, unless its reads are draws (rules R37, R41). -/
theorem readByte_fst {s : State} {a : Address} (h : a ∉ s.params.volatileSet) :
    (readByte a s).1 = Memory.read s.refreshPoint.rr a.toNat := by
  rw [readByte, State.chipByte, refreshPoint_params, if_neg h]

/-- A byte written is stored over what the move leaves (rule R37). -/
theorem read_writeByte (s : State) (a : Address) (v : Byte) (x : Address) :
    Memory.read (writeByte a v s).rr x.toNat = if x = a then v else Memory.read s.refreshPoint.rr x.toNat := by
  rw [writeByte_rr, ← refreshPoint_rr]
  split_ifs with hx
  · rw [hx, Memory.read_write_same]
  · exact Memory.read_write_other _ _ fun e => hx (BitVec.eq_of_toNat_eq e)

/-- Settles O60: each transfer is a refresh point and its own effect, and each body has one move for each byte. -/
theorem oneMoveForEveryTransfer : Obligations.OneMoveForEveryTransfer := by
  refine ⟨fun s o v a => ⟨rfl, rfl, rfl, rfl, readByte_fst, rfl, read_writeByte s a v⟩, fun i s t h => ?_⟩
  obtain ⟨w, rfl⟩ | hran := exec_next h
  · exact ⟨[], (List.append_nil _).symm, rfl⟩
  · obtain ⟨calls, hbus, -, hbytes, hmoves⟩ := hran.traced
    exact ⟨calls, hbus, by rw [hbytes, hmoves]⟩

end Sys2Proof.Machine
end

section
/-! PROOFS. `RAW`, `STATUS`, `OFFSET` and the answers never reach the remote chip (rule R127): every instruction and every
step does the same in two states that differ in these four only. -/

namespace Sys2Proof.Machine

/-- The second state is the first but for the handle's three numbers and the answers. -/
def NumbersOnly (s u : State) : Prop :=
  ∃ (raw : Word) (st : Status) (o : Distance) (rs : List Response), u = s.withNumbers raw st o rs

/-- Where the first outcome is a next state, the second is one that differs in the numbers and the answers only. -/
def SameButNumbers (x y : Host.Outcome State Fault Refusal) : Prop :=
  ∀ t, x = .next t → ∃ u, y = .next u ∧ NumbersOnly t u

section Answers

variable {s u : State}

theorem NumbersOnly.refuse (h : NumbersOnly s u) (w : PacketRefusal) : NumbersOnly (s.refuse w) (u.refuse w) := by
  obtain ⟨raw, st, o, rs, rfl⟩ := h
  exact ⟨raw, st, o, _, rfl⟩

/-- Two replies may differ: they are answers. -/
theorem NumbersOnly.reply (h : NumbersOnly s u) (bs bs' : List Byte) : NumbersOnly (s.reply bs) (u.reply bs') := by
  obtain ⟨raw, st, o, rs, rfl⟩ := h
  exact ⟨raw, st, o, _, rfl⟩

theorem NumbersOnly.replyFrame (h : NumbersOnly s u) (bs bs' : List Byte) :
    NumbersOnly (s.replyFrame bs) (u.replyFrame bs') := by
  obtain ⟨raw, st, o, rs, rfl⟩ := h
  exact ⟨raw, st, o, _, rfl⟩

theorem SameButNumbers.next (h : NumbersOnly s u) : SameButNumbers (.next s) (.next u) := by
  rintro t ⟨⟩
  exact ⟨u, rfl, h⟩

/-- An outcome that is no next state is matched by any other. -/
theorem SameButNumbers.refused (r : Refusal) (y : Host.Outcome State Fault Refusal) :
    SameButNumbers (.refused r) y := by
  rintro t ⟨⟩

/-- The same check refuses both or runs both bodies. -/
theorem SameButNumbers.answer (why : Option PacketRefusal) {body body' : State} (h : NumbersOnly s u)
    (hbody : NumbersOnly body body') : SameButNumbers (Machine.answer why s body) (Machine.answer why u body') := by
  cases why with
  | none => exact .next hbody
  | some w => exact .next (h.refuse w)

end Answers

section TwoRuns

variable (s : State) (raw : Word) (st : Status) (o : Distance) (rs : List Response)

theorem withNumbers_numbersOnly : NumbersOnly s (s.withNumbers raw st o rs) := ⟨raw, st, o, rs, rfl⟩

theorem memRead_numbersOnly (a : Address) (n : Nat) :
    NumbersOnly (memRead a n s).2 (memRead a n (s.withNumbers raw st o rs)).2 := by
  rw [memRead_withNumbers]
  exact withNumbers_numbersOnly ..

theorem memReadByte_numbersOnly (a : Address) :
    NumbersOnly (memReadByte a s).2 (memReadByte a (s.withNumbers raw st o rs)).2 :=
  memRead_numbersOnly s raw st o rs a 1

theorem memWrite_numbersOnly (a : Address) (vs : List Byte) :
    NumbersOnly (memWrite a vs s) (memWrite a vs (s.withNumbers raw st o rs)) := by
  rw [memWrite_withNumbers]
  exact withNumbers_numbersOnly ..

theorem instrWrite_numbersOnly (c : Byte) : NumbersOnly (instrWrite c s) (instrWrite c (s.withNumbers raw st o rs)) := by
  rw [instrWrite_withNumbers]
  exact withNumbers_numbersOnly ..

theorem applyInstrMask_numbersOnly (m : Byte) (j : MaskIntent) :
    NumbersOnly (applyInstrMask m j s) (applyInstrMask m j (s.withNumbers raw st o rs)) := by
  rw [applyInstrMask_withNumbers]
  exact withNumbers_numbersOnly ..

theorem poll_numbersOnly : NumbersOnly (poll s) (poll (s.withNumbers raw st o rs)) := by
  obtain ⟨raw', st', h⟩ := poll_withNumbers s raw st o rs
  rw [h]
  exact withNumbers_numbersOnly ..

/-- No instruction looks at the numbers to decide what it does. The checks read `INIT` and the operands only. -/
theorem exec_sameButNumbers (i : Instr) : SameButNumbers (exec i s) (exec i (s.withNumbers raw st o rs)) := by
  have h := withNumbers_numbersOnly s raw st o rs
  cases i with
  | rstatus _ | rdataf _ | wdataf _ => exact .refused _ _
  | wdata a data =>
    by_cases hlen : writeLengthOk data.length = true
    · rw [exec_wdata_eq a hlen, exec_wdata_eq a hlen]
      exact .answer (checkInit s) h ((memWrite_numbersOnly s raw st o rs a data).replyFrame _ _)
    · rw [exec_wdata_refused a hlen]
      exact .refused _ _
  | rdata a n =>
    by_cases hlen : readLengthOk n = true
    · rw [exec_rdata_eq a hlen, exec_rdata_eq a hlen]
      exact .answer (checkInit s) h ((memRead_numbersOnly s raw st o rs a n).replyFrame _ _)
    · rw [exec_rdata_refused a hlen]
      exact .refused _ _
  | winstr c => exact .answer (checkInit s) h ((instrWrite_numbersOnly s raw st o rs c).replyFrame _ _)
  | construct l o' => exact .answer (checkConstruct s o') h ⟨_, _, _, _, rfl⟩
  | readReg a n => exact .answer (checkReadReg s n) h ((memRead_numbersOnly s raw st o rs a n.toNat).reply _ _)
  | writeReg a data => exact .answer (checkWriteReg s data) h ((memWrite_numbersOnly s raw st o rs a data).reply _ _)
  | writeInstr c => exact .answer (checkInit s) h ((instrWrite_numbersOnly s raw st o rs c).reply _ _)
  | lock | unlock => exact .answer (checkInit s) h ((applyInstrMask_numbersOnly s raw st o rs _ _).reply _ _)
  | classify c v p => exact .answer (checkClassify v p) h ⟨_, _, _, _, rfl⟩
  | getRaw | getPos => exact .answer (checkInit s) h ((poll_numbersOnly s raw st o rs).reply _ _)
  | toPhys r o' => exact .answer (checkToPhys r o') h (h.reply _ _)
  | getStatus => exact .answer (checkInit s) h (h.reply _ _)
  | getVersion | getRevision => exact .answer (checkInit s) h ((memReadByte_numbersOnly s raw st o rs _).reply _ _)

/-- The same input is taken in both states, and decodes to the same instruction. -/
theorem runInput_sameButNumbers (input : PortInput) :
    SameButNumbers (runInput input s) (runInput input (s.withNumbers raw st o rs)) := by
  cases input with
  | packet bytes =>
    rw [runInput, runInput, runPacket, runPacket]
    cases decodePacket bytes with
    | ok i => exact exec_sameButNumbers s raw st o rs i
    | error w => exact .next ((withNumbers_numbersOnly s raw st o rs).refuse w)
  | frame bytes =>
    rw [runInput, runInput, runFrame, runFrame]
    cases decodeFrame bytes with
    | ok i => exact exec_sameButNumbers s raw st o rs i
    | error why => exact .refused _ _
  | controllerReset => exact .next ⟨_, _, _, _, rfl⟩

theorem step_sameButNumbers : SameButNumbers (step s) (step (s.withNumbers raw st o rs)) := by
  cases hp : s.pending with
  | nil =>
    rw [step_of_no_input hp, step_of_no_input (s := s.withNumbers raw st o rs) hp]
    exact .next (withNumbers_numbersOnly s.refreshPoint raw st o rs)
  | cons input rest =>
    rw [step_of_pending hp, step_of_pending (s := s.withNumbers raw st o rs) hp]
    exact runInput_sameButNumbers { s with pending := rest } raw st o rs input

end TwoRuns

/-- What a matched outcome means for the fields. -/
theorem SameButNumbers.fields {x y : Host.Outcome State Fault Refusal} (h : SameButNumbers x y) {t : State}
    (hx : x = .next t) : ∃ (raw : Word) (st : Status) (o : Distance) (rs : List Response),
      y = .next { t with raw := raw, status := st, offset := o, responses := rs } := by
  obtain ⟨u, hu, raw, st, o, rs, rfl⟩ := h t hx
  exact ⟨raw, st, o, rs, hu⟩

/-- Settles O57: by the two-run lemmas for an instruction and for a step. -/
theorem handleNumbersStayInside : Obligations.HandleNumbersStayInside :=
  fun s _ raw st o rs =>
    ⟨fun i h => (exec_sameButNumbers s raw st o rs i).fields h, fun h => (step_sameButNumbers s raw st o rs).fields h⟩

end Sys2Proof.Machine
end

section
/-! PROOFS. While there is no handle nothing reaches the bus (rules R15, R28), and `SEL`, `RAW`, `STATUS` and `OFFSET` are
unreadable. -/

namespace Sys2Proof.Machine

/-! ### No frame without a handle -/

section NoHandle

variable {i : Instr} {s t : State}

/-- Without a handle a body calls nothing on the transport and leaves the select line. -/
theorem Ran.bus_of_no_handle (hran : Ran i s t) (hinit : s.init = false) :
    t.bus = s.bus ∧ t.select = s.select := by
  have hno : ¬ s.init = true := ne_true_of_eq_false hinit
  cases i with
  | rstatus _ | rdataf _ | wdataf _ => exact hran.elim
  | construct _ _ | classify _ _ _ | toPhys _ _ =>
    obtain ⟨-, -, rfl⟩ := hran
    exact ⟨rfl, rfl⟩
  | _ => exact absurd hran.1 hno

/-- Settles O58: a step without a handle is idle, a reset, a refusal or a body without frames; the check of `INIT` refuses
a frame. -/
theorem noFrameWithoutAHandle : Obligations.NoFrameWithoutAHandle := by
  refine ⟨fun s t hinit h => ?_, fun a data n c s hinit => ⟨fun h1 h255 => ?_, fun h1 h4 => ?_, ?_⟩⟩
  · obtain ⟨-, rfl⟩ | ⟨_, -, rfl⟩ | ⟨w, -, rfl⟩ | ⟨i, -, hran⟩ := step_next h
    · exact ⟨refreshPoint_bus s, fun hsel => (refreshPoint_select s).trans hsel⟩
    · exact ⟨rfl, fun _ => rfl⟩
    · exact ⟨rfl, id⟩
    · obtain ⟨hbus, hsel⟩ := hran.bus_of_no_handle hinit
      exact ⟨hbus, hsel.trans⟩
  · rw [exec_wdata_eq a ((writeLengthOk_iff _).mpr ⟨h1, h255⟩)]
    exact answer_eq_refuse (checkInit_eq_some hinit)
  · rw [exec_rdata_eq a ((readLengthOk_iff _).mpr ⟨h1, h4⟩)]
    exact answer_eq_refuse (checkInit_eq_some hinit)
  · exact answer_eq_refuse (checkInit_eq_some hinit)

end NoHandle

/-! ### The handle is unreadable before construct -/

/-- The same state but for the four registers of the handle that are unspecified before `construct` (rule R28). -/
def State.withHandle (s : State) (sel : Byte) (raw : Word) (st : Status) (o : Distance) : State :=
  { s with sel := sel, raw := raw, status := st, offset := o }

/-- Where the first outcome is a next state, the second is the very same, or, while there is no handle still, the same but
for the four registers. -/
def Unreadable (sel : Byte) (raw : Word) (st : Status) (o : Distance) (x y : Host.Outcome State Fault Refusal) : Prop :=
  ∀ t, x = .next t → y = .next t ∨ (t.init = false ∧ y = .next (t.withHandle sel raw st o))

section TwoRuns

variable {s : State} {sel : Byte} {raw : Word} {st : Status} {o : Distance}

theorem Unreadable.refused (r : Refusal) (y : Host.Outcome State Fault Refusal) :
    Unreadable sel raw st o (.refused r) y := by
  rintro t ⟨⟩

theorem Unreadable.kept {t : State} (ht : t.init = false) :
    Unreadable sel raw st o (.next t) (.next (t.withHandle sel raw st o)) := by
  rintro _ ⟨⟩
  exact .inr ⟨ht, rfl⟩

theorem Unreadable.same (x : Host.Outcome State Fault Refusal) : Unreadable sel raw st o x x :=
  fun _ h => .inl h

/-- Both states are refused alike by the check of `INIT`, whatever the bodies would do. -/
theorem Unreadable.noHandle (hinit : s.init = false) {why : Option PacketRefusal} {w : PacketRefusal}
    (hwhy : why = some w) (body body' : State) :
    Unreadable sel raw st o (answer why s body) (answer why (s.withHandle sel raw st o) body') := by
  rw [answer_eq_refuse hwhy, answer_eq_refuse hwhy]
  exact .kept hinit

/-- The same check refuses both or runs both bodies. -/
theorem Unreadable.answer (hinit : s.init = false) (why : Option PacketRefusal) {body : State}
    (hbody : body.init = false) :
    Unreadable sel raw st o (Machine.answer why s body)
      (Machine.answer why (s.withHandle sel raw st o) (body.withHandle sel raw st o)) := by
  cases why with
  | none => exact .kept hbody
  | some w => exact .kept (t := s.refuse w) hinit

/-- No instruction reads the four registers while there is no handle: `construct` overwrites them, `classify` and
`toPhysical` work on their operands, and every other one is refused. -/
theorem exec_unreadable (hinit : s.init = false) (i : Instr) :
    Unreadable sel raw st o (exec i s) (exec i (s.withHandle sel raw st o)) := by
  have hcheck : checkInit s = some .notConstructed := checkInit_eq_some hinit
  cases i with
  | rstatus _ | rdataf _ | wdataf _ => exact .refused _ _
  | wdata a data =>
    by_cases hlen : writeLengthOk data.length = true
    · rw [exec_wdata_eq a hlen, exec_wdata_eq a hlen]
      exact .noHandle hinit hcheck _ _
    · rw [exec_wdata_refused a hlen]
      exact .refused _ _
  | rdata a n =>
    by_cases hlen : readLengthOk n = true
    · rw [exec_rdata_eq a hlen, exec_rdata_eq a hlen]
      exact .noHandle hinit hcheck _ _
    · rw [exec_rdata_refused a hlen]
      exact .refused _ _
  | construct l o' =>
    by_cases hfin : finite32 o' = true
    · have hnone : checkConstruct s o' = none := checkConstruct_eq_none hinit hfin
      have hrun : exec (.construct l o') s = .next ((s.constructed l o').reply []) := answer_eq_next hnone
      have hrun' : exec (.construct l o') (s.withHandle sel raw st o) = .next ((s.constructed l o').reply []) :=
        answer_eq_next hnone
      rw [hrun, hrun']
      exact .same _
    · exact .noHandle hinit ((if_neg (ne_true_of_eq_false hinit)).trans (if_neg hfin) : checkConstruct s o' = _) _ _
  | classify _ v p => exact .answer hinit (checkClassify v p) (body := (s.drawn 1).reply _) hinit
  | toPhys r o' => exact .answer hinit (checkToPhys r o') (body := s.reply _) hinit
  | readReg a n => exact .noHandle hinit (checkReadReg_eq_some hinit n) _ _
  | writeReg a data => exact .noHandle hinit (checkWriteReg_eq_some hinit data) _ _
  | winstr _ | writeInstr _ | lock | unlock | getRaw | getPos | getStatus | getVersion | getRevision =>
    exact .noHandle hinit hcheck _ _

theorem runInput_unreadable (hinit : s.init = false) (input : PortInput) :
    Unreadable sel raw st o (runInput input s) (runInput input (s.withHandle sel raw st o)) := by
  cases input with
  | packet bytes =>
    rw [runInput, runInput, runPacket, runPacket]
    cases decodePacket bytes with
    | ok i => exact exec_unreadable hinit i
    | error w => exact .kept hinit
  | frame bytes =>
    rw [runInput, runInput, runFrame, runFrame]
    cases decodeFrame bytes with
    | ok i => exact exec_unreadable hinit i
    | error why => exact .refused _ _
  | controllerReset => exact .same _

theorem step_unreadable (hinit : s.init = false) :
    Unreadable sel raw st o (step s) (step (s.withHandle sel raw st o)) := by
  cases hp : s.pending with
  | nil =>
    rw [step_of_no_input hp, step_of_no_input (s := s.withHandle sel raw st o) hp]
    exact .kept ((refreshPoint_init s).trans hinit)
  | cons input rest =>
    rw [step_of_pending hp, step_of_pending (s := s.withHandle sel raw st o) hp]
    exact runInput_unreadable (s := { s with pending := rest }) hinit input

end TwoRuns

/-- Settles O59: the second step ends in the very same state, or still without a handle. -/
theorem handleIsUnreadableBeforeConstruct : Obligations.HandleIsUnreadableBeforeConstruct := by
  intro s t sel raw st o hinit h
  obtain hsame | ⟨hno, hkept⟩ := step_unreadable (sel := sel) (raw := raw) (st := st) (o := o) hinit t h
  · exact ⟨t.sel, t.raw, t.status, t.offset, hsame, fun _ => ⟨rfl, rfl, rfl, rfl⟩⟩
  · exact ⟨sel, raw, st, o, hkept, fun hyes => absurd hyes (ne_true_of_eq_false hno)⟩

end Sys2Proof.Machine
end

section
/-! PROOFS. A torn read (program P5 of 95_test_vectors.md): the snapshot comes between the second and the third data
byte. -/

namespace Sys2Proof.Machine

/-- The snapshot of P5: 0x00 to 0x03 hold 00 00 01 00. -/
def tornSnapshot : Memory := [(0x02, 0x01#8)]

/-- An unlocked bank that holds FC FF 00 00. The agent steps once, after the opcode, the address and two data bytes. -/
def tornState : State :=
  { testState [(0x00, 0xFC#8), (0x01, 0xFF#8)] [] with moves := [none, none, none, none, some tornSnapshot, none] }

/-- Settles O30: by evaluation of the read on `tornState`. -/
theorem unlockedReadCanTear : Obligations.UnlockedReadCanTear := by
  refine ⟨tornState, _, rfl, by decide, by decide, ⟨tornSnapshot, rfl, by decide⟩,
    exec_readReg_next rfl 0#8 (by decide) (by decide), ?_⟩
  decide

end Sys2Proof.Machine
end
